-- ==== Sys2Proof/Word.lean ====
section
/-! DEFINITION. The word types of the block. -/

namespace Sys2Proof

/-- A code unit, the unit of IN_BUF, OUT_BUF, literals and dictionary strings (R6 CU_W, R40). -/
abbrev CodeUnit := BitVec 16

/-- A raw symbol: BPC bits (6, 15 or 16), held in the low bits of 16 (R16, R73; log 19). -/
abbrev Symbol := BitVec 16

/-- An 8-bit host register (R11). -/
abbrev Byte := BitVec 8

/-- A key, a scrambler state, an increment or a keystream word (R6 KEY_W). -/
abbrev Word64 := BitVec 64

/-- A string: a finite sequence of code units (R8, R9). -/
abbrev Str := List CodeUnit

end Sys2Proof
end

