-- ==== Sys2Proof/Syntax.lean ====
section
/-! DEFINITION. The ten rows of the opcode table as one inductive, with their operand types. -/

namespace Sys2Proof

/-- The ALPHA field's four values (R61, R140). -/
inductive Alphabet where
  | raw
  | utf16
  | base64
  | uriSafe
  deriving DecidableEq, Repr

/-- The OP field's four values (R61). -/
inductive Op where
  | compress
  | decompress
  | compressScrambled
  | decompressScrambled
  deriving DecidableEq, Repr

/-- The instructions (R3): four host commands (R61) and six token forms (R63 to R67). -/
inductive Instr where
  | compress (alpha : Alphabet)
  | decompress (alpha : Alphabet)
  | compressScrambled
  | decompressScrambled
  | firstLit8 (v : BitVec 8)
  | firstLit16 (v : BitVec 16)
  | lit8 (v : BitVec 8)
  | lit16 (v : BitVec 16)
  | eos
  | ref (k : Nat)
  deriving DecidableEq, Repr

end Sys2Proof
end

