-- ==== Sys2Proof/WellFormed.lean ====
section
/-! DEFINITION. Where an instruction may stand, and which operands its encoding admits there. -/

namespace Sys2Proof

/-- The place an instruction is read from: the CMD register (layer H), the head of a token stream
(format F), or a later position of it, where NUMBITS bits make the code field (format N) (R60, R62). -/
inductive FetchContext where
  | command
  | first
  | later (numBits : Nat)
  deriving DecidableEq, Repr

/-- The place is one of the kind the instruction's format belongs to (R62, R69: NUMBITS >= 3 in format N). -/
def Instr.fitsPlace (c : FetchContext) (i : Instr) : Bool :=
  match i, c with
  | .compress _, .command | .decompress _, .command => true
  | .compressScrambled, .command | .decompressScrambled, .command => true
  | .firstLit8 _, .first | .firstLit16 _, .first => true
  | .lit8 _, .later n | .lit16 _, .later n | .eos, .later n | .ref _, .later n => decide (3 ≤ n)
  | _, _ => false

/-- A REF's code is no control code (R67: 3 <= k). -/
def Instr.codeIsNoControl (i : Instr) : Bool :=
  match i with
  | .ref k => decide (3 ≤ k)
  | _ => true

/-- A REF's code fits the code field (R62, R108 c). -/
def Instr.codeFits (c : FetchContext) (i : Instr) : Bool :=
  match i, c with
  | .ref k, .later n => decide (k < 2 ^ n)
  | _, _ => true

/-- The instruction can be encoded, and read back, at this place. -/
def Instr.wellFormed (c : FetchContext) (i : Instr) : Bool :=
  i.fitsPlace c && i.codeIsNoControl && i.codeFits c

/-- The code names an entry the decoder has, or the one it is about to make (R67: k <= DICTSIZE). A
token that fails this is well formed and raises BAD_CODE (R71, R126; log 21). -/
def Instr.codeKnown (dictSize : Nat) (i : Instr) : Bool :=
  match i with
  | .ref k => decide (k ≤ dictSize)
  | _ => true

end Sys2Proof
end

