-- ==== Sys2Proof/Decode.lean ====
section
/-! DEFINITION. Decoding, total on any bits and rejecting by name; then the encoder. -/

namespace Sys2Proof

/-- Why bits are no instruction (R71). BAD_CODE is not here: it depends on DICTSIZE and is raised in
execution (R126; log 21). -/
inductive DecodeError where
  | illegalCommand
  | badFirst
  | truncated
  deriving DecidableEq, Repr

/-! ### Layer H: the command word (R61) -/

/-- OP from bits [3:2] (R61). -/
def opOf (b : BitVec 2) : Op :=
  match b.toNat with
  | 0 => .compress
  | 1 => .decompress
  | 2 => .compressScrambled
  | _ => .decompressScrambled

/-- ALPHA from bits [1:0] (R61). -/
def alphaOf (b : BitVec 2) : Alphabet :=
  match b.toNat with
  | 0 => .raw
  | 1 => .utf16
  | 2 => .base64
  | _ => .uriSafe

/-- The OP field of a command word: c[3:2]. -/
def opField (c : Byte) : BitVec 2 := c.extractLsb' 2 2

/-- The ALPHA field of a command word: c[1:0]. -/
def alphaField (c : Byte) : BitVec 2 := c.extractLsb' 0 2

/-- The RSV0 field of a command word: c[7:4]. -/
def reservedField (c : Byte) : BitVec 4 := c.extractLsb' 4 4

/-- The command OP and ALPHA name: a scrambled command has ALPHA = 0 (R61, R187). -/
def commandOf (op : Op) (alpha : Alphabet) : Option Instr :=
  match op, alpha with
  | .compress, a => some (.compress a)
  | .decompress, a => some (.decompress a)
  | .compressScrambled, .raw => some .compressScrambled
  | .decompressScrambled, .raw => some .decompressScrambled
  | _, _ => none

/-- The command a word of CMD is; `none` is an illegal command (R61, R187). -/
def decodeCommand (c : Byte) : Option Instr :=
  if reservedField c = 0 then commandOf (opOf (opField c)) (alphaOf (alphaField c)) else none

/-! ### Layer T: the tokens (R62) -/

/-- The literal width a first token's 2-bit prefix announces; `none` for 2 and 3, which are illegal (R62, R63). -/
def firstLiteralWidth (prefixValue : Nat) : Option Nat :=
  match prefixValue with
  | 0 => some 8
  | 1 => some 16
  | _ => none

/-- The literal width a later token's code announces; `none` where no literal follows (R62). -/
def literalWidth (code : Nat) : Option Nat :=
  match code with
  | 0 => some 8
  | 1 => some 16
  | _ => none

/-- The format F token with prefix `p` and literal `v` (R63). -/
def firstToken (p v : Nat) : Instr :=
  match p with
  | 0 => .firstLit8 (BitVec.ofNat 8 v)
  | _ => .firstLit16 (BitVec.ofNat 16 v)

/-- The format N token with code `code` and, where it has one, literal `v` (R64 to R67, R122). -/
def laterToken (code v : Nat) : Instr :=
  match code with
  | 0 => .lit8 (BitVec.ofNat 8 v)
  | 1 => .lit16 (BitVec.ofNat 16 v)
  | 2 => .eos
  | k => .ref k

/-- Read a field of `w` bits, most significant first, onto `acc` (R68). -/
def takeField : Nat → Nat → List Bool → Option (Nat × List Bool)
  | 0, acc, bits => some (acc, bits)
  | _ + 1, _, [] => none
  | w + 1, acc, b :: bits => takeField w (2 * acc + b.toNat) bits

/-- Decode the format F token at the head of a bit stream (R63). -/
def decodeFirst (bits : List Bool) : Except DecodeError (Instr × List Bool) :=
  match takeField 2 0 bits with
  | none => .error .truncated
  | some (p, bits) =>
    match firstLiteralWidth p with
    | none => .error .badFirst
    | some w =>
      match takeField w 0 bits with
      | none => .error .truncated
      | some (v, bits) => .ok (firstToken p v, bits)

/-- Decode the format N token at the head of a bit stream, its code field `n` bits wide (R62, R69). -/
def decodeLater (n : Nat) (bits : List Bool) : Except DecodeError (Instr × List Bool) :=
  match takeField n 0 bits with
  | none => .error .truncated
  | some (code, bits) =>
    match literalWidth code with
    | none => .ok (laterToken code 0, bits)
    | some w =>
      match takeField w 0 bits with
      | none => .error .truncated
      | some (v, bits) => .ok (laterToken code v, bits)

/-- Decode one instruction from the bits at its place; the bits left over come back. -/
def decode (c : FetchContext) (bits : List Bool) : Except DecodeError (Instr × List Bool) :=
  match c with
  | .command =>
    match takeField 8 0 bits with
    | none => .error .truncated
    | some (w, bits) =>
      match decodeCommand (BitVec.ofNat 8 w) with
      | none => .error .illegalCommand
      | some i => .ok (i, bits)
  | .first => decodeFirst bits
  | .later n => decodeLater n bits

/-! ### The encoder -/

/-- OP's two bits (R61). -/
def opCode (op : Op) : BitVec 2 :=
  match op with
  | .compress => 0
  | .decompress => 1
  | .compressScrambled => 2
  | .decompressScrambled => 3

/-- ALPHA's two bits (R61). -/
def alphaCode (a : Alphabet) : BitVec 2 :=
  match a with
  | .raw => 0
  | .utf16 => 1
  | .base64 => 2
  | .uriSafe => 3

/-- The command word: RSV0 = 0 in [7:4], OP in [3:2], ALPHA in [1:0] (R61). -/
def commandWord (op : Op) (a : Alphabet) : Byte := 0#4 ++ opCode op ++ alphaCode a

/-- The fields of an instruction in stream order, each a value and its width, with the code field of a
format N token `n` bits wide (R61, R63 to R67). -/
def encodeFields (n : Nat) (i : Instr) : List (Nat × Nat) :=
  match i with
  | .compress a => [((commandWord .compress a).toNat, 8)]
  | .decompress a => [((commandWord .decompress a).toNat, 8)]
  | .compressScrambled => [((commandWord .compressScrambled .raw).toNat, 8)]
  | .decompressScrambled => [((commandWord .decompressScrambled .raw).toNat, 8)]
  | .firstLit8 v => [(0, 2), (v.toNat, 8)]
  | .firstLit16 v => [(1, 2), (v.toNat, 16)]
  | .lit8 v => [(0, n), (v.toNat, 8)]
  | .lit16 v => [(1, n), (v.toNat, 16)]
  | .eos => [(2, n)]
  | .ref k => [(k, n)]

/-- The `w` low bits of a value, most significant first (R41, R81). -/
def fieldBits (v : Nat) : Nat → List Bool
  | 0 => []
  | w + 1 => v.testBit w :: fieldBits v w

/-- The code-field width a place gives (R62). -/
def FetchContext.numBits (c : FetchContext) : Nat :=
  match c with
  | .command => 8
  | .first => 2
  | .later n => n

/-- The bits of an instruction at its place, in stream order. -/
def encode (c : FetchContext) (i : Instr) : List Bool :=
  (encodeFields c.numBits i).flatMap fun f => fieldBits f.1 f.2

/-! ### Words numbered as the opcode table numbers them (log 16) -/

/-- The place and the number of bits of the table row whose word has `nbits` bits (exact, or in whole
bytes for the two format F rows). Format N rows are the table's: NUMBITS = 3 (log 16). -/
def tableRow (nbits : Nat) : Option (FetchContext × Nat) :=
  match nbits with
  | 8 => some (.command, 8)
  | 10 | 16 => some (.first, 10)
  | 18 | 24 => some (.first, 18)
  | 3 => some (.later 3, 3)
  | 11 => some (.later 3, 11)
  | 19 => some (.later 3, 19)
  | _ => none

/-- The bit stream of a table word: its row's bits, then zeros up to 32 bits, more than the longest
instruction a table word can start (log 16). -/
def tableBits (width w : Nat) : List Bool := fieldBits w width ++ fieldBits 0 (32 - width)

/-- The instruction the decoder reads from the word `w` of an opcode-table row of `nbits` bits. -/
def decodeTableWord (nbits w : Nat) : Option Instr :=
  match tableRow nbits with
  | none => none
  | some (c, width) =>
    if w < 2 ^ width then
      match decode c (tableBits width w) with
      | .ok (i, _) => some i
      | .error _ => none
    else none

end Sys2Proof
end

