-- ==== Sys2Proof/Config.lean ====
section
/-! DEFINITION. What one instance of the block fixes (R6), and the free values. -/

namespace Sys2Proof

/-- Which total 64-bit function MIX is (R161). `parameter n` is the OPEN parameter itself: a function
of which nothing is known, one for each `n` (log 4). -/
inductive MixChoice where
  | splitMix64
  | identity
  | parameter (n : Nat)
  deriving DecidableEq, Repr

/-- The instance's OPEN parameters (R6). A capacity of `none` is unbounded. They stand in State
(log 3) and no step changes them. -/
structure Config where
  inMax    : Option Nat
  outMax   : Option Nat
  nkeysMax : Option Nat
  dictMax  : Option Nat
  mix      : MixChoice
  deriving DecidableEq, Repr

/-- The document's machine: every capacity unbounded (R47, R211), with R161's default MIX
(log 3, log 4). -/
def Config.unbounded : Config :=
  { inMax := none, outMax := none, nkeysMax := none, dictMax := none, mix := .splitMix64 }

/-- FREE VALUE. MIX where the instance leaves it OPEN (R161, U1): any total function (log 4). -/
opaque Config.openMix : Nat → Word64 → Word64

/-- FREE VALUE. The `n`-th draw where a host read of a code unit has no stated value (U5, U7, U8; log 9). -/
opaque Config.freeUnit : Nat → CodeUnit

/-- FREE VALUE. The `n`-th draw where a host read of an 8-bit register has no stated value (U7; log 9). -/
opaque Config.freeByte : Nat → Byte

/-- FREE VALUE. The `n`-th draw where a host read of a LEN register has no stated value (U7; log 9). -/
opaque Config.freeLen : Nat → Nat

/-- FREE VALUE. The `n`-th draw where a host read of a KEY number beyond NKEYS_MAX has no stated value (log 13). -/
opaque Config.freeKey : Nat → Word64

end Sys2Proof
end

