-- ==== Sys2Proof/Machine/State.lean ====
section
/-! DEFINITION. The state of the block, as plain data, and its value right after reset. -/

namespace Sys2Proof.Machine

/-- STATUS.STATE (R11, R13). -/
inductive RunState where
  | idle
  | busy
  | done
  | error
  deriving DecidableEq, Repr

/-- The cause codes 0 to 6 of ERRCODE (R201). -/
inductive Cause where
  | none
  | badFirst
  | truncated
  | badCode
  | badSymbol
  | capacity
  | illegalCmd
  deriving DecidableEq, Repr

/-- PHASE, the sequencing state (R12). -/
inductive Phase where
  | idle
  | encode
  | scramble
  | output
  | unscramble
  | decodeFirst
  | decode
  | finished
  deriving DecidableEq, Repr

/-- A buffer of code units: (index, unit) pairs, indexes strictly rising; an index not listed has never
been written since reset and has no value (R21, R40, R46; logs 7 and 24). -/
abbrev Memory := List (Nat × CodeUnit)

/-- The KEY registers: (number, value) pairs, numbers strictly rising, no listed value 0; a key not
listed holds its reset value 0 (R11, R21; logs 5 and 24). -/
abbrev KeyFile := List (Nat × Word64)

/-- Host registers 0 to 6 (R11). -/
structure HostRegs where
  cmd     : Byte
  status  : RunState
  errCode : Cause
  errIdx  : Nat
  inLen   : Nat
  outLen  : Nat
  nkeys   : Nat
  deriving DecidableEq, Repr

/-- The configuration latched at command start (R20). -/
structure Latched where
  op    : Op
  alpha : Alphabet
  scr   : Bool
  nL    : Nat
  kL    : Nat
  deriving DecidableEq, Repr

/-- The dictionary codec's registers (R14, R15). DICT is kept in insertion order; PEND holds the units
whose one-unit entry is pending. -/
structure Codec where
  w         : Str
  c         : CodeUnit
  dict      : List (Str × Nat)
  pend      : List CodeUnit
  dictSize  : Nat
  numBits   : Nat
  enlargeIn : Nat
  idx       : Nat
  deriving DecidableEq, Repr

/-- The bit packer's registers (R16). SYM_LEN is the length of `sym`. -/
structure Packer where
  pval : Symbol
  ppos : Nat
  sym  : List Symbol
  deriving DecidableEq, Repr

/-- The bit reader's registers (R17). -/
structure Reader where
  rval  : Symbol
  rmask : Symbol
  ridx  : Nat
  deriving DecidableEq, Repr

/-- The decoder's registers (R18). -/
structure Decoder where
  dlist : List Str
  cc    : Nat
  entry : Str
  res   : Str
  deriving DecidableEq, Repr

/-- The scrambler's registers (R19). -/
structure Scrambler where
  sstate : Word64
  sinc   : Word64
  skey   : Nat
  sblk   : Nat
  deriving DecidableEq, Repr

/-- The read-only and reserved registers (R11): a write of one is dropped whatever its value. -/
inductive InertReg where
  | status
  | errCode
  | errIdx
  | outLen
  | reserved (j : Fin 9)
  deriving DecidableEq, Repr

/-- A host write other than CMD's. Each carries a value of its register's type (R11, U14; log 12). -/
inductive HostWrite where
  | inLen (n : Nat)
  | nkeys (n : Nat)
  | key (i : Nat) (k : Word64)
  | inBuf (i : Nat) (u : CodeUnit)
  | outBuf (i : Nat) (u : CodeUnit)
  | inert (r : InertReg)
  deriving DecidableEq, Repr

/-- A host read: a register by its number (R11), or one unit of a buffer (R46). -/
inductive HostRead where
  | reg (n : Nat)
  | inBuf (i : Nat)
  | outBuf (i : Nat)
  deriving DecidableEq, Repr

/-- The value a host read returned (log 12). -/
inductive HostValue where
  | byte (b : Byte)
  | len (n : Nat)
  | key (k : Word64)
  | unit (u : CodeUnit)
  deriving DecidableEq, Repr

/-- One turn of the outside world (R10, R231; log 2): a write of CMD, another write, a read, the RESET
input (R230), waiting until STATUS is not BUSY (R231), or letting the engine take one step. -/
inductive HostTurn where
  | writeCmd (c : Byte)
  | write (w : HostWrite)
  | read (r : HostRead)
  | reset
  | poll
  | engine
  deriving DecidableEq, Repr

/-- The whole state (R11 to R21). `host`, `seen`, `draws` and `cfg` are the model's own (logs 2, 12, 9, 3);
log 23 says what has no field. -/
structure State where
  regs   : HostRegs
  keys   : KeyFile
  inBuf  : Memory
  outBuf : Memory
  phase  : Phase
  lat    : Latched
  codec  : Codec
  pack   : Packer
  read   : Reader
  dec    : Decoder
  scr    : Scrambler
  host   : List HostTurn
  seen   : List HostValue
  draws  : Nat
  cfg    : Config
  deriving DecidableEq, Repr

/-- Where a rule reads what is not there. The rules' own invariants (R18, R109, R125, R126) say this
never happens in a run; each is SAFE, a stop where the spec gives no effect (log 18). -/
inductive Fault where
  /-- Raised by REF (the KwKwK case) and the common tail: `W[0]` or `ENTRY[0]` of an empty string (R126, R127). Safe. -/
  | emptyString
  /-- Raised by REF: DLIST has no entry for a code below DICTSIZE (R126, against R18's invariant). Safe. -/
  | missingEntry (k : Nat)
  /-- Raised by EMIT: the string is neither pending nor a key of DICT (R106, against R109). Safe. -/
  | missingCode
  /-- Raised by NEXTSYM on the scrambled path: SYM has no symbol of that index (R85, R184). Safe. -/
  | missingSymbol (i : Nat)
  deriving DecidableEq, Repr

/-- Why the model gives no next state although nothing is broken. -/
inductive Refusal where
  /-- Raised by `exec` for an instruction that has no meaning yet. Safe. -/
  | notModelled (mnemonic : String)
  /-- Raised by the engine when it reads IN_BUF[i] and nothing has written that unit since reset: outside
  the rules, the spec's own treatment is `refuse` (R23, R239, U6; log 7, log 8). Safe. -/
  | unwrittenInput (i : Nat)
  deriving DecidableEq, Repr

/-- DLIST at the start of every command: three entries that no rule reads (R18, R25, U18; log 17). -/
def placeholders : List Str := [[0x30], [0x31], [0x32]]

/-- Codec values at command start (R25); C is not given one there (log 11). -/
def Codec.start : Codec :=
  { w := [], c := 0, dict := [], pend := [], dictSize := 3, numBits := 2, enlargeIn := 2, idx := 0 }

/-- Packer values at command start (R25). -/
def Packer.start : Packer := { pval := 0, ppos := 0, sym := [] }

/-- Reader values at command start (R25). -/
def Reader.start : Reader := { rval := 0, rmask := 0, ridx := 0 }

/-- Decoder values at command start (R25); CC and ENTRY are not given one there (log 11). -/
def Decoder.start : Decoder := { dlist := placeholders, cc := 0, entry := [], res := [] }

/-- The machine right after reset (R23, R230). Host registers and PHASE are the spec's; buffers hold
nothing (log 7); KEY, the working registers and the latched configuration are unspecified there and
hold the values logs 5 and 6 name. -/
def State.reset : State where
  regs   := { cmd := 0, status := .idle, errCode := .none, errIdx := 0, inLen := 0, outLen := 0, nkeys := 0 }
  keys   := []
  inBuf  := []
  outBuf := []
  phase  := .idle
  lat    := { op := .compress, alpha := .raw, scr := false, nL := 0, kL := 0 }
  codec  := Codec.start
  pack   := Packer.start
  read   := Reader.start
  dec    := Decoder.start
  scr    := { sstate := 0, sinc := 1, skey := 0, sblk := 0 }
  host   := []
  seen   := []
  draws  := 0
  cfg    := Config.unbounded

end Sys2Proof.Machine
end

