-- ==== Sys2Proof/Machine/Flags.lean ====
section
/-! DEFINITION. The flags and codes of the block: STATUS.STATE, ERRCODE.CAUSE, PEND, the capacity test. -/

namespace Sys2Proof.Machine

/-- STATE's code (R11). -/
def stateCode (r : RunState) : BitVec 2 :=
  match r with
  | .idle => 0
  | .busy => 1
  | .done => 2
  | .error => 3

/-- STATUS as the host reads it: STATE in [1:0], [7:2] read as 0 (R11). -/
def statusByte (r : RunState) : Byte := 0#6 ++ stateCode r

/-- CAUSE's code (R201). -/
def causeCode (c : Cause) : Byte :=
  match c with
  | .none => 0
  | .badFirst => 1
  | .truncated => 2
  | .badCode => 3
  | .badSymbol => 4
  | .capacity => 5
  | .illegalCmd => 6

/-- The cause is one of the four FormatError causes (R200, R201). -/
def Cause.isFormatError (c : Cause) : Bool :=
  match c with
  | .badFirst | .truncated | .badCode | .badSymbol => true
  | .none | .capacity | .illegalCmd => false

/-- A value is beyond a capacity; nothing is beyond an unbounded one (R47, R211). -/
def exceeds (n : Nat) (cap : Option Nat) : Bool :=
  match cap with
  | none => false
  | some m => decide (m < n)

/-- An index lies inside a capacity (R46). -/
def within (i : Nat) (cap : Option Nat) : Bool :=
  match cap with
  | none => true
  | some m => decide (i < m)

/-- Set a unit's PEND flag (R14, R101). -/
def setPending (u : CodeUnit) (pend : List CodeUnit) : List CodeUnit := pend ++ [u]

/-- Clear a unit's PEND flag (R14, R106). -/
def clearPending (u : CodeUnit) (pend : List CodeUnit) : List CodeUnit := pend.filter (· != u)

/-- The unit of a string whose PEND flag is set; only one-unit strings carry one (R14, R106). -/
def pendingUnit (s : Str) (pend : List CodeUnit) : Option CodeUnit :=
  match s with
  | [u] => if u ∈ pend then some u else none
  | _ => none

end Sys2Proof.Machine
end

