-- ==== Sys2Proof/Machine/Ops.lean ====
section
/-! DEFINITION. The named operations over buffers, keys, the dictionary, the packer and the width
counter; raising an exception, and the ends of a command. -/

namespace Sys2Proof.Machine

/-! ### What an operation of the engine can answer -/

/-- An operation over `σ` that returns an `α`: it completes; or it raises a cause, keeping what it did up
to the raise (R203; log 10); or it stops with a fault or a refusal. -/
inductive Eff (σ α : Type) where
  | ok (a : α) (s : σ)
  | raise (c : Cause) (s : σ)
  | fault (f : Fault)
  | refused (r : Refusal)
  deriving DecidableEq, Repr

/-- Do `k` next, when `x` completes. -/
def Eff.bind {σ α β : Type} (x : Eff σ α) (k : α → σ → Eff σ β) : Eff σ β :=
  match x with
  | .ok a s => k a s
  | .raise c s => .raise c s
  | .fault f => .fault f
  | .refused r => .refused r

/-- The same operation seen as one on a larger state, `put` placing its part there. -/
def Eff.lift {σ τ α : Type} (put : σ → τ) (x : Eff σ α) : Eff τ α :=
  match x with
  | .ok a s => .ok a (put s)
  | .raise c s => .raise c (put s)
  | .fault f => .fault f
  | .refused r => .refused r

/-! ### Sparse stores -/

/-- The value listed at an index. -/
def sparseRead {α : Type} (m : List (Nat × α)) (i : Nat) : Option α :=
  match m with
  | [] => none
  | (j, v) :: rest => if i = j then some v else sparseRead rest i

/-- List a value at an index, keeping indexes strictly rising. -/
def sparseWrite {α : Type} (m : List (Nat × α)) (i : Nat) (a : α) : List (Nat × α) :=
  match m with
  | [] => [(i, a)]
  | (j, v) :: rest =>
    if i < j then (i, a) :: (j, v) :: rest
    else if i = j then (i, a) :: rest
    else (j, v) :: sparseWrite rest i a

/-- Unlist an index. -/
def sparseErase {α : Type} (m : List (Nat × α)) (i : Nat) : List (Nat × α) :=
  match m with
  | [] => []
  | (j, v) :: rest => if i = j then rest else (j, v) :: sparseErase rest i

/-- What a buffer index reads as: nothing, if it was never written since reset (log 7). -/
def Memory.read (m : Memory) (i : Nat) : Option CodeUnit := sparseRead m i

/-- Write one code unit (R40, R44). -/
def Memory.write (m : Memory) (i : Nat) (u : CodeUnit) : Memory := sparseWrite m i u

/-- Write code units at `i`, `i + 1`, … in increasing order (R45, R147, R191). -/
def Memory.writeFrom (m : Memory) (i : Nat) (us : List CodeUnit) : Memory :=
  match us with
  | [] => m
  | u :: rest => Memory.writeFrom (Memory.write m i u) (i + 1) rest

/-- The canonical form of a buffer: indexes strictly rising. -/
abbrev Memory.wf (m : Memory) : Prop := m.Pairwise fun a b => a.1 < b.1

/-- What a KEY register that nothing has written holds (log 5). -/
def keyResetValue : Word64 := 0

/-- Read KEY[i]: one 64-bit value (R44). -/
def KeyFile.read (k : KeyFile) (i : Nat) : Word64 := (sparseRead k i).getD keyResetValue

/-- Write KEY[i]; the reset value is kept by not listing the register. -/
def KeyFile.write (k : KeyFile) (i : Nat) (v : Word64) : KeyFile :=
  if v = keyResetValue then sparseErase k i else sparseWrite k i v

/-- The canonical form of the KEY registers. -/
abbrev KeyFile.wf (k : KeyFile) : Prop :=
  (k.Pairwise fun a b => a.1 < b.1) ∧ ∀ e ∈ k, e.2 ≠ keyResetValue

/-! ### The dictionary and the width counter -/

/-- DICT[s], if s is a key: exact match of the whole string (R15, R102, D37). -/
def dictLookup (d : List (Str × Nat)) (s : Str) : Option Nat :=
  match d with
  | [] => none
  | (t, k) :: rest => if s = t then some k else dictLookup rest s

/-- DICT[s] <- DICTSIZE ; DICTSIZE <- DICTSIZE + 1 (R101, R103), for an s that is no key yet. -/
def Codec.insert (c : Codec) (s : Str) : Codec :=
  { c with dict := c.dict ++ [(s, c.dictSize)], dictSize := c.dictSize + 1 }

/-- TICK (R104): the reset value of the counter uses NUMBITS before its increment. -/
def Codec.tick (c : Codec) : Codec :=
  if c.enlargeIn - 1 = 0 then { c with enlargeIn := 2 ^ c.numBits, numBits := c.numBits + 1 }
  else { c with enlargeIn := c.enlargeIn - 1 }

/-! ### The bit packer (R80 to R84) -/

/-- EMITSYM(r) (R83). -/
def Packer.emitSym (cap : Option Nat) (r : Symbol) (p : Packer) : Eff Packer Unit :=
  if exceeds (p.sym.length + 1) cap then .raise .capacity p
  else .ok () { p with sym := p.sym ++ [r] }

/-- PACKBIT(b) (R80), with BPC = `bpc`. PVAL is written before the symbol is emitted. -/
def Packer.packBit (bpc : Nat) (cap : Option Nat) (b : Bool) (p : Packer) : Eff Packer Unit :=
  let p := { p with pval := (p.pval <<< 1) ||| (BitVec.ofBool b).setWidth 16 }
  if p.ppos = bpc - 1 then
    (Packer.emitSym cap p.pval p).bind fun _ p => .ok () { p with pval := 0, ppos := 0 }
  else .ok () { p with ppos := p.ppos + 1 }

/-- PACK(code, width) (R81): the low `width` bits, most significant first; width 0 does nothing (R82). -/
def Packer.pack (bpc : Nat) (cap : Option Nat) (code : Nat) : Nat → Packer → Eff Packer Unit
  | 0, p => .ok () p
  | i + 1, p => (Packer.packBit bpc cap (code.testBit i) p).bind fun _ p => Packer.pack bpc cap code i p

/-- PACK of several (value, width) fields in order. -/
def Packer.packFields (bpc : Nat) (cap : Option Nat) : List (Nat × Nat) → Packer → Eff Packer Unit
  | [], p => .ok () p
  | f :: rest, p => (Packer.pack bpc cap f.1 f.2 p).bind fun _ p => Packer.packFields bpc cap rest p

/-- FLUSH (R84): exactly one more symbol, the held bits left-aligned and zero-padded. -/
def Packer.flush (bpc : Nat) (cap : Option Nat) (p : Packer) : Eff Packer Unit :=
  (Packer.emitSym cap (p.pval <<< (bpc - p.ppos)) p).bind fun _ p => .ok () { p with pval := 0, ppos := 0 }

/-! ### The ends of a command -/

/-- TAKING AN EXCEPTION (R203), the last step of a command: ERRCODE gets the cause, ERRIDX the reader's
symbol index for a FormatError and 0 for a refusal, OUT_LEN 0, STATE ERROR, PHASE FINISHED. Nothing is
saved, no mode changes, control goes nowhere. -/
def State.raise (c : Cause) (s : State) : State :=
  { s with
    regs := { s.regs with
      errCode := c
      errIdx := if c.isFormatError then s.read.ridx else 0
      outLen := 0
      status := .error }
    phase := .finished }

/-- What stands for the RETURN from an exception (R207): there is no such operation; the start of the next
accepted command clears the report (R180), and enters BUSY with OUT_LEN 0. -/
def State.clearReport (s : State) : State :=
  { s with regs := { s.regs with status := .busy, errCode := .none, errIdx := 0, outLen := 0 } }

/-- END_OK (R186). -/
def State.endOk (s : State) : State :=
  { s with regs := { s.regs with status := .done }, phase := .finished }

/-- The outcome of a step whose operation answered `x`: a raise ends the command in a next state (R203). -/
def Eff.outcome {α : Type} (x : Eff State α) : Host.Outcome State Fault Refusal :=
  match x with
  | .ok _ s => .next s
  | .raise c s => .next (s.raise c)
  | .fault f => .fault f
  | .refused r => .refused r

end Sys2Proof.Machine
end

