-- ==== Sys2Proof/Machine/Adapters.lean ====
section
/-! DEFINITION. The alphabet adapters: BPC, MAP, UNMAP and POST (43_alphabet_adapters.md). -/

namespace Sys2Proof.Machine

/-- The five rows of the configuration table (R140). -/
inductive Adapter where
  | raw
  | utf16
  | base64
  | uriSafe
  | scr15
  deriving DecidableEq, Repr

/-- The row (ALPHA_L, SCR_L) selects (R140). SCR_L = 1 occurs with ALPHA_L = 0 only. -/
def adapterOf (alpha : Alphabet) (scr : Bool) : Adapter :=
  if scr then .scr15
  else
    match alpha with
    | .raw => .raw
    | .utf16 => .utf16
    | .base64 => .base64
    | .uriSafe => .uriSafe

/-- The configuration in force for the running command (R20, R140). -/
def State.adapter (s : State) : Adapter := adapterOf s.lat.alpha s.lat.scr

/-- BPC (R140). -/
def bpcOf (a : Adapter) : Nat :=
  match a with
  | .raw => 16
  | .utf16 | .scr15 => 15
  | .base64 | .uriSafe => 6

/-- The first 62 entries of both 64-entry tables, and the two that are given (R145, R146). -/
def letterTable (e62 e63 : CodeUnit) (r : Nat) : CodeUnit :=
  if r < 26 then BitVec.ofNat 16 (0x41 + r)
  else if r < 52 then BitVec.ofNat 16 (0x61 + (r - 26))
  else if r < 62 then BitVec.ofNat 16 (0x30 + (r - 52))
  else if r = 62 then e62
  else e63

/-- B64[r] (R145). -/
def base64Table (r : Nat) : CodeUnit := letterTable 0x2B 0x2F r

/-- URI[r] (R146). -/
def uriTable (r : Nat) : CodeUnit := letterTable 0x2B 0x2D r

/-- MAP(r) = TABLE[r] + OFFSET (R141). -/
def mapSymbol (a : Adapter) (r : Symbol) : CodeUnit :=
  match a with
  | .raw => r
  | .utf16 | .scr15 => r + 32
  | .base64 => base64Table r.toNat
  | .uriSafe => uriTable r.toNat

/-- The index below 64 whose table entry is `u`, if there is one. -/
def tableIndex (table : Nat → CodeUnit) (u : CodeUnit) : Option Symbol :=
  ((List.range 64).find? fun r => table r == u).map (BitVec.ofNat 16)

/-- UNMAP of the two 15-bit adapters: the range 32 .. 32799, less 32 (R142). -/
def unbias (u : CodeUnit) : Option Symbol :=
  if 32 ≤ u.toNat ∧ u.toNat ≤ 32799 then some (u - 32) else none

/-- UNMAP(u); `none` where it raises BAD_SYMBOL (R142). -/
def unmapUnit (a : Adapter) (u : CodeUnit) : Option Symbol :=
  match a with
  | .raw => some u
  | .utf16 | .scr15 => unbias u
  | .base64 => tableIndex base64Table u
  | .uriSafe => tableIndex uriTable u

/-- The POST units for `m` mapped symbols (R140, R144 to R146). -/
def postUnits (a : Adapter) (m : Nat) : List CodeUnit :=
  match a with
  | .raw | .scr15 => []
  | .utf16 => [0x20]
  | .base64 => List.replicate ((4 - m % 4) % 4) 0x3D
  | .uriSafe => [0x2B]

end Sys2Proof.Machine
end

