-- ==== Sys2Proof/Machine/Operands.lean ====
section
/-! DEFINITION. Every operand form: a symbol of the input, a field of the bit stream, a token, the string a
REF names, a literal's unit, and the first unit of a string. -/

namespace Sys2Proof.Machine

/-- What NEXTSYM finds at a symbol index. -/
inductive Load where
  | symbol (r : Symbol)
  | badSymbol
  | unwritten (i : Nat)
  | missing (i : Nat)
  deriving DecidableEq, Repr

/-- UNMAP(IN_BUF[i]) (R85, R142, R184); a unit never written has no value (log 7). -/
def loadInput (a : Adapter) (m : Memory) (i : Nat) : Load :=
  match Memory.read m i with
  | none => .unwritten i
  | some u =>
    match unmapUnit a u with
    | none => .badSymbol
    | some r => .symbol r

/-- NEXTSYM(i) (R85): UNMAP(IN_BUF[i]) on the plain path, SYM[i] on the scrambled one. -/
def State.nextSym (s : State) (i : Nat) : Load :=
  if s.lat.scr then
    match s.pack.sym[i]? with
    | some r => .symbol r
    | none => .missing i
  else loadInput s.adapter s.inBuf i

/-- Take the bit under the mask and halve the mask (R86). -/
def Reader.shiftBit (r : Reader) : Eff Reader Bool :=
  .ok (r.rval &&& r.rmask != 0) { r with rmask := r.rmask >>> 1 }

/-- UNPACKBIT (R86): refill on demand; TRUNCATED is tested first. On a raise the reader is unchanged. -/
def Reader.unpackBit (bpc nL : Nat) (src : Nat → Load) (r : Reader) : Eff Reader Bool :=
  if r.rmask = 0 then
    if nL ≤ r.ridx then .raise .truncated r
    else
      match src r.ridx with
      | .symbol v => Reader.shiftBit { rval := v, rmask := 1 <<< (bpc - 1), ridx := r.ridx + 1 }
      | .badSymbol => .raise .badSymbol r
      | .unwritten i => .refused (.unwrittenInput i)
      | .missing i => .fault (.missingSymbol i)
  else Reader.shiftBit r

/-- UNPACK(width) (R87): the bits accumulate onto `v`, first bit most significant; width 0 does nothing (R82). -/
def Reader.unpack (bpc nL : Nat) (src : Nat → Load) : Nat → Nat → Reader → Eff Reader Nat
  | 0, v, r => .ok v r
  | w + 1, v, r => (Reader.unpackBit bpc nL src r).bind fun b r => Reader.unpack bpc nL src w (2 * v + b.toNat) r

/-- UNPACK(width) of the running command. -/
def State.unpack (s : State) (width : Nat) : Eff State Nat :=
  (Reader.unpack (bpcOf s.adapter) s.lat.nL s.nextSym width 0 s.read).lift fun r => { s with read := r }

/-- Fetch the first token (R121 up to its raise): a 2-bit prefix, then the literal it announces. -/
def State.fetchFirst (s : State) : Eff State Instr :=
  (s.unpack 2).bind fun p s =>
    match firstLiteralWidth p with
    | none => .raise .badFirst s
    | some w => (s.unpack w).bind fun v s => .ok (firstToken p v) s

/-- Fetch a later token (R122, and the literal reads of R123 and R124): CC gets the code. -/
def State.fetchLater (s : State) : Eff State Instr :=
  (s.unpack s.codec.numBits).bind fun code s =>
    let s := { s with dec := { s.dec with cc := code } }
    match literalWidth code with
    | none => .ok (laterToken code 0) s
    | some w => (s.unpack w).bind fun v s => .ok (laterToken code v) s

/-- The code unit an 8-bit literal stands for: zero-extended (R68). -/
def literal8 (v : BitVec 8) : CodeUnit := v.setWidth 16

/-- The code unit a 16-bit literal stands for (R68). -/
def literal16 (v : BitVec 16) : CodeUnit := v

/-- `<s[0]>`, the first unit of a string as a string; there is none in the empty one (R126, R127; log 18). -/
def firstUnit (s : Str) : Option Str :=
  match s with
  | [] => none
  | u :: _ => some [u]

/-- The string a REF's code names (R126): an entry, or `W ++ <W[0]>` for the code about to be assigned
(KwKwK), or BAD_CODE. -/
def State.resolveRef (s : State) (k : Nat) : Eff State Str :=
  if k < s.codec.dictSize then
    match s.dec.dlist[k]? with
    | some e => .ok e s
    | none => .fault (.missingEntry k)
  else if k = s.codec.dictSize then
    match firstUnit s.codec.w with
    | some u => .ok (s.codec.w ++ u) s
    | none => .fault .emptyString
  else .raise .badCode s

end Sys2Proof.Machine
end

