-- ==== Sys2Proof/Machine/Commands.lean ====
section
/-! DEFINITION. The meanings of the four host commands: the start step (45_host_commands.md R180 to R187), and
the OUTPUT step that ends them (R147). The passes between are the engine's steps. -/

namespace Sys2Proof.Machine

/-- The operation is a scrambled one (R20: OP_L >= 2). -/
def isScrambled (op : Op) : Bool :=
  match op with
  | .compress | .decompress => false
  | .compressScrambled | .decompressScrambled => true

/-- The operation ends by mapping SYM rather than copying RES (R147). -/
def isCompress (op : Op) : Bool :=
  match op with
  | .compress | .compressScrambled => true
  | .decompress | .decompressScrambled => false

/-- The first three lines of the start step (R180): CMD, the latched fields, BUSY and a cleared report.
SCR_L is latched later, after the tests. -/
def State.latchCommand (cmd : Byte) (op : Op) (alpha : Alphabet) (s : State) : State :=
  State.clearReport { s with
    regs := { s.regs with cmd := cmd }
    lat := { s.lat with op := op, alpha := alpha, nL := s.regs.inLen, kL := s.regs.nkeys } }

/-- Every working register R25 gives a command-start value gets it; C, CC, ENTRY, SSTATE, SINC and SBLK are
written by the step that first uses them (R25; log 11). -/
def State.initWorking (s : State) : State :=
  { s with
    codec := { Codec.start with c := s.codec.c }
    pack := Packer.start
    read := Reader.start
    dec := { Decoder.start with cc := s.dec.cc, entry := s.dec.entry }
    scr := { s.scr with skey := 0 } }

/-- The command's first phase (R181 to R184, R190). -/
def firstPhase (op : Op) (scr : Bool) : Phase :=
  match op with
  | .compress | .compressScrambled => .encode
  | .decompress => .decodeFirst
  | .decompressScrambled => if scr then .unscramble else .decodeFirst

/-- SCR_L at start (R180): a scrambled operation with at least one key. -/
def scrAtStart (op : Op) (kL : Nat) : Bool := isScrambled op && decide (1 ≤ kL)

/-- The start step's capacity test (R180). -/
def State.beyondCapacity (op : Op) (s : State) : Bool :=
  exceeds s.lat.nL s.cfg.inMax || (isScrambled op && exceeds s.lat.kL s.cfg.nkeysMax)

/-- The start step (R180) of a legal command word: the capacity test, SCR_L, the working registers, then
EMPTY (R185) or the first phase. -/
def startCommand (op : Op) (alpha : Alphabet) (s : State) : State :=
  let s := s.latchCommand (commandWord op alpha) op alpha
  if s.beyondCapacity op then s.raise .capacity
  else
    let s := State.initWorking { s with lat := { s.lat with scr := scrAtStart op s.lat.kL } }
    if s.lat.nL = 0 then s.endOk
    else { s with phase := firstPhase op s.lat.scr }

/-- The start step of an illegal command word (R180, R187): latched, then ILLEGAL_CMD; no unit runs. -/
def illegalCommand (c : Byte) (s : State) : State :=
  (s.latchCommand c (opOf (opField c)) (alphaOf (alphaField c))).raise .illegalCmd

/-- COMPRESS alpha (R181): the start step. -/
def execCompress (alpha : Alphabet) (s : State) : Host.Outcome State Fault Refusal :=
  .next (startCommand .compress alpha s)

/-- DECOMPRESS alpha (R182): the start step. -/
def execDecompress (alpha : Alphabet) (s : State) : Host.Outcome State Fault Refusal :=
  .next (startCommand .decompress alpha s)

/-- COMPRESS_SCRAMBLED (R183): the start step; with no key it is COMPRESS RAW's path. -/
def execCompressScrambled (s : State) : Host.Outcome State Fault Refusal :=
  .next (startCommand .compressScrambled .raw s)

/-- DECOMPRESS_SCRAMBLED (R184): the start step; with no key it is DECOMPRESS RAW's path. -/
def execDecompressScrambled (s : State) : Host.Outcome State Fault Refusal :=
  .next (startCommand .decompressScrambled .raw s)

/-- The units OUTPUT copies (R147): the mapped symbols and POST, or RES. -/
def State.outputUnits (s : State) : List CodeUnit :=
  if isCompress s.lat.op then
    s.pack.sym.map (mapSymbol s.adapter) ++ postUnits s.adapter s.pack.sym.length
  else s.dec.res

/-- The step of PHASE OUTPUT (R147), ended by END_OK (R186). A compress command tests OUT_MAX before the
first write (R204); a decompress command has tested RES as it grew (R121, R127). -/
def State.outputMove (s : State) : Eff State Unit :=
  if isCompress s.lat.op && exceeds s.outputUnits.length s.cfg.outMax then .raise .capacity s
  else
    .ok () (State.endOk { s with
      outBuf := Memory.writeFrom s.outBuf 0 s.outputUnits
      regs := { s.regs with outLen := s.outputUnits.length } })

end Sys2Proof.Machine
end

