-- ==== Sys2Proof/Machine/Tokens.lean ====
section
/-! DEFINITION. The meanings of the six tokens (42_decoder.md). -/

namespace Sys2Proof.Machine

/-- A token's literal unit becomes the next dictionary entry: append(DLIST, <v>), DICTSIZE + 1 (R121, R123, R124). -/
def State.appendEntry (s : State) (e : Str) : State :=
  { s with
    dec := { s.dec with dlist := s.dec.dlist ++ [e] }
    codec := { s.codec with dictSize := s.codec.dictSize + 1 } }

/-- DEC_FIRST after its fetch (R121): the entry, two TICKs, W and RES, and PHASE DECODE. -/
def State.firstLiteral (s : State) (v : CodeUnit) : Eff State Unit :=
  if exceeds (s.codec.dictSize + 1) s.cfg.dictMax || exceeds 1 s.cfg.outMax then .raise .capacity s
  else
    let s := s.appendEntry [v]
    .ok () { s with
      codec := { s.codec.tick.tick with w := [v] }
      dec := { s.dec with res := [v] }
      phase := .decode }

/-- The common tail of LIT8, LIT16 and REF (R127), ENTRY resolved: RES grows, `W ++ <ENTRY[0]>` is
registered, then one TICK, then W <- ENTRY. -/
def State.commonTail (s : State) : Eff State Unit :=
  if exceeds (s.dec.res.length + s.dec.entry.length) s.cfg.outMax then .raise .capacity s
  else
    let s := { s with dec := { s.dec with res := s.dec.res ++ s.dec.entry } }
    match firstUnit s.dec.entry with
    | none => .fault .emptyString
    | some u =>
      if exceeds (s.codec.dictSize + 1) s.cfg.dictMax then .raise .capacity s
      else
        let s := s.appendEntry (s.codec.w ++ u)
        .ok () { s with codec := { s.codec.tick with w := s.dec.entry } }

/-- LIT8 and LIT16 after their fetch (R123, R124): the entry, CC its code, the literal's own TICK,
ENTRY = <v> (log 22), then the common tail. -/
def State.literal (s : State) (v : CodeUnit) : Eff State Unit :=
  if exceeds (s.codec.dictSize + 1) s.cfg.dictMax then .raise .capacity s
  else
    let s := s.appendEntry [v]
    State.commonTail { s with
      codec := s.codec.tick
      dec := { s.dec with cc := s.codec.dictSize - 1, entry := [v] } }

/-- REF k after its fetch (R126), then the common tail. -/
def State.reference (s : State) (k : Nat) : Eff State Unit :=
  (s.resolveRef k).bind fun e s => State.commonTail { s with dec := { s.dec with entry := e } }

/-- FIRST_LIT8 v (R63, R121). -/
def execFirstLit8 (v : BitVec 8) (s : State) : Host.Outcome State Fault Refusal :=
  (s.firstLiteral (literal8 v)).outcome

/-- FIRST_LIT16 v (R63, R121). -/
def execFirstLit16 (v : BitVec 16) (s : State) : Host.Outcome State Fault Refusal :=
  (s.firstLiteral (literal16 v)).outcome

/-- LIT8 v (R64, R123, R127). -/
def execLit8 (v : BitVec 8) (s : State) : Host.Outcome State Fault Refusal :=
  (s.literal (literal8 v)).outcome

/-- LIT16 v (R65, R124, R127). -/
def execLit16 (v : BitVec 16) (s : State) : Host.Outcome State Fault Refusal :=
  (s.literal (literal16 v)).outcome

/-- EOS (R66, R125): the pass ends; no TICK, no dictionary change. -/
def execEos (s : State) : Host.Outcome State Fault Refusal :=
  .next { s with phase := .output }

/-- REF k (R67, R126, R127). -/
def execRef (k : Nat) (s : State) : Host.Outcome State Fault Refusal :=
  (s.reference k).outcome

end Sys2Proof.Machine
end

