-- ==== Sys2Proof/Machine/Dispatch.lean ====
section
/-! DEFINITION. The meaning of each instruction, one arm a constructor. -/

namespace Sys2Proof.Machine

def exec (i : Instr) (s : State) : Host.Outcome State Fault Refusal :=
  match i with
  | .compress alpha => Sys2Proof.Machine.execCompress alpha s
  | .decompress alpha => Sys2Proof.Machine.execDecompress alpha s
  | .compressScrambled => Sys2Proof.Machine.execCompressScrambled s
  | .decompressScrambled => Sys2Proof.Machine.execDecompressScrambled s
  | .firstLit8 v => Sys2Proof.Machine.execFirstLit8 v s
  | .firstLit16 v => Sys2Proof.Machine.execFirstLit16 v s
  | .lit8 v => Sys2Proof.Machine.execLit8 v s
  | .lit16 v => Sys2Proof.Machine.execLit16 v s
  | .eos => Sys2Proof.Machine.execEos s
  | .ref k => Sys2Proof.Machine.execRef k s

end Sys2Proof.Machine
end

