-- ==== Sys2Proof/Machine/Encoder.lean ====
section
/-! DEFINITION. The dictionary encoder: ENC_STEP, EMIT, ENC_FINISH (41_encoder.md). -/

namespace Sys2Proof.Machine

/-- Pack an instruction's fields at the current NUMBITS (R62, R81). -/
def State.packToken (s : State) (i : Instr) : Eff State Unit :=
  (Packer.packFields (bpcOf s.adapter) s.cfg.outMax (encodeFields s.codec.numBits i) s.pack).lift
    fun p => { s with pack := p }

/-- The literal token of a unit: 8 bits below 256, else 16 (R106). -/
def literalToken (v : CodeUnit) : Instr :=
  if v.toNat < 256 then .lit8 (v.setWidth 8) else .lit16 v

/-- EMIT(W) (R106): a literal with two TICKs for a pending string, which then is pending no more; else a
back-reference with one (R105). -/
def State.emit (s : State) : Eff State Unit :=
  match pendingUnit s.codec.w s.codec.pend with
  | some v =>
    (s.packToken (literalToken v)).bind fun _ s =>
      let c := s.codec.tick
      .ok () { s with codec := { c with pend := clearPending v c.pend }.tick }
  | none =>
    match dictLookup s.codec.dict s.codec.w with
    | none => .fault .missingCode
    | some k =>
      (s.packToken (.ref k)).bind fun _ s => .ok () { s with codec := s.codec.tick }

/-- Insert a string with the next code, unless DICT_MAX is reached (R101, R103). -/
def State.insertEntry (s : State) (t : Str) : Eff State Unit :=
  if exceeds (s.codec.dictSize + 1) s.cfg.dictMax then .raise .capacity s
  else .ok () { s with codec := s.codec.insert t }

/-- ENC_STEP part 1 (R101): a unit seen for the first time gets a code and its PEND flag. -/
def State.insertUnit (s : State) (u : CodeUnit) : Eff State Unit :=
  match dictLookup s.codec.dict [u] with
  | some _ => .ok () s
  | none =>
    (s.insertEntry [u]).bind fun _ s =>
      .ok () { s with codec := { s.codec with pend := setPending u s.codec.pend } }

/-- ENC_STEP parts 2 and 3 (R102, R103): extend the match, or emit W, insert WC and start again at C. -/
def State.extendOrEmit (s : State) (u : CodeUnit) : Eff State Unit :=
  let wc := s.codec.w ++ [u]
  match dictLookup s.codec.dict wc with
  | some _ => .ok () { s with codec := { s.codec with w := wc } }
  | none =>
    s.emit.bind fun _ s =>
      (s.insertEntry wc).bind fun _ s => .ok () { s with codec := { s.codec with w := [u] } }

/-- IDX <- IDX + 1 (R100, R191). -/
def State.advanceIdx (s : State) : State :=
  { s with codec := { s.codec with idx := s.codec.idx + 1 } }

/-- One turn of the ENCODE loop (R100): C <- IN_BUF[IDX] ; ENC_STEP ; IDX <- IDX + 1. -/
def State.encStep (s : State) : Eff State Unit :=
  match Memory.read s.inBuf s.codec.idx with
  | none => .refused (.unwrittenInput s.codec.idx)
  | some u =>
    let s := { s with codec := { s.codec with c := u } }
    (s.insertUnit u).bind fun _ s => (s.extendOrEmit u).bind fun _ s => .ok () s.advanceIdx

/-- ENC_FINISH (R107), then the phase that follows ENCODE (R181, R183, R190). -/
def State.encFinish (s : State) : Eff State Unit :=
  s.emit.bind fun _ s =>
    (s.packToken .eos).bind fun _ s =>
      ((Packer.flush (bpcOf s.adapter) s.cfg.outMax s.pack).lift fun p => { s with pack := p }).bind fun _ s =>
        .ok () { s with phase := if s.lat.scr then .scramble else .output }

/-- The step of PHASE ENCODE. -/
def State.encodeMove (s : State) : Eff State Unit :=
  if s.codec.idx < s.lat.nL then s.encStep else s.encFinish

end Sys2Proof.Machine
end

