-- ==== Sys2Proof/Machine/HostPort.lean ====
section
/-! DEFINITION. The host's accesses and the RESET input (R10, R11, R44, R46, R49, R50, R230), and whose turn
it is. -/

namespace Sys2Proof.Machine

/-- RESET (R230): the state right after reset. What is outside the block stays: the turns still to come,
the values already returned, the draws made, the instance (log 15). -/
def State.resetBlock (s : State) : State :=
  { State.reset with host := s.host, seen := s.seen, draws := s.draws, cfg := s.cfg }

/-- A host write while STATE is not BUSY (R11, R46). Numbers and indexes outside the capacities, read-only
and reserved registers: dropped (log 13, log 14). -/
def State.acceptWrite (s : State) (w : HostWrite) : State :=
  match w with
  | .inLen n => { s with regs := { s.regs with inLen := n } }
  | .nkeys n => { s with regs := { s.regs with nkeys := n } }
  | .key i k => if within i s.cfg.nkeysMax then { s with keys := KeyFile.write s.keys i k } else s
  | .inBuf i u => if within i s.cfg.inMax then { s with inBuf := Memory.write s.inBuf i u } else s
  | .outBuf i u => if within i s.cfg.outMax then { s with outBuf := Memory.write s.outBuf i u } else s
  | .inert _ => s

/-- A host write (R50): dropped while BUSY. -/
def State.hostWrite (s : State) (w : HostWrite) : State :=
  if s.regs.status = .busy then s else s.acceptWrite w

/-- The block returns `v` to the host. A read changes nothing else (R44). -/
def State.reply (s : State) (v : HostValue) : State := { s with seen := s.seen ++ [v] }

/-- The block returns the next free value (log 9). -/
def State.replyFree (s : State) (v : Nat → HostValue) : State :=
  { s.reply (v s.draws) with draws := s.draws + 1 }

/-- A result register: free while BUSY (R49 d). -/
def State.replyResult (s : State) (v : HostValue) (free : Nat → HostValue) : State :=
  if s.regs.status = .busy then s.replyFree free else s.reply v

/-- A read of register number `n` (R11). -/
def State.readReg (s : State) (n : Nat) : State :=
  match n with
  | 0 => s.reply (.byte s.regs.cmd)
  | 1 => s.reply (.byte (statusByte s.regs.status))
  | 2 => s.replyResult (.byte (causeCode s.regs.errCode)) fun d => .byte (Config.freeByte d)
  | 3 => s.replyResult (.len s.regs.errIdx) fun d => .len (Config.freeLen d)
  | 4 => s.reply (.len s.regs.inLen)
  | 5 => s.replyResult (.len s.regs.outLen) fun d => .len (Config.freeLen d)
  | 6 => s.reply (.len s.regs.nkeys)
  | n =>
    if n < 16 then s.reply (.len 0)
    else if within (n - 16) s.cfg.nkeysMax then s.reply (.key (KeyFile.read s.keys (n - 16)))
    else s.replyFree fun d => .key (Config.freeKey d)

/-- A read of one unit of a buffer of capacity `cap`: free beyond the capacity, and where nothing was
written since reset (R46, U5, U8). -/
def State.readUnit (s : State) (m : Memory) (cap : Option Nat) (i : Nat) : State :=
  match within i cap, Memory.read m i with
  | true, some u => s.reply (.unit u)
  | _, _ => s.replyFree fun d => .unit (Config.freeUnit d)

/-- A host read (R44, R46, R49 d). -/
def State.hostRead (s : State) (r : HostRead) : State :=
  match r with
  | .reg n => s.readReg n
  | .inBuf i => s.readUnit s.inBuf s.cfg.inMax i
  | .outBuf i =>
    if s.regs.status = .busy then s.replyFree fun d => .unit (Config.freeUnit d)
    else s.readUnit s.outBuf s.cfg.outMax i

/-- Who moves, on which state: an accepted CMD write, anything else of the host's (already done), or the
engine. -/
inductive Turn where
  | command (c : Byte) (s : State)
  | host (s : State)
  | engine (s : State)
  deriving DecidableEq, Repr

/-- The next turn (log 2). A CMD write while BUSY is dropped (R50). `poll` reads STATUS and stays at the head
while it reads BUSY, the engine moving meanwhile (R231). With no turn left the engine moves. -/
def State.nextTurn (s : State) : Turn :=
  match s.host with
  | [] => .engine s
  | .engine :: rest => .engine { s with host := rest }
  | .poll :: rest =>
    if s.regs.status = .busy then .engine s
    else .host (State.reply { s with host := rest } (.byte (statusByte s.regs.status)))
  | .reset :: rest => .host (State.resetBlock { s with host := rest })
  | .read r :: rest => .host (State.hostRead { s with host := rest } r)
  | .write w :: rest => .host (State.hostWrite { s with host := rest } w)
  | .writeCmd c :: rest =>
    if s.regs.status = .busy then .host { s with host := rest } else .command c { s with host := rest }

end Sys2Proof.Machine
end

