-- ==== Sys2Proof/Machine/Scramble.lean ====
section
/-! DEFINITION. The keystream scrambler and its inverse (44_scrambler.md). -/

namespace Sys2Proof.Machine

/-- The default MIX: the SplitMix64 output function (R161). -/
def splitMix64 (z : Word64) : Word64 :=
  let z := (z ^^^ (z >>> 30)) * 0xBF58476D1CE4E5B9
  let z := (z ^^^ (z >>> 27)) * 0x94D049BB133111EB
  z ^^^ (z >>> 31)

/-- MIX of the instance (R161; log 4). -/
def mixFn (m : MixChoice) (z : Word64) : Word64 :=
  match m with
  | .splitMix64 => splitMix64 z
  | .identity => z
  | .parameter n => Config.openMix n z

/-- GOLDEN, zero-extended (R6, R163). -/
def golden : Word64 := 0x000000009E3779B9

/-- SLICE(ks, j): bits [15j+14 : 15j] (R162). -/
def sliceOf (ks : Word64) (j : Nat) : Symbol := ((ks >>> (15 * j)) &&& 0x7FFF).setWidth 16

/-- KEYSETUP's increment: MIX((k *64 k) ^ GOLDEN ^ ~k) | 1 (R163). -/
def keyIncrement (m : MixChoice) (k : Word64) : Word64 := mixFn m ((k * k) ^^^ golden ^^^ ~~~k) ||| 1

/-- XOR slices 0 .. `count`-1 of a keystream word into the symbols from `base` on (R164, R165, R167). -/
def xorSlices (ks : Word64) (base : Nat) : Nat → List Symbol → List Symbol
  | 0, sym => sym
  | j + 1, sym => (xorSlices ks base j sym).modify (base + j) (· ^^^ sliceOf ks j)

/-- The forward walk over blocks `b`, `b + 1`, …, `b + n - 1`: advance, mix, XOR (R164; SBLK is log 20). -/
def scrambleBlocks (m : MixChoice) : Nat → Nat → Scrambler → List Symbol → Scrambler × List Symbol
  | 0, _, x, sym => (x, sym)
  | n + 1, b, x, sym =>
    let x := { x with sstate := x.sstate + x.sinc, sblk := b }
    scrambleBlocks m n (b + 1) x (xorSlices (mixFn m x.sstate) (4 * b) 4 sym)

/-- The backward walk over blocks `n` - 1, …, 0: step back, mix, XOR (R167; SBLK is log 20). -/
def unscrambleBlocks (m : MixChoice) : Nat → Scrambler → List Symbol → Scrambler × List Symbol
  | 0, x, sym => (x, sym)
  | b + 1, x, sym =>
    let x := { x with sstate := x.sstate - x.sinc, sblk := b }
    unscrambleBlocks m b x (xorSlices (mixFn m x.sstate) (4 * b) 4 sym)

/-- KEYSETUP(k) (R163). -/
def Scrambler.keySetup (m : MixChoice) (k : Word64) (x : Scrambler) : Scrambler :=
  { x with sstate := mixFn m k, sinc := keyIncrement m k }

/-- SCRAMBLE_PASS(k) (R164), with its TAIL (R165). -/
def scramblePass (m : MixChoice) (k : Word64) (x : Scrambler) (sym : List Symbol) : Scrambler × List Symbol :=
  let blocks := sym.length / 4
  let (x, sym) := scrambleBlocks m blocks 0 (x.keySetup m k) sym
  let x := { x with sstate := x.sstate + x.sinc }
  (x, xorSlices (mixFn m x.sstate) (4 * blocks) (sym.length % 4) sym)

/-- UNSCRAMBLE_PASS(k) (R167): the tail first, from the state advanced (1 + B) times, then the blocks backward. -/
def unscramblePass (m : MixChoice) (k : Word64) (x : Scrambler) (sym : List Symbol) : Scrambler × List Symbol :=
  let blocks := sym.length / 4
  let x := x.keySetup m k
  let x := { x with sstate := x.sstate + BitVec.ofNat 64 (1 + blocks) * x.sinc }
  unscrambleBlocks m blocks x (xorSlices (mixFn m x.sstate) (4 * blocks) (sym.length % 4) sym)

/-- The step of PHASE SCRAMBLE (R166, R190): the pass of KEY[SKEY]; after the last key, OUTPUT. -/
def State.scrambleMove (s : State) : State :=
  let (x, sym) := scramblePass s.cfg.mix (KeyFile.read s.keys s.scr.skey) s.scr s.pack.sym
  { s with
    pack := { s.pack with sym := sym }
    scr := { x with skey := s.scr.skey + 1 }
    phase := if s.scr.skey + 1 < s.lat.kL then .scramble else .output }

/-- One key's pass of PHASE UNSCRAMBLE (R168, R190): the pass of KEY[SKEY]; after key 0, DECODE_FIRST (SKEY is log 20). -/
def State.unscrambleKey (s : State) : State :=
  let (x, sym) := unscramblePass s.cfg.mix (KeyFile.read s.keys s.scr.skey) s.scr s.pack.sym
  { s with
    pack := { s.pack with sym := sym }
    scr := { x with skey := s.scr.skey - 1 }
    phase := if s.scr.skey = 0 then .decodeFirst else .unscramble }

/-- One unit of the up-front conversion (R184): SYM[RIDX] <- UNMAP(IN_BUF[RIDX]). After the last unit RIDX
returns to 0 and SKEY goes to the last key. -/
def State.convertUnit (s : State) : Eff State Unit :=
  match loadInput s.adapter s.inBuf s.read.ridx with
  | .unwritten i => .refused (.unwrittenInput i)
  | .missing i => .fault (.missingSymbol i)
  | .badSymbol => .raise .badSymbol s
  | .symbol r =>
    let s := { s with pack := { s.pack with sym := s.pack.sym ++ [r] } }
    if s.pack.sym.length < s.lat.nL then .ok () { s with read := { s.read with ridx := s.read.ridx + 1 } }
    else .ok () { s with read := { s.read with ridx := 0 }, scr := { s.scr with skey := s.lat.kL - 1 } }

/-- The step of PHASE UNSCRAMBLE (R184): convert while SYM is short of N_L symbols, then descramble. -/
def State.unscrambleMove (s : State) : Eff State Unit :=
  if s.pack.sym.length < s.lat.nL then s.convertUnit else .ok () s.unscrambleKey

end Sys2Proof.Machine
end

