-- ==== Sys2Proof/Machine/Engine.lean ====
section
/-! DEFINITION. What the engine does next, by PHASE (R12, R190), and where a table word is placed for it. -/

namespace Sys2Proof.Machine

/-- The engine's next move: a fetched token to execute, or the outcome of a step of its own. -/
inductive Move where
  | token (i : Instr) (s : State)
  | outcome (o : Host.Outcome State Fault Refusal)

/-- A fetch as a move: the token to execute, or the raise, fault or refusal the fetch met. -/
def Eff.move (x : Eff State Instr) : Move :=
  match x with
  | .ok i s => .token i s
  | .raise c s => .outcome (.next (s.raise c))
  | .fault f => .outcome (.fault f)
  | .refused r => .outcome (.refused r)

/-- The engine's move (R190). In IDLE and FINISHED it does nothing (R230). -/
def State.engineMove (s : State) : Move :=
  match s.phase with
  | .idle => .outcome (.next s)
  | .finished => .outcome (.next s)
  | .encode => .outcome s.encodeMove.outcome
  | .scramble => .outcome (.next s.scrambleMove)
  | .unscramble => .outcome s.unscrambleMove.outcome
  | .decodeFirst => s.fetchFirst.move
  | .decode => s.fetchLater.move
  | .output => .outcome s.outputMove.outcome

/-- A state whose next turn is the write of `c` to CMD, accepted (log 16). -/
def State.placeCommand (s : State) (c : Byte) : State :=
  { s with
    regs := { s.regs with status := if s.regs.status = .busy then .idle else s.regs.status }
    phase := if s.regs.status = .busy then .idle else s.phase
    host := .writeCmd c :: s.host }

/-- The two RAW symbols of a 32-bit stream. -/
def rawSymbols (width w : Nat) : List Symbol :=
  [BitVec.ofNat 16 ((w <<< (32 - width)) >>> 16), BitVec.ofNat 16 (w <<< (32 - width))]

/-- A state at the start of a DECOMPRESS RAW of a table row's bits, whose next turn is the engine's (log 16). -/
def State.placeStream (s : State) (width w : Nat) : State :=
  State.initWorking { s with
    regs := { s.regs with status := .busy }
    lat := { s.lat with op := .decompress, alpha := .raw, scr := false, nL := 2 }
    inBuf := Memory.writeFrom s.inBuf 0 (rawSymbols width w)
    phase := .decodeFirst
    host := .engine :: s.host }

/-- The same, after a first token FIRST_LIT8 0: NUMBITS = 3 (R69; log 16). -/
def State.afterFirstToken (s : State) : State :=
  { s with
    codec := { s.codec with dictSize := 4, numBits := 3, enlargeIn := 4, w := [0] }
    dec := { s.dec with dlist := placeholders ++ [[0]], res := [0] }
    phase := .decode }

/-- Place a table word where its row is fetched from. -/
def State.placeWord (s : State) (c : FetchContext) (width w : Nat) : State :=
  match c with
  | .command => s.placeCommand (BitVec.ofNat 8 w)
  | .first => s.placeStream width w
  | .later _ => (s.placeStream width w).afterFirstToken

end Sys2Proof.Machine
end

