-- ==== Sys2Proof/Machine/Step.lean ====
section
/-! DEFINITION. One step: the host's next turn, or the engine's next move (logs 1 and 2). -/

namespace Sys2Proof.Machine

/-- An accepted write of `c` to CMD (R180): the command it decodes to, or ILLEGAL_CMD (R187). -/
def commandStep (c : Byte) (s : State) : Host.Outcome State Fault Refusal :=
  match decodeCommand c with
  | some i => exec i s
  | none => .next (illegalCommand c s)

/-- One step of the engine: execute the token it fetched, or its own outcome. -/
def engineStep (s : State) : Host.Outcome State Fault Refusal :=
  match s.engineMove with
  | .token i t => exec i t
  | .outcome o => o

/-- One step of the block and its host. -/
def step (s : State) : Host.Outcome State Fault Refusal :=
  match s.nextTurn with
  | .command c t => commandStep c t
  | .host t => .next t
  | .engine t => engineStep t

/-- `s` with an opcode-table word where the very next step fetches and runs it (log 16); `s` itself where
the table has no row of `nbits` bits. -/
def State.withFetchWord (s : State) (nbits w : Nat) : State :=
  match tableRow nbits with
  | none => s
  | some (c, width) => s.placeWord c width w

end Sys2Proof.Machine
end

