-- ==== Sys2Proof/Safety.lean ====
section
/-! DEFINITION. The terms the statements use: the bits packed and still unread, the keystream of a key, the phases of a
running command, and the invariants of a run. -/

namespace Sys2Proof.Machine

/-! ### Runs -/

/-- A command is running in this phase (R12, R190). -/
def Phase.isRunning (p : Phase) : Bool :=
  match p with
  | .idle | .finished => false
  | .encode | .scramble | .output | .unscramble | .decodeFirst | .decode => true

/-- Every unit a command of this input length may read has been written (R239). -/
def State.InputWritten (s : State) (n : Nat) : Prop := ∀ i < n, s.inBuf.read i ≠ none

/-- No capacity of the instance is finite: the document's machine (R47, R211). -/
def State.Unbounded (s : State) : Prop :=
  s.cfg.inMax = none ∧ s.cfg.outMax = none ∧ s.cfg.nkeysMax = none ∧ s.cfg.dictMax = none

/-- The state `s`, not BUSY, with the host about to write `c` to CMD and nothing after. -/
def State.withCommand (s : State) (c : Byte) : State := { s with host := [.writeCmd c] }

/-- `k` steps of the block from `s`. -/
def State.run (s : State) (k : Nat) : Host.Outcome State Fault Refusal := Sys2Proof.core.run k s

/-- The next step is the engine's: no turn of the host is left, or the host lets it move, or waits while BUSY (log 2). -/
def State.EngineMoves (s : State) : Prop :=
  s.host = [] ∨ s.host.head? = some .engine ∨ (s.host.head? = some .poll ∧ s.regs.status = .busy)

/-- The word is no command (R61, R71, R187): bits [7:4] not 0, or OP >= 2 with ALPHA not 0. -/
def IllegalWord (c : Byte) : Prop := c.toNat / 16 ≠ 0 ∨ (2 ≤ c.toNat / 4 % 4 ∧ c.toNat % 4 ≠ 0)

/-- The start step's capacity test fails (R180): IN_LEN > IN_MAX, or a scrambled command's NKEYS > NKEYS_MAX. -/
def State.TooBig (s : State) (op : Op) : Prop :=
  (∃ m, s.cfg.inMax = some m ∧ m < s.regs.inLen) ∨
    (isScrambled op = true ∧ ∃ m, s.cfg.nkeysMax = some m ∧ m < s.regs.nkeys)

/-- The state the start step leaves when the command's body is about to run (R20, R25, R180): what R180 latches,
R25's values, STATE BUSY, PHASE `p`; all else as in `s`. -/
def State.started (s : State) (op : Op) (alpha : Alphabet) (scr : Bool) (p : Phase) : State :=
  { s with
    regs := { cmd := commandWord op alpha, status := .busy, errCode := .none, errIdx := 0,
              inLen := s.regs.inLen, outLen := 0, nkeys := s.regs.nkeys }
    phase := p
    lat := { op := op, alpha := alpha, scr := scr, nL := s.regs.inLen, kL := s.regs.nkeys }
    codec := { w := [], c := s.codec.c, dict := [], pend := [], dictSize := 3, numBits := 2, enlargeIn := 2, idx := 0 }
    pack := { pval := 0, ppos := 0, sym := [] }
    read := { rval := 0, rmask := 0, ridx := 0 }
    dec := { dlist := placeholders, cc := s.dec.cc, entry := s.dec.entry, res := [] }
    scr := { s.scr with skey := 0 } }

/-- The command ended in ERROR with this report, and OUT_LEN 0 (R203). -/
def State.EndedWith (t : State) (c : Cause) (idx : Nat) : Prop :=
  t.regs.status = .error ∧ t.regs.errCode = c ∧ t.regs.errIdx = idx ∧ t.regs.outLen = 0 ∧ t.phase = .finished

/-- Every store the host can see, and all that is not the engine's, is the same in both states. -/
def State.SameInputs (s t : State) : Prop :=
  t.keys = s.keys ∧ t.inBuf = s.inBuf ∧ t.regs.cmd = s.regs.cmd ∧ t.regs.inLen = s.regs.inLen ∧
    t.regs.nkeys = s.regs.nkeys ∧ t.cfg = s.cfg

/-! ### The bits the packer holds -/

/-- The bits packed so far, in stream order: those of the emitted symbols, then the PPOS bits of PVAL (R16, R41). -/
def Packer.bits (bpc : Nat) (p : Packer) : List Bool :=
  p.sym.flatMap (fun r => fieldBits r.toNat bpc) ++ fieldBits p.pval.toNat p.ppos

/-- The packer's own invariant (R16): PPOS < BPC and PVAL < 2^PPOS. -/
def Packer.Sound (bpc : Nat) (p : Packer) : Prop := p.ppos < bpc ∧ p.pval.toNat < 2 ^ p.ppos

/-- How many symbols are complete once `w` more bits are packed (R80, R83). -/
def Packer.symbolsAfter (bpc w : Nat) (p : Packer) : Nat := p.sym.length + (p.ppos + w) / bpc

/-- Packing `w` more bits completes a symbol that OUT_MAX = `cap` has no place for (R83). -/
def Packer.overflows (bpc : Nat) (cap : Option Nat) (w : Nat) (p : Packer) : Bool :=
  decide (bpc ≤ p.ppos + w) && exceeds (p.symbolsAfter bpc w) cap

/-! ### The token EMIT writes -/

/-- EMIT(W) writes `tok` (R106), W a key of DICT: the literal of a pending unit, 8 bits below 256 and 16 else; or the REF
of W's code. -/
def State.Emits (s : State) (tok : Instr) : Prop :=
  ∃ k, dictLookup s.codec.dict s.codec.w = some k ∧
    ((∃ v, s.codec.w = [v] ∧ v ∈ s.codec.pend ∧
        tok = if v.toNat < 256 then .lit8 (BitVec.ofNat 8 v.toNat) else .lit16 v) ∨
      ((¬∃ v, s.codec.w = [v] ∧ v ∈ s.codec.pend) ∧ tok = .ref k))

/-- How many TICKs the emission of a token has: two for a literal, one for a REF, none for EOS (R105). -/
def tokenTicks (tok : Instr) : Nat :=
  match tok with
  | .firstLit8 _ | .firstLit16 _ | .lit8 _ | .lit16 _ => 2
  | .ref _ => 1
  | .eos | .compress _ | .decompress _ | .compressScrambled | .decompressScrambled => 0

/-! ### The bit stream the decoder has still to read -/

/-- How many bits of RVAL are unread: RMASK's position (R17). -/
def Reader.bitsLeft (r : Reader) : Nat := if r.rmask = 0 then 0 else Nat.log2 r.rmask.toNat + 1

/-- The bits of the symbols from index `i` on, `n` of them, up to the first that cannot be loaded (R41, R85). -/
def streamFrom (bpc : Nat) (src : Nat → Load) : Nat → Nat → List Bool
  | 0, _ => []
  | n + 1, i =>
    match src i with
    | .symbol r => fieldBits r.toNat bpc ++ streamFrom bpc src n (i + 1)
    | _ => []

/-- The bits at the bit cursor (RIDX, RMASK), in stream order (R12, R41, R86). -/
def State.unreadBits (s : State) : List Bool :=
  fieldBits s.read.rval.toNat s.read.bitsLeft ++
    streamFrom (bpcOf s.adapter) s.nextSym (s.lat.nL - s.read.ridx) s.read.ridx

/-- RMASK is 0 or one bit of the symbol's BPC (R17). -/
def State.MaskLegal (s : State) : Prop :=
  s.read.rmask = 0 ∨ ∃ j < bpcOf s.adapter, s.read.rmask = BitVec.ofNat 16 (2 ^ j)

/-! ### The keystream (R169) -/

/-- KS(k, i): slice `i mod 4` of MIX(s0 +64 (floor(i / 4) + 1) *64 d), s0 = MIX(k), d the increment of k. -/
def keystream (m : MixChoice) (k : Word64) (i : Nat) : Symbol :=
  sliceOf (mixFn m (mixFn m k + BitVec.ofNat 64 (i / 4 + 1) * keyIncrement m k)) (i % 4)

/-- The symbols with the keystream of one key XORed in. -/
def maskSymbols (m : MixChoice) (k : Word64) (sym : List Symbol) : List Symbol :=
  sym.mapIdx fun i r => r ^^^ keystream m k i

/-! ### Invariants -/

/-- Every store is in its canonical form. -/
structure State.Canonical (s : State) : Prop where
  inBuf  : s.inBuf.wf
  outBuf : s.outBuf.wf
  keys   : s.keys.wf

/-- STATUS.STATE, PHASE and the error report agree (R12, R13, R23, R186, R201, R203). -/
structure State.Reported (s : State) : Prop where
  busy   : s.regs.status = .busy ↔ s.phase.isRunning = true
  idle   : s.regs.status = .idle ↔ s.phase = .idle
  cause  : s.regs.status = .error ↔ s.regs.errCode ≠ .none
  errIdx : s.regs.errCode.isFormatError = false → s.regs.errIdx = 0
  outLen : s.regs.status ≠ .done → s.regs.outLen = 0

/-- The width counter's registers (R15, R104): both counters in range, DICTSIZE past the control codes. -/
structure Codec.WidthsSound (c : Codec) : Prop where
  numBits : 2 ≤ c.numBits
  counter : 1 ≤ c.enlargeIn
  bound   : c.enlargeIn ≤ 2 ^ (c.numBits - 1)
  size    : 3 ≤ c.dictSize

/-- The latched configuration of a running command is one R20 and R190 allow. -/
structure State.LatchSound (s : State) : Prop where
  input   : 1 ≤ s.lat.nL
  scr     : s.lat.scr = scrAtStart s.lat.op s.lat.kL
  plain   : isScrambled s.lat.op = true → s.lat.alpha = .raw
  encodes : s.phase = .encode ∨ s.phase = .scramble → isCompress s.lat.op = true
  decodes : s.phase = .unscramble ∨ s.phase = .decodeFirst ∨ s.phase = .decode → isCompress s.lat.op = false
  keyed   : s.phase = .scramble ∨ s.phase = .unscramble → s.lat.scr = true

/-- The packer of a running command (R16): symbols have BPC bits; between ENCODE's steps PVAL < 2^PPOS and
PPOS < BPC. -/
structure State.PackerSound (s : State) : Prop where
  sym  : ∀ r ∈ s.pack.sym, r.toNat < 2 ^ bpcOf s.adapter
  ppos : s.phase = .encode → s.pack.ppos < bpcOf s.adapter
  pval : s.phase = .encode → s.pack.pval.toNat < 2 ^ s.pack.ppos

/-- The encoder's dictionary between ENC_STEPs (R14, R15, R109), and SKEY as ENCODE leaves it to SCRAMBLE (R25, R166). -/
structure State.EncoderSound (s : State) : Prop where
  idx     : s.codec.idx ≤ s.lat.nL
  size    : s.codec.dictSize = s.codec.dict.length + 3
  codes   : s.codec.dict.map Prod.snd = List.range' 3 s.codec.dict.length
  nodup   : (s.codec.dict.map Prod.fst).Nodup
  current : (s.codec.idx = 0 ∧ s.codec.w = []) ∨ (0 < s.codec.idx ∧ s.codec.w ∈ s.codec.dict.map Prod.fst)
  units   : ∀ t ∈ s.codec.dict.map Prod.fst, ∀ u ∈ t, [u] ∈ s.codec.dict.map Prod.fst
  closed  : ∀ t ∈ s.codec.dict.map Prod.fst, t ≠ [] ∧ (2 ≤ t.length → t.dropLast ∈ s.codec.dict.map Prod.fst)
  pending : ∀ u ∈ s.codec.pend, s.codec.w = [u]
  emitted : ∀ t ∈ s.codec.dict.map Prod.fst, 2 ≤ t.length → ∀ u ∈ s.codec.pend, t.head? ≠ some u
  skey    : s.scr.skey = 0

/-- The reader's cursor while tokens are fetched (R12, R17), and SYM behind it on the scrambled path (R184). -/
structure State.ReaderSound (s : State) : Prop where
  ridx : s.read.ridx ≤ s.lat.nL
  mask : s.MaskLegal
  sym  : s.lat.scr = true → s.pack.sym.length = s.lat.nL

/-- The decoder between tokens (R18, R121, R125, R126). -/
structure State.DecoderSound (s : State) : Prop where
  size    : s.dec.dlist.length = s.codec.dictSize
  entries : ∀ k e, 3 ≤ k → s.dec.dlist[k]? = some e → e ≠ []
  first   : s.phase = .decodeFirst → s.codec.dictSize = 3 ∧ s.codec.numBits = 2 ∧ s.codec.enlargeIn = 2
  later   : s.phase = .decode → 4 ≤ s.codec.dictSize ∧ 3 ≤ s.codec.numBits ∧ s.codec.w ≠ [] ∧ s.dec.res ≠ []

/-- The up-front conversion and the key walk of UNSCRAMBLE (R184). -/
structure State.UnscrambleSound (s : State) : Prop where
  short   : s.pack.sym.length ≤ s.lat.nL
  convert : s.pack.sym.length < s.lat.nL → s.read.ridx = s.pack.sym.length
  walk    : s.pack.sym.length = s.lat.nL → s.read.ridx = 0 ∧ s.scr.skey < s.lat.kL
  mask    : s.read.rmask = 0
  decoder : s.dec.dlist.length = 3 ∧ s.codec.dictSize = 3 ∧ s.codec.numBits = 2 ∧ s.codec.enlargeIn = 2

/-- What holds of the block between any two steps of a run. -/
structure State.Inv (s : State) : Prop where
  canonical  : s.Canonical
  reported   : s.Reported
  widths     : s.codec.WidthsSound
  increment  : s.scr.sinc.getLsbD 0 = true
  latch      : s.phase.isRunning = true → s.LatchSound
  packer     : s.phase.isRunning = true → s.PackerSound
  encoder    : s.phase = .encode → s.EncoderSound
  scramble   : s.phase = .scramble → s.scr.skey < s.lat.kL
  unscramble : s.phase = .unscramble → s.UnscrambleSound
  reader     : s.phase = .decodeFirst ∨ s.phase = .decode → s.ReaderSound
  decoder    : s.phase = .decodeFirst ∨ s.phase = .decode → s.DecoderSound
  result     : s.phase = .output → isCompress s.lat.op = false → s.dec.res ≠ []

end Sys2Proof.Machine
end

