-- ==== Sys2Proof/Certificates/Slice0/Obligations.lean ====
section
/-! DEFINITION. The statements for the provers. Each docstring names the rules it states; where a clause rests
on a choice of the model's, it says so and names the log entry. -/

open Sys2Proof Sys2Proof.Machine

/-! ### Encoding -/

/-- Decoding what the encoder wrote gives the instruction back, with every operand its encoding admits, and
leaves the rest of the stream (R61, R63 to R68). -/
def Obligations.DecodeInvertsEncode : Prop :=
  ∀ (c : FetchContext) (i : Instr) (rest : List Bool), i.wellFormed c = true →
    decode c (encode c i ++ rest) = .ok (i, rest)

/-- Bits that decode are exactly the encoding of what they decode to: no other bits stand for it there, and what
is decoded is well formed (R62 to R68). Format N places have NUMBITS >= 3 (R69). -/
def Obligations.DecodedBitsAreTheEncoding : Prop :=
  ∀ (c : FetchContext) (bits : List Bool) (i : Instr) (rest : List Bool), (∀ n, c = .later n → 3 ≤ n) →
    decode c bits = .ok (i, rest) → i.wellFormed c = true ∧ bits = encode c i ++ rest

/-- Words written out from R61 and R63 to R67 decode to the instruction they stand for. -/
def Obligations.SpecWordsDecode : Prop :=
  decodeCommand 0x01 = some (.compress .utf16) ∧ decodeCommand 0x07 = some (.decompress .uriSafe) ∧
    decodeCommand 0x08 = some .compressScrambled ∧ decodeCommand 0x0C = some .decompressScrambled ∧
    decode .first [false, false, false, true, true, false, false, false, false, true] = .ok (.firstLit8 0x61, []) ∧
    decode (.later 3) [false, false, false, false, true, true, false, false, false, true, false] =
      .ok (.lit8 0x62, []) ∧
    decode (.later 3) [false, true, false] = .ok (.eos, []) ∧
    decode (.later 4) [true, false, false, true] = .ok (.ref 9, [])

/-- A command word is none exactly when bits [7:4] are not 0, or OP >= 2 with ALPHA not 0 (R61, R71). -/
def Obligations.IllegalWordsExactly : Prop := ∀ c : Byte, decodeCommand c = none ↔ IllegalWord c

/-! ### Host commands -/

/-- A write of `c` to CMD while not BUSY is the start step of `c` at the state less the host's turn, and where `c` decodes
to an instruction that is executing it (R180; the host as turns is log 2). -/
def Obligations.StepRunsTheCommandWritten : Prop :=
  ∀ (s : State) (c : Byte) (rest : List HostTurn), s.host = .writeCmd c :: rest → s.regs.status ≠ .busy →
    step s = commandStep c { s with host := rest } ∧
      ∀ i, decodeCommand c = some i → step s = exec i { s with host := rest }

/-- The whole start step on a word written to CMD (R180): what it latches, the tests in their order, SCR_L, R25's values,
EMPTY or the command's first phase; and what it leaves as it was. -/
def Obligations.CommandStartStep : Prop :=
  ∀ (s : State) (c : Byte), s.regs.status ≠ .busy →
    ∃ t, commandStep c s = .next t ∧ t.host = s.host ∧
      t.regs.cmd = c ∧ t.lat.op = opOf (opField c) ∧ t.lat.alpha = alphaOf (alphaField c) ∧
      t.lat.nL = s.regs.inLen ∧ t.lat.kL = s.regs.nkeys ∧ t.regs.inLen = s.regs.inLen ∧
      t.regs.nkeys = s.regs.nkeys ∧ t.keys = s.keys ∧ t.inBuf = s.inBuf ∧ t.outBuf = s.outBuf ∧
      t.cfg = s.cfg ∧ t.seen = s.seen ∧ t.draws = s.draws ∧
      (IllegalWord c → t.EndedWith .illegalCmd 0) ∧
      (¬IllegalWord c → s.TooBig (opOf (opField c)) → t.EndedWith .capacity 0) ∧
      (¬IllegalWord c → ¬s.TooBig (opOf (opField c)) →
        t.regs.errCode = .none ∧ t.regs.errIdx = 0 ∧ t.regs.outLen = 0 ∧
        (t.lat.scr = true ↔ isScrambled (opOf (opField c)) = true ∧ 1 ≤ s.regs.nkeys) ∧
        t.codec.w = [] ∧ t.codec.dict = [] ∧ t.codec.pend = [] ∧ t.codec.dictSize = 3 ∧ t.codec.numBits = 2 ∧
        t.codec.enlargeIn = 2 ∧ t.codec.idx = 0 ∧ t.pack.pval = 0 ∧ t.pack.ppos = 0 ∧ t.pack.sym = [] ∧
        t.read.rval = 0 ∧ t.read.rmask = 0 ∧ t.read.ridx = 0 ∧ t.dec.dlist.length = 3 ∧ t.dec.res = [] ∧
        t.scr.skey = 0 ∧
        (s.regs.inLen = 0 → t.regs.status = .done ∧ t.phase = .finished) ∧
        (s.regs.inLen ≠ 0 → t.regs.status = .busy ∧
          t.phase =
            match opOf (opField c) with
            | .compress | .compressScrambled => .encode
            | .decompress => .decodeFirst
            | .decompressScrambled => if s.regs.nkeys = 0 then .decodeFirst else .unscramble))

/-- COMPRESS and DECOMPRESS complete their start step on every input that is not empty and within IN_MAX, and leave
exactly the started state (R25, R180, R181, R182). In it two things are the model's choice: C, CC, ENTRY, SSTATE, SINC and
SBLK, which R25 leaves unspecified, stay as they were (log 11), and the placeholders' contents (log 17). -/
def Obligations.PlainCommandsStart : Prop :=
  ∀ (a : Alphabet) (s : State), s.regs.inLen ≠ 0 →
    (¬s.TooBig .compress → exec (.compress a) s = .next (s.started .compress a false .encode)) ∧
    (¬s.TooBig .decompress → exec (.decompress a) s = .next (s.started .decompress a false .decodeFirst))

/-- The scrambled commands complete their start step: with keys SCR_L = 1 and the keyed path, without keys the
RAW path (R160, R180, R183, R184). In the started state two things are the model's choice: C, CC, ENTRY, SSTATE, SINC and
SBLK, which R25 leaves unspecified, stay as they were (log 11), and the placeholders' contents (log 17). -/
def Obligations.ScrambledCommandsStart : Prop :=
  ∀ s : State, s.regs.inLen ≠ 0 →
    (¬s.TooBig .compressScrambled →
      exec .compressScrambled s = .next (s.started .compressScrambled .raw (decide (1 ≤ s.regs.nkeys)) .encode)) ∧
    (¬s.TooBig .decompressScrambled → 1 ≤ s.regs.nkeys →
      exec .decompressScrambled s = .next (s.started .decompressScrambled .raw true .unscramble)) ∧
    (¬s.TooBig .decompressScrambled → s.regs.nkeys = 0 →
      exec .decompressScrambled s = .next (s.started .decompressScrambled .raw false .decodeFirst))

/-- EMPTY (R185, R210): with IN_LEN = 0 each of the four commands ends DONE at once with OUT_LEN = 0 and no error,
whatever the alphabet; OUT_BUF and every store stay as they were. The premise on NKEYS is R180's test, which comes first. -/
def Obligations.EmptyInputEndsDone : Prop :=
  ∀ (i : Instr) (op : Op) (a : Alphabet) (s : State), commandOf op a = some i → s.regs.inLen = 0 → ¬s.TooBig op →
    ∃ t, exec i s = .next t ∧ t.regs.status = .done ∧ t.regs.outLen = 0 ∧ t.regs.errCode = .none ∧
      t.regs.errIdx = 0 ∧ t.phase = .finished ∧ t.pack.sym = [] ∧ t.dec.res = [] ∧ t.keys = s.keys ∧
      t.inBuf = s.inBuf ∧ t.outBuf = s.outBuf ∧ t.host = s.host ∧ t.cfg = s.cfg ∧ t.seen = s.seen ∧ t.draws = s.draws

/-- An illegal word starts no unit (R187): ERROR, ILLEGAL_CMD, ERRIDX 0, OUT_LEN 0, CMD reads back the word; no
working register and no store changes. -/
def Obligations.IllegalCommandStartsNoUnit : Prop :=
  ∀ (s : State) (c : Byte) (rest : List HostTurn), s.host = .writeCmd c :: rest → s.regs.status ≠ .busy →
    IllegalWord c → ∃ t, step s = .next t ∧ t.EndedWith .illegalCmd 0 ∧ t.regs.cmd = c ∧
      t.regs.inLen = s.regs.inLen ∧ t.regs.nkeys = s.regs.nkeys ∧ t.keys = s.keys ∧ t.inBuf = s.inBuf ∧
      t.outBuf = s.outBuf ∧ t.codec = s.codec ∧ t.pack = s.pack ∧ t.read = s.read ∧ t.dec = s.dec ∧ t.scr = s.scr ∧
      t.host = rest ∧ t.seen = s.seen ∧ t.draws = s.draws ∧ t.cfg = s.cfg

/-! ### Host accesses and reset -/

/-- While BUSY every host write, CMD's among them, changes no state but takes the host's turn; and no step but
RESET changes an input of the command, what it latched, or starts another (R50; turns are log 2). -/
def Obligations.WritesWhileBusyAreDropped : Prop :=
  ∀ s : State, s.regs.status = .busy →
    (∀ w rest, s.host = .write w :: rest → step s = .next { s with host := rest }) ∧
    (∀ c rest, s.host = .writeCmd c :: rest → step s = .next { s with host := rest }) ∧
    (∀ t, step s = .next t → s.host.head? ≠ some .reset → s.SameInputs t ∧ t.lat = s.lat)

/-- Host writes while not BUSY (R11, R46): the location reads back what was written, every other location and
register is as before, and read-only or reserved registers, and numbers outside the capacities, drop the write.
(The drop at KEY numbers beyond NKEYS_MAX is the model's, log 13; the host's write of OUT_BUF is log 14.) -/
def Obligations.HostWritesReadBack : Prop :=
  ∀ (s : State) (w : HostWrite) (rest : List HostTurn), s.host = .write w :: rest → s.regs.status ≠ .busy →
    s.keys.wf → ∃ t, step s = .next t ∧
      match w with
      | .inLen n => t = { s with host := rest, regs := { s.regs with inLen := n } }
      | .nkeys n => t = { s with host := rest, regs := { s.regs with nkeys := n } }
      | .key i k =>
        (within i s.cfg.nkeysMax = false → t = { s with host := rest }) ∧
        (within i s.cfg.nkeysMax = true → t = { s with host := rest, keys := t.keys } ∧ t.keys.read i = k ∧
          ∀ j, j ≠ i → t.keys.read j = s.keys.read j)
      | .inBuf i u =>
        (within i s.cfg.inMax = false → t = { s with host := rest }) ∧
        (within i s.cfg.inMax = true → t = { s with host := rest, inBuf := t.inBuf } ∧ t.inBuf.read i = some u ∧
          ∀ j, j ≠ i → t.inBuf.read j = s.inBuf.read j)
      | .outBuf i u =>
        (within i s.cfg.outMax = false → t = { s with host := rest }) ∧
        (within i s.cfg.outMax = true → t = { s with host := rest, outBuf := t.outBuf } ∧
          t.outBuf.read i = some u ∧ ∀ j, j ≠ i → t.outBuf.read j = s.outBuf.read j)
      | .inert _ => t = { s with host := rest }

/-- Host reads of the register file (R11, R44, R201): in every state CMD, STATUS (STATE in [1:0]), IN_LEN, NKEYS, the
reserved numbers (0) and KEY[i] at number 16 + i; while not BUSY ERRCODE by R201's numbers, ERRIDX and OUT_LEN. While BUSY
these three return some value of their width, free (R49 d, U7; log 9). Nothing changes but what was returned. -/
def Obligations.HostReadsReturnTheRegister : Prop :=
  ∀ (s : State) (n : Nat) (rest : List HostTurn), s.host = .read (.reg n) :: rest →
    (n < 16 ∨ within (n - 16) s.cfg.nkeysMax = true) →
    ∃ v d, step s = .next { s with host := rest, seen := s.seen ++ [v], draws := d } ∧
      (n = 0 → v = .byte s.regs.cmd ∧ d = s.draws) ∧
      (n = 1 → d = s.draws ∧ ∃ b : Byte, v = .byte b ∧ b.toNat =
        match s.regs.status with
        | .idle => 0
        | .busy => 1
        | .done => 2
        | .error => 3) ∧
      (n = 2 → ∃ b : Byte, v = .byte b ∧ (s.regs.status ≠ .busy → d = s.draws ∧ b.toNat =
        match s.regs.errCode with
        | .none => 0
        | .badFirst => 1
        | .truncated => 2
        | .badCode => 3
        | .badSymbol => 4
        | .capacity => 5
        | .illegalCmd => 6)) ∧
      (n = 3 → ∃ m, v = .len m ∧ (s.regs.status ≠ .busy → d = s.draws ∧ m = s.regs.errIdx)) ∧
      (n = 4 → v = .len s.regs.inLen ∧ d = s.draws) ∧
      (n = 5 → ∃ m, v = .len m ∧ (s.regs.status ≠ .busy → d = s.draws ∧ m = s.regs.outLen)) ∧
      (n = 6 → v = .len s.regs.nkeys ∧ d = s.draws) ∧ (7 ≤ n → n ≤ 15 → v = .len 0 ∧ d = s.draws) ∧
      (16 ≤ n → v = .key (s.keys.read (n - 16)) ∧ d = s.draws)

/-- Host reads of one unit of a buffer (R46) return what it holds, and no read, of a register or a unit, in any state
of the block, changes anything but what was returned and the model's draws (R44; the free values are log 9). -/
def Obligations.ReadsChangeNothing : Prop :=
  ∀ (s : State) (r : HostRead) (rest : List HostTurn), s.host = .read r :: rest →
    ∃ v d, step s = .next { s with host := rest, seen := s.seen ++ [v], draws := d } ∧
      (∀ i u, r = .inBuf i → within i s.cfg.inMax = true → s.inBuf.read i = some u → v = .unit u ∧ d = s.draws) ∧
      (∀ i u, r = .outBuf i → s.regs.status ≠ .busy → within i s.cfg.outMax = true → s.outBuf.read i = some u →
        v = .unit u ∧ d = s.draws)

/-- RESET (R230) from any state, a running command's included: the host registers 0, STATE and PHASE IDLE, no
result; and then the engine does nothing until the host writes CMD. -/
def Obligations.ResetLeavesHostRegistersZero : Prop :=
  (∀ (s : State) (rest : List HostTurn), s.host = .reset :: rest → ∃ t, step s = .next t ∧
    t.regs = { cmd := 0, status := .idle, errCode := .none, errIdx := 0, inLen := 0, outLen := 0, nkeys := 0 } ∧
    t.phase = .idle ∧ t.host = rest) ∧
  (∀ s : State, s.phase = .idle → s.host = [] → step s = .next s)

/-! ### The encoder -/

/-- TICK (R104), from a counter that is at least 1: it counts down, and at zero is reset to 2^NUMBITS with NUMBITS as it
was, which then grows by one; nothing else changes. -/
def Obligations.TickCountsDown : Prop :=
  ∀ c : Codec,
    (c.enlargeIn = 1 → c.tick = { c with enlargeIn := 2 ^ c.numBits, numBits := c.numBits + 1 }) ∧
    (2 ≤ c.enlargeIn → c.tick = { c with enlargeIn := c.enlargeIn - 1 })

/-- After T TICKs from the start values, 2^(NUMBITS-1) <= T + 2 < 2^NUMBITS (so NUMBITS = bitlen(T + 2)) and
ENLARGEIN = 2^NUMBITS - 2 - T (R7, R104, R108 b). -/
def Obligations.TickClosedForm : Prop :=
  ∀ T : Nat, let c := Nat.iterate Codec.tick T Codec.start
    2 ^ (c.numBits - 1) ≤ T + 2 ∧ T + 2 < 2 ^ c.numBits ∧ c.enlargeIn = 2 ^ c.numBits - 2 - T ∧
      c.dictSize = 3 ∧ c.w = [] ∧ c.dict = []

/-- ENC_STEP where `W ++ <C>` is an entry (R102): W grows, nothing is emitted, no TICK; nothing is inserted for a known
unit, and a new unit of an empty W (the pass's first) gets the next code, is pending and is W (R101). (One ENC_STEP a step is log 1.) -/
def Obligations.EncoderExtendsTheMatch : Prop :=
  ∀ (s : State) (u : CodeUnit), s.phase = .encode → s.host = [] → s.codec.idx < s.lat.nL →
    s.inBuf.read s.codec.idx = some u →
    (∀ j k, dictLookup s.codec.dict [u] = some j → dictLookup s.codec.dict (s.codec.w ++ [u]) = some k →
      step s = .next { s with codec := { s.codec with c := u, w := s.codec.w ++ [u], idx := s.codec.idx + 1 } }) ∧
    (dictLookup s.codec.dict [u] = none → s.codec.w = [] → exceeds (s.codec.dictSize + 1) s.cfg.dictMax = false →
      step s = .next { s with codec := { s.codec with
        c := u, w := [u], idx := s.codec.idx + 1, dict := s.codec.dict ++ [([u], s.codec.dictSize)],
        dictSize := s.codec.dictSize + 1, pend := s.codec.pend ++ [u] } })

/-- ENC_STEP on a mismatch within the capacities (R101, R103, R105, R106): W's token is packed at the old NUMBITS; then
its TICKs; a new unit has got the next code and WC gets the one after. PEND loses W's unit and gains a new unit, and is
otherwise as it was; nothing else changes. (One ENC_STEP a step is log 1.) -/
def Obligations.EncoderEmitsOnMismatch : Prop :=
  ∀ (s : State) (u : CodeUnit) (tok : Instr), s.phase = .encode → s.host = [] → s.codec.idx < s.lat.nL →
    s.inBuf.read s.codec.idx = some u → dictLookup s.codec.dict (s.codec.w ++ [u]) = none → s.codec.w ≠ [] →
    s.Emits tok → s.pack.Sound (bpcOf s.adapter) →
    let bits := encode (.later s.codec.numBits) tok
    let ticked := Nat.iterate Codec.tick (tokenTicks tok) s.codec
    let entries :=
      if dictLookup s.codec.dict [u] = none then
        [([u], s.codec.dictSize), (s.codec.w ++ [u], s.codec.dictSize + 1)]
      else [(s.codec.w ++ [u], s.codec.dictSize)]
    s.pack.overflows (bpcOf s.adapter) s.cfg.outMax bits.length = false →
    exceeds (s.codec.dictSize + entries.length) s.cfg.dictMax = false →
    ∃ t, step s = .next t ∧ t.pack.Sound (bpcOf s.adapter) ∧
      t.pack.bits (bpcOf s.adapter) = s.pack.bits (bpcOf s.adapter) ++ bits ∧
      (∀ v, v ∈ t.codec.pend ↔
        (v ∈ s.codec.pend ∧ s.codec.w ≠ [v]) ∨ (v = u ∧ dictLookup s.codec.dict [u] = none)) ∧
      t.codec = { s.codec with
        w := [u], c := u, idx := s.codec.idx + 1, pend := t.codec.pend, dict := s.codec.dict ++ entries,
        dictSize := s.codec.dictSize + entries.length, numBits := ticked.numBits, enlargeIn := ticked.enlargeIn } ∧
      t = { s with codec := t.codec, pack := t.pack }

/-- ENC_FINISH within OUT_MAX (R107): W's token at NUMBITS, its TICKs, EOS at the NUMBITS they left, then FLUSH's one
symbol: the bits still held, then zeros. W's unit is pending no more, nothing is inserted, nothing else changes; then
SCRAMBLE if SCR_L = 1, else OUTPUT (R190). (One step is log 1.) -/
def Obligations.EncoderFinishesThePass : Prop :=
  ∀ (s : State) (tok : Instr), s.phase = .encode → s.host = [] → s.lat.nL ≤ s.codec.idx → s.Emits tok →
    s.pack.Sound (bpcOf s.adapter) →
    let bpc := bpcOf s.adapter
    let ticked := Nat.iterate Codec.tick (tokenTicks tok) s.codec
    let bits := encode (.later s.codec.numBits) tok ++ encode (.later ticked.numBits) .eos
    exceeds (s.pack.symbolsAfter bpc bits.length + 1) s.cfg.outMax = false →
    ∃ t, step s = .next t ∧ t.pack.pval = 0 ∧ t.pack.ppos = 0 ∧
      t.pack.sym.length = s.pack.symbolsAfter bpc bits.length + 1 ∧
      t.pack.bits bpc = s.pack.bits bpc ++ bits ++ List.replicate (bpc - (s.pack.ppos + bits.length) % bpc) false ∧
      (∀ v, v ∈ t.codec.pend ↔ v ∈ s.codec.pend ∧ s.codec.w ≠ [v]) ∧
      t.codec = { s.codec with
        pend := t.codec.pend, numBits := ticked.numBits, enlargeIn := ticked.enlargeIn } ∧
      t.phase = (if s.lat.scr then .scramble else .output) ∧
      t = { s with codec := t.codec, pack := t.pack, phase := t.phase }

/-- Where ENCODE raises CAPACITY, ERRIDX 0 and no output (R83, R101, R103, R107, R211): a new unit has no code below
DICT_MAX; on a mismatch the token completes a symbol beyond OUT_MAX, or the entries go beyond DICT_MAX; at the end of the
pass the symbols, FLUSH's among them, go beyond OUT_MAX. -/
def Obligations.EncoderRaisesCapacity : Prop :=
  ∀ s : State, s.phase = .encode → s.host = [] →
    let bpc := bpcOf s.adapter
    let refuses := ∃ t, step s = .next t ∧ t.EndedWith .capacity 0 ∧ t.outBuf = s.outBuf
    (∀ u, s.codec.idx < s.lat.nL → s.inBuf.read s.codec.idx = some u → dictLookup s.codec.dict [u] = none →
      exceeds (s.codec.dictSize + 1) s.cfg.dictMax = true → refuses) ∧
    (∀ u tok, s.codec.idx < s.lat.nL → s.inBuf.read s.codec.idx = some u →
      dictLookup s.codec.dict (s.codec.w ++ [u]) = none → s.codec.w ≠ [] → s.Emits tok → s.pack.Sound bpc →
      s.pack.overflows bpc s.cfg.outMax (encode (.later s.codec.numBits) tok).length = true ∨
        exceeds (s.codec.dictSize + if dictLookup s.codec.dict [u] = none then 2 else 1) s.cfg.dictMax = true →
      refuses) ∧
    (∀ tok, s.lat.nL ≤ s.codec.idx → s.Emits tok → s.pack.Sound bpc →
      let ticked := Nat.iterate Codec.tick (tokenTicks tok) s.codec
      let bits := encode (.later s.codec.numBits) tok ++ encode (.later ticked.numBits) .eos
      exceeds (s.pack.symbolsAfter bpc bits.length + 1) s.cfg.outMax = true → refuses)

/-- No phase of a compress command raises anything but CAPACITY, with ERRIDX 0 (R100, R202). -/
def Obligations.EncoderRaisesOnlyCapacity : Prop :=
  ∀ s t : State, s.regs.status = .busy → s.phase = .encode ∨ s.phase = .scramble ∨ s.phase = .output →
    step s = .next t → t.regs.status = .error → t.EndedWith .capacity 0

/-- NUMBITS and DICTSIZE never decrease during a pass, and the encoder's dictionary DICT and the decoder's DLIST only grow
at their end (R108 d, R109). -/
def Obligations.WidthsAndDictionaryOnlyGrow : Prop :=
  ∀ s t : State, s.regs.status = .busy → step s = .next t → s.host.head? ≠ some .reset →
    s.codec.numBits ≤ t.codec.numBits ∧ s.codec.dictSize ≤ t.codec.dictSize ∧ s.codec.dict <+: t.codec.dict ∧
      s.dec.dlist <+: t.dec.dlist

/-! ### The bit packer and reader -/

/-- PACK within OUT_MAX appends exactly the low `w` bits of the code, most significant first, to the bits packed so far,
and keeps the packer's invariant, at every BPC (R16, R41, R80, R81); where a symbol it completes is beyond OUT_MAX it
raises CAPACITY, that symbol not emitted (R83). -/
def Obligations.PackAppendsTheField : Prop :=
  ∀ (bpc code w : Nat) (cap : Option Nat) (p : Packer), 1 ≤ bpc → bpc ≤ 16 → p.Sound bpc →
    (p.overflows bpc cap w = false → ∃ q, p.pack bpc cap code w = .ok () q ∧ q.Sound bpc ∧
      q.bits bpc = p.bits bpc ++ fieldBits code w ∧ q.sym.length = p.symbolsAfter bpc w) ∧
    (p.overflows bpc cap w = true → ∃ q, p.pack bpc cap code w = .raise .capacity q ∧ p.sym <+: q.sym ∧
      exceeds (q.sym.length + 1) cap = true)

/-- FLUSH within OUT_MAX adds exactly one symbol: the bits held, then zeros; the all-zero symbol when none are held
(R84). Beyond OUT_MAX it raises CAPACITY and adds none (R83). -/
def Obligations.FlushAddsOneSymbol : Prop :=
  ∀ (bpc : Nat) (cap : Option Nat) (p : Packer), 1 ≤ bpc → bpc ≤ 16 → p.Sound bpc →
    (exceeds (p.sym.length + 1) cap = false →
      ∃ r, p.flush bpc cap = .ok () { pval := 0, ppos := 0, sym := p.sym ++ [r] } ∧ r.toNat < 2 ^ bpc ∧
        fieldBits r.toNat bpc = fieldBits p.pval.toNat p.ppos ++ List.replicate (bpc - p.ppos) false ∧
        (p.ppos = 0 → r = 0)) ∧
    (exceeds (p.sym.length + 1) cap = true → p.flush bpc cap = .raise .capacity p)

/-- Duality (R88): what is packed in fields and flushed, a reader started on the raw symbols unpacks field by
field, raising nothing; and the symbol count is floor(total width / BPC) + 1. -/
def Obligations.UnpackInvertsPack : Prop :=
  ∀ (bpc : Nat) (fs : List (Nat × Nat)), 1 ≤ bpc → bpc ≤ 16 → (∀ f ∈ fs, f.1 < 2 ^ f.2) →
    ∃ p q, Packer.start.packFields bpc none fs = .ok () p ∧ p.flush bpc none = .ok () q ∧
      q.sym.length = (fs.map Prod.snd).sum / bpc + 1 ∧
      ∃ r : List Reader, r.length = fs.length + 1 ∧ r[0]? = some Reader.start ∧
        ∀ i f r0 r1, fs[i]? = some f → r[i]? = some r0 → r[i + 1]? = some r1 →
          r0.unpack bpc q.sym.length
            (fun j => match q.sym[j]? with | some x => .symbol x | none => .missing j) f.2 0 = .ok f.1 r1

/-- Reading (R82, R86, R87): width 0 reads nothing; where a bit is needed and no symbol is left, TRUNCATED, the
reader unchanged; where the next unit is outside the alphabet, BAD_SYMBOL, the reader unchanged. -/
def Obligations.ReaderStopsAtTheEnd : Prop :=
  ∀ (bpc nL w : Nat) (src : Nat → Load) (r : Reader),
    r.unpack bpc nL src 0 0 = .ok 0 r ∧
    (r.rmask = 0 → nL ≤ r.ridx → r.unpack bpc nL src (w + 1) 0 = .raise .truncated r) ∧
    (r.rmask = 0 → r.ridx < nL → src r.ridx = .badSymbol → r.unpack bpc nL src (w + 1) 0 = .raise .badSymbol r)

/-! ### Tokens -/

/-- The engine's step in DECODE_FIRST and DECODE executes the instruction the decoder reads from the unread bits,
at a state in which exactly those bits are consumed and CC holds the code (R121, R122; one token a step is log 1). -/
def Obligations.StepRunsTheDecodedToken : Prop :=
  ∀ (s : State) (i : Instr) (rest : List Bool), s.host = [] → s.MaskLegal → s.read.ridx ≤ s.lat.nL →
    (s.phase = .decodeFirst → decode .first s.unreadBits = .ok (i, rest) →
      ∃ t, step s = exec i t ∧ t = { s with read := t.read } ∧ t.unreadBits = rest) ∧
    (s.phase = .decode → decode (.later s.codec.numBits) s.unreadBits = .ok (i, rest) →
      ∃ t, step s = exec i t ∧ t = { s with read := t.read, dec := { s.dec with cc := t.dec.cc } } ∧
        t.unreadBits = rest ∧ (encodeFields s.codec.numBits i).head?.map Prod.fst = some t.dec.cc)

/-- How a fetch ends in ERROR, OUT_BUF untouched (R71, R86, R121, R128, R142, R201). A first prefix 2 or 3 is BAD_FIRST,
ERRIDX the symbols loaded to read it. A token the stream cannot complete is TRUNCATED with ERRIDX = N_L where every symbol
left can be loaded, and on the plain path BAD_SYMBOL with ERRIDX the index of the first unit outside the alphabet. -/
def Obligations.BadStreamsAreReported : Prop :=
  ∀ s : State, s.host = [] → s.MaskLegal → s.read.ridx ≤ s.lat.nL →
    let endsWith := fun (c : Cause) (idx : Nat) => ∃ t, step s = .next t ∧ t.EndedWith c idx ∧ t.outBuf = s.outBuf
    let cutShort := (s.phase = .decodeFirst ∧ decode .first s.unreadBits = .error .truncated) ∨
      (s.phase = .decode ∧ decode (.later s.codec.numBits) s.unreadBits = .error .truncated)
    (s.phase = .decodeFirst → decode .first s.unreadBits = .error .badFirst →
      endsWith .badFirst (s.read.ridx + if s.read.bitsLeft < 2 then 1 else 0)) ∧
    (cutShort → (∀ j, s.read.ridx ≤ j → j < s.lat.nL → ∃ r, s.nextSym j = .symbol r) →
      endsWith .truncated s.lat.nL) ∧
    (∀ j u, cutShort → s.lat.scr = false → s.read.ridx ≤ j → j < s.lat.nL →
      (∀ i, s.read.ridx ≤ i → i < j → ∃ r, s.nextSym i = .symbol r) → s.inBuf.read j = some u →
      unmapUnit s.adapter u = none → endsWith .badSymbol j)

/-- FIRST_LIT8 and FIRST_LIT16 complete within the capacities (R68, R121): the unit becomes the next entry, two
TICKs, W and RES are the unit, PHASE DECODE; nothing else changes. -/
def Obligations.FirstLiteralsComplete : Prop :=
  ∀ (s : State) (v8 : BitVec 8) (v16 : BitVec 16), exceeds (s.codec.dictSize + 1) s.cfg.dictMax = false →
    exceeds 1 s.cfg.outMax = false →
    let after := fun u : CodeUnit => { s with
      codec := { s.codec with w := [u], dictSize := s.codec.dictSize + 1, numBits := s.codec.tick.tick.numBits,
                              enlargeIn := s.codec.tick.tick.enlargeIn }
      dec := { s.dec with dlist := s.dec.dlist ++ [[u]], res := [u] }
      phase := .decode }
    exec (.firstLit8 v8) s = .next (after (BitVec.ofNat 16 v8.toNat)) ∧ exec (.firstLit16 v16) s = .next (after v16)

/-- LIT8 and LIT16 complete within the capacities (R68, R123, R124, R127): two entries, the unit and W ++ unit,
two TICKs, CC the unit's code, RES and ENTRY and W the unit; nothing else changes. (ENTRY is the unit itself, log 22.) -/
def Obligations.LiteralsComplete : Prop :=
  ∀ (s : State) (v8 : BitVec 8) (v16 : BitVec 16), exceeds (s.codec.dictSize + 2) s.cfg.dictMax = false →
    exceeds (s.dec.res.length + 1) s.cfg.outMax = false →
    let after := fun u : CodeUnit => { s with
      codec := { s.codec with w := [u], dictSize := s.codec.dictSize + 2, numBits := s.codec.tick.tick.numBits,
                              enlargeIn := s.codec.tick.tick.enlargeIn }
      dec := { dlist := s.dec.dlist ++ [[u]] ++ [s.codec.w ++ [u]], cc := s.codec.dictSize, entry := [u],
               res := s.dec.res ++ [u] } }
    exec (.lit8 v8) s = .next (after (BitVec.ofNat 16 v8.toNat)) ∧ exec (.lit16 v16) s = .next (after v16)

/-- REF k (R126, R127). Below DICTSIZE its entry, at DICTSIZE `W ++ <W[0]>` (KwKwK): RES gains it, `W ++ <ENTRY[0]>`
is registered, one TICK, W is the entry, nothing else changes. Above DICTSIZE: BAD_CODE. -/
def Obligations.ReferencesComplete : Prop :=
  ∀ (s : State) (k : Nat),
    (∀ (e : Str) (x : CodeUnit), (k < s.codec.dictSize ∧ s.dec.dlist[k]? = some e) ∨
        (k = s.codec.dictSize ∧ ∃ y, s.codec.w.head? = some y ∧ e = s.codec.w ++ [y]) →
      e.head? = some x → exceeds (s.codec.dictSize + 1) s.cfg.dictMax = false →
      exceeds (s.dec.res.length + e.length) s.cfg.outMax = false →
      exec (.ref k) s = .next { s with
        codec := { s.codec.tick with w := e, dictSize := s.codec.dictSize + 1 }
        dec := { s.dec with dlist := s.dec.dlist ++ [s.codec.w ++ [x]], entry := e, res := s.dec.res ++ e } }) ∧
    (s.codec.dictSize < k → ∃ t, exec (.ref k) s = .next t ∧ t.EndedWith .badCode s.read.ridx ∧
      t = { s with regs := t.regs, phase := .finished })

/-- EOS (R125): the pass ends, PHASE OUTPUT; no TICK, no dictionary change, nothing else changes; it completes in
every state. -/
def Obligations.EndOfStreamCompletes : Prop := ∀ s : State, exec .eos s = .next { s with phase := .output }

/-- A token beyond a capacity ends the command with CAPACITY, ERRIDX 0, and writes no output (R47, R121, R123, R124,
R126, R127, R211); a REF, for its entry's length, both below DICTSIZE and at DICTSIZE (KwKwK, `W ++ <W[0]>`). -/
def Obligations.TokensBeyondCapacity : Prop :=
  ∀ (s : State) (v8 : BitVec 8) (v16 : BitVec 16) (k : Nat) (e : Str),
    (exceeds (s.codec.dictSize + 1) s.cfg.dictMax = true ∨ exceeds 1 s.cfg.outMax = true →
      ∀ i, i = .firstLit8 v8 ∨ i = .firstLit16 v16 →
        ∃ t, exec i s = .next t ∧ t.EndedWith .capacity 0 ∧ t.outBuf = s.outBuf) ∧
    (exceeds (s.codec.dictSize + 2) s.cfg.dictMax = true ∨ exceeds (s.dec.res.length + 1) s.cfg.outMax = true →
      ∀ i, i = .lit8 v8 ∨ i = .lit16 v16 →
        ∃ t, exec i s = .next t ∧ t.EndedWith .capacity 0 ∧ t.outBuf = s.outBuf) ∧
    ((k < s.codec.dictSize ∧ s.dec.dlist[k]? = some e ∧ e ≠ []) ∨
        (k = s.codec.dictSize ∧ ∃ y, s.codec.w.head? = some y ∧ e = s.codec.w ++ [y]) →
      exceeds (s.codec.dictSize + 1) s.cfg.dictMax = true ∨
        exceeds (s.dec.res.length + e.length) s.cfg.outMax = true →
      ∃ t, exec (.ref k) s = .next t ∧ t.EndedWith .capacity 0 ∧ t.outBuf = s.outBuf)

/-! ### Adapters and output -/

/-- BPC in every configuration, and MAP's values (R140, R141, R143 to R146): RAW the symbol itself, UTF16 and SCR15 the symbol
plus 32, BASE64 and URISAFE the 64 entries of their tables. -/
def Obligations.MapGivesTheTables : Prop :=
  (∀ alpha, bpcOf (adapterOf alpha false) =
    match alpha with
    | .raw => 16
    | .utf16 => 15
    | .base64 | .uriSafe => 6) ∧
  bpcOf (adapterOf .raw true) = 15 ∧
  ∀ r : Symbol,
    mapSymbol (adapterOf .raw false) r = r ∧
    (r.toNat < 2 ^ 15 → ∀ a, a = adapterOf .utf16 false ∨ a = adapterOf .raw true →
      (mapSymbol a r).toNat = r.toNat + 32) ∧
    (∀ a, a = adapterOf .base64 false ∨ a = adapterOf .uriSafe false →
      (r.toNat < 26 → (mapSymbol a r).toNat = 0x41 + r.toNat) ∧
      (26 ≤ r.toNat → r.toNat < 52 → (mapSymbol a r).toNat = 0x61 + (r.toNat - 26)) ∧
      (52 ≤ r.toNat → r.toNat < 62 → (mapSymbol a r).toNat = 0x30 + (r.toNat - 52)) ∧
      (r.toNat = 62 → mapSymbol a r = 0x2B)) ∧
    (r.toNat = 63 → mapSymbol (adapterOf .base64 false) r = 0x2F ∧ mapSymbol (adapterOf .uriSafe false) r = 0x2D)

/-- UNMAP(u) is the raw symbol r of BPC bits with MAP(r) = u, in every configuration, and exists only then
(R141, R142, R145, R146). -/
def Obligations.UnmapInvertsMap : Prop :=
  ∀ (a : Adapter) (u : CodeUnit) (r : Symbol),
    unmapUnit a u = some r ↔ r.toNat < 2 ^ bpcOf a ∧ mapSymbol a r = u

/-- Where output units lie (R140, R144, R170, R237): under UTF16 and SCR15 between 0x0020 and 0x801F, below the
surrogates; under BASE64 and URISAFE printable ASCII, and never the padding unit. -/
def Obligations.OutputUnitsAreSafe : Prop :=
  ∀ (a : Adapter) (r : Symbol), r.toNat < 2 ^ bpcOf a →
    ((a = .utf16 ∨ a = .scr15) → 0x20 ≤ (mapSymbol a r).toNat ∧ (mapSymbol a r).toNat ≤ 0x801F) ∧
    ((a = .base64 ∨ a = .uriSafe) → 0x2B ≤ (mapSymbol a r).toNat ∧ (mapSymbol a r).toNat ≤ 0x7A ∧
      mapSymbol a r ≠ 0x3D)

/-- OUTPUT (R147). A compress command: OUT_BUF[i] is MAP(SYM[i]), then the POST units (for BASE64 the `=` that make the
total a multiple of 4, at most 3), OUT_LEN their number; with a finite OUT_MAX too small, CAPACITY before any write.
A decompress command copies RES. No other unit and no input changes; the command ends DONE. (One step is log 1.) -/
def Obligations.OutputCopiesTheResult : Prop :=
  ∀ s : State, s.phase = .output → s.host = [] →
    let n := s.pack.sym.length
    (isCompress s.lat.op = true → ∃ post : List CodeUnit,
      (s.adapter = .raw ∨ s.adapter = .scr15 → post = []) ∧ (s.adapter = .utf16 → post = [0x20]) ∧
      (s.adapter = .uriSafe → post = [0x2B]) ∧
      (s.adapter = .base64 → (∀ u ∈ post, u = 0x3D) ∧ post.length ≤ 3 ∧ (n + post.length) % 4 = 0) ∧
      (exceeds (n + post.length) s.cfg.outMax = true →
        ∃ t, step s = .next t ∧ t.EndedWith .capacity 0 ∧ t.outBuf = s.outBuf) ∧
      (exceeds (n + post.length) s.cfg.outMax = false →
        ∃ t, step s = .next t ∧ t.regs.status = .done ∧ t.phase = .finished ∧ t.regs.outLen = n + post.length ∧
          (∀ i r, s.pack.sym[i]? = some r → t.outBuf.read i = some (mapSymbol s.adapter r)) ∧
          (∀ i u, post[i]? = some u → t.outBuf.read (n + i) = some u) ∧
          (∀ i, n + post.length ≤ i → t.outBuf.read i = s.outBuf.read i) ∧ s.SameInputs t)) ∧
    (isCompress s.lat.op = false →
      ∃ t, step s = .next t ∧ t.regs.status = .done ∧ t.phase = .finished ∧ t.regs.outLen = s.dec.res.length ∧
        (∀ i u, s.dec.res[i]? = some u → t.outBuf.read i = some u) ∧
        (∀ i, s.dec.res.length ≤ i → t.outBuf.read i = s.outBuf.read i) ∧ s.SameInputs t)

/-! ### The scrambler -/

/-- SCRAMBLE_PASS and UNSCRAMBLE_PASS both XOR KS(k, i) into every SYM[i] (R164, R165, R167, R169), for every MIX. -/
def Obligations.PassesXorTheKeystream : Prop :=
  ∀ (m : MixChoice) (k : Word64) (x : Scrambler) (sym : List Symbol),
    (scramblePass m k x sym).2 = maskSymbols m k sym ∧ (unscramblePass m k x sym).2 = maskSymbols m k sym

/-- UNSCRAMBLE_PASSes in reverse key order undo SCRAMBLE_PASSes in forward order, for every key list and every MIX
(R166, R168, R169 b). -/
def Obligations.DescramblingInvertsScrambling : Prop :=
  ∀ (m : MixChoice) (ks : List Word64) (x y : Scrambler) (sym : List Symbol),
    ks.reverse.foldl (fun l k => (unscramblePass m k y l).2)
      (ks.foldl (fun l k => (scramblePass m k x l).2) sym) = sym

/-- A permutation of the keys gives the same symbols, and a key that occurs twice cancels itself (R169 c, d). -/
def Obligations.KeyOrderIsImmaterial : Prop :=
  ∀ (m : MixChoice) (ks ls : List Word64) (k : Word64) (x : Scrambler) (sym : List Symbol),
    (ks.Perm ls → ks.foldl (fun l k => (scramblePass m k x l).2) sym =
      ls.foldl (fun l k => (scramblePass m k x l).2) sym) ∧
    (k :: k :: ks).foldl (fun l k => (scramblePass m k x l).2) sym =
      ks.foldl (fun l k => (scramblePass m k x l).2) sym

/-- One step of SCRAMBLE is the pass of KEY[SKEY] (R163, R166, R190): SYM gets that key's keystream, SINC stays odd,
SKEY advances, and after the last key comes OUTPUT; nothing else changes. (One pass a step is log 1. SKEY + 1 after the
last key, where R166's loop gives no value, is the model's choice, log 20.) -/
def Obligations.ScrambleStep : Prop :=
  ∀ s : State, s.phase = .scramble → s.host = [] → ∃ t, step s = .next t ∧
    t.pack = { s.pack with sym := maskSymbols s.cfg.mix (s.keys.read s.scr.skey) s.pack.sym } ∧
    t.scr.skey = s.scr.skey + 1 ∧ t.scr.sinc = keyIncrement s.cfg.mix (s.keys.read s.scr.skey) ∧
    t.scr.sinc.getLsbD 0 = true ∧
    t.phase = (if s.scr.skey + 1 < s.lat.kL then .scramble else .output) ∧
    t = { s with pack := t.pack, scr := t.scr, phase := t.phase }

/-- The steps of UNSCRAMBLE (R184): while SYM is short of N_L symbols the next unit is converted, BAD_SYMBOL with its
index if it is outside 0x0020 .. 0x801F; then the passes, from the last key to key 0, and DECODE_FIRST.
(One unit or one pass a step is log 1, SKEY between them log 20.) -/
def Obligations.UnscrambleSteps : Prop :=
  ∀ s : State, s.phase = .unscramble → s.host = [] → s.lat.scr = true →
    (∀ u, s.pack.sym.length < s.lat.nL → s.inBuf.read s.read.ridx = some u →
      u.toNat < 0x20 ∨ 0x801F < u.toNat →
      ∃ t, step s = .next t ∧ t.EndedWith .badSymbol s.read.ridx ∧ t.outBuf = s.outBuf) ∧
    (∀ u, s.pack.sym.length < s.lat.nL → s.inBuf.read s.read.ridx = some u →
      0x20 ≤ u.toNat → u.toNat ≤ 0x801F →
      ∃ t, step s = .next t ∧
        t.pack = { s.pack with sym := s.pack.sym ++ [BitVec.ofNat 16 (u.toNat - 32)] } ∧
        (s.pack.sym.length + 1 < s.lat.nL →
          t = { s with pack := t.pack, read := { s.read with ridx := s.read.ridx + 1 } }) ∧
        (s.pack.sym.length + 1 = s.lat.nL →
          t = { s with pack := t.pack, read := { s.read with ridx := 0 }, scr := { s.scr with skey := s.lat.kL - 1 } })) ∧
    (s.lat.nL ≤ s.pack.sym.length → ∃ t, step s = .next t ∧
      t.pack = { s.pack with sym := maskSymbols s.cfg.mix (s.keys.read s.scr.skey) s.pack.sym } ∧
      t.scr.skey = s.scr.skey - 1 ∧ t.phase = (if s.scr.skey = 0 then .decodeFirst else .unscramble) ∧
      t = { s with pack := t.pack, scr := t.scr, phase := t.phase })

/-- The default MIX on R161's values, KEYSETUP of key 42 (R163) and the slices of its first word (R162). -/
def Obligations.DefaultMixValues : Prop :=
  splitMix64 0 = 0 ∧ splitMix64 1 = 0x5692161D100B05E5 ∧ splitMix64 42 = 0xA759EA27D4727622 ∧
    splitMix64 0x9E3779B97F4A7C15 = 0xE220A8397B1DCDAF ∧ keyIncrement .splitMix64 42 = 0xBD8055996920A23D ∧
    keyIncrement .identity 42 = 0xFFFFFFFF61C88089 ∧
    sliceOf 0x41F4F8613A11825D 0 = 0x025D ∧ sliceOf 0x41F4F8613A11825D 1 = 0x7423 ∧
    sliceOf 0x41F4F8613A11825D 2 = 0x6184 ∧ sliceOf 0x41F4F8613A11825D 3 = 0x0FA7

/-! ### Errors -/

/-- Raising (R203): ERRCODE, ERRIDX (RIDX for the four FormatError causes, else 0), OUT_LEN 0, STATE ERROR, PHASE
FINISHED; nothing else is done. -/
def Obligations.RaisingWritesTheReport : Prop :=
  ∀ (c : Cause) (s : State), s.raise c = { s with
    regs := { s.regs with
      status := .error, errCode := c, outLen := 0,
      errIdx := if c = .badFirst ∨ c = .truncated ∨ c = .badCode ∨ c = .badSymbol then s.read.ridx else 0 }
    phase := .finished }

/-- No partial output (R204): OUT_BUF is written only in the OUTPUT phase; a step of a running command that ends it in
ERROR has written no unit, and OUT_LEN = 0. -/
def Obligations.NoOutputOnError : Prop :=
  ∀ s t : State, s.regs.status = .busy → step s = .next t → s.host.head? ≠ some .reset →
    (s.phase ≠ .output → t.outBuf = s.outBuf) ∧
    (t.regs.status = .error → t.outBuf = s.outBuf ∧ t.regs.outLen = 0)

/-- What executing a token can raise once it is fetched (R202): CAPACITY, or BAD_CODE for a REF beyond DICTSIZE; EOS
raises nothing. -/
def Obligations.CausesOfTokens : Prop :=
  ∀ (i : Instr) (s t : State), i.fitsPlace .first = true ∨ i.fitsPlace (.later 3) = true → s.regs.status = .busy →
    exec i s = .next t → t.regs.status = .error →
    i ≠ .eos ∧ (t.EndedWith .capacity 0 ∨ ∃ k, i = .ref k ∧ s.codec.dictSize < k ∧ t.EndedWith .badCode s.read.ridx)

/-! ### The whole machine -/

/-- PHASE's complete transition relation (R190), with STATUS and PHASE in agreement: on an accepted CMD write, on
any other turn of the host, and on each engine step (logs 1 and 2). DECODE goes to OUTPUT exactly on the token EOS; the
reader's legality there is part of the invariant (StepKeepsInvariant). -/
def Obligations.PhaseTransitions : Prop :=
  ∀ s t : State, (s.regs.status = .busy ↔ s.phase.isRunning = true) → step s = .next t →
    let failed := t.phase = .finished ∧ t.regs.status = .error
    (∀ c rest, s.host = .writeCmd c :: rest → s.regs.status ≠ .busy →
      (IllegalWord c ∨ s.TooBig (opOf (opField c)) ∨ s.regs.inLen = 0 → t.phase = .finished) ∧
      (¬(IllegalWord c ∨ s.TooBig (opOf (opField c)) ∨ s.regs.inLen = 0) →
        t.phase =
          match opOf (opField c) with
          | .compress | .compressScrambled => .encode
          | .decompress => .decodeFirst
          | .decompressScrambled => if s.regs.nkeys = 0 then .decodeFirst else .unscramble)) ∧
    (∀ rest, s.host = .reset :: rest → t.phase = .idle) ∧
    (∀ x rest, s.host = .write x :: rest → t.phase = s.phase) ∧
    (∀ x rest, s.host = .read x :: rest → t.phase = s.phase) ∧
    (∀ c rest, s.host = .writeCmd c :: rest → s.regs.status = .busy → t.phase = s.phase) ∧
    (∀ rest, s.host = .poll :: rest → s.regs.status ≠ .busy → t.phase = s.phase) ∧
    (s.EngineMoves →
      match s.phase with
      | .idle => t.phase = .idle
      | .finished => t.phase = .finished
      | .encode => failed ∨ (s.codec.idx < s.lat.nL ∧ t.phase = .encode) ∨
          (s.lat.nL ≤ s.codec.idx ∧ t.phase = if s.lat.scr then .scramble else .output)
      | .scramble => t.phase = if s.scr.skey + 1 < s.lat.kL then .scramble else .output
      | .unscramble => failed ∨ (t.phase = .unscramble ∧ (s.pack.sym.length < s.lat.nL ∨ s.scr.skey ≠ 0)) ∨
          (t.phase = .decodeFirst ∧ s.lat.nL ≤ s.pack.sym.length ∧ s.scr.skey = 0)
      | .decodeFirst => failed ∨ t.phase = .decode
      | .decode => (failed ∨ t.phase = .decode ∨ t.phase = .output) ∧
          (s.MaskLegal → s.read.ridx ≤ s.lat.nL →
            (t.phase = .output ↔ ∃ rest, decode (.later s.codec.numBits) s.unreadBits = .ok (.eos, rest)))
      | .output => t.phase = .finished)

/-- The state after reset satisfies the invariant of a run. (Its unspecified registers hold values the model chose,
logs 5 and 6.) -/
def Obligations.ResetSatisfiesInvariant : Prop := State.reset.Inv

/-- Every step keeps the invariant, from every state that has it: the stores' canonical form (the model's own, logs 5, 7
and 24), STATUS, PHASE and report in
agreement (R13, R203), counters in range (R15), PVAL < 2^PPOS and symbols of BPC bits (R16), RMASK one bit of BPC
(R17), len(DLIST) = DICTSIZE (R18), SINC odd (R19), the encoder's dictionary facts (R14, R109), W and RES not empty
(R125, R126). -/
def Obligations.StepKeepsInvariant : Prop :=
  ∀ s t : State, s.Inv → step s = .next t → t.Inv

/-- From a state with the invariant no step faults, and a step is refused only where the command reads a unit of
IN_BUF below N_L that nothing has written since reset (R214, R239; the refusal is the spec's, logs 7 and 8). -/
def Obligations.NoFaultsInARun : Prop :=
  ∀ s : State, s.Inv → (∀ f, step s ≠ .fault f) ∧
    ∀ r, step s = .refused r → ∃ i < s.lat.nL, r = .unwrittenInput i ∧ s.inBuf.read i = none

/-- Every step keeps the stores canonical, from every state whose stores are (R21, R40; the form is the model's, logs
5 and 7). -/
def Obligations.StepKeepsStoresCanonical : Prop :=
  ∀ s t : State, s.Canonical → step s = .next t → t.Canonical

/-- No step, RESET included, changes the instance's parameters (R6, R10, R23; their place in State is log 3). -/
def Obligations.ParametersNeverChange : Prop := ∀ s t : State, step s = .next t → t.cfg = s.cfg

/-- Totality (R214): from any state that is not BUSY, whatever its contents, a command whose input is written ends in
finitely many steps, at least its start step, in DONE or ERROR, and DONE with OUT_LEN = 0 occurs only for IN_LEN = 0. The bound on the steps
follows R130 and counts the model's steps (log 1). -/
def Obligations.EveryCommandEnds : Prop :=
  ∀ (s : State) (c : Byte), s.regs.status ≠ .busy → s.InputWritten s.regs.inLen →
    ∃ k t, k + 1 ≤ 7 * s.regs.inLen + s.regs.nkeys + 4 ∧ (s.withCommand c).run (k + 1) = .next t ∧
      (t.regs.status = .done ∨ t.regs.status = .error) ∧
      (t.regs.status = .done → t.regs.outLen = 0 → s.regs.inLen = 0)

/-- With unbounded capacities COMPRESS under every alphabet, and COMPRESS_SCRAMBLED with any keys, ends DONE on every
written input (R100: it raises no FormatError for any input). -/
def Obligations.CompressionAlwaysSucceeds : Prop :=
  ∀ (s : State) (op : Op) (a : Alphabet), isCompress op = true → (isScrambled op = true → a = .raw) →
    s.regs.status ≠ .busy → s.Unbounded → s.InputWritten s.regs.inLen →
    ∃ k t, (s.withCommand (commandWord op a)).run (k + 1) = .next t ∧ t.regs.status = .done ∧ t.regs.errCode = .none

/-- Purity (R22, R188): two blocks that agree on the parameters, IN_LEN, NKEYS, the input and (for a scrambled command)
the keys give the same STATUS, ERRCODE, ERRIDX, OUT_LEN and OUT_BUF[0 .. OUT_LEN - 1] after every number of steps of
the same command, whatever else they hold. -/
def Obligations.ResultsDependOnlyOnInputs : Prop :=
  ∀ (s t : State) (c : Byte) (k : Nat), s.regs.status ≠ .busy → t.regs.status ≠ .busy → s.cfg = t.cfg →
    s.regs.inLen = t.regs.inLen → s.regs.nkeys = t.regs.nkeys →
    (∀ i < s.regs.inLen, s.inBuf.read i = t.inBuf.read i) →
    (isScrambled (opOf (opField c)) = true → ∀ i < s.regs.nkeys, s.keys.read i = t.keys.read i) →
    match (s.withCommand c).run (k + 1), (t.withCommand c).run (k + 1) with
    | .next u, .next v =>
      u.regs.status = v.regs.status ∧ u.regs.errCode = v.regs.errCode ∧ u.regs.errIdx = v.regs.errIdx ∧
        u.regs.outLen = v.regs.outLen ∧ ∀ i < u.regs.outLen, u.outBuf.read i = v.outBuf.read i
    | .fault e, .fault f => e = f
    | .refused q, .refused r => q = r
    | _, _ => False

/-- The round trip (R189 a): with unbounded capacities COMPRESS alpha ends DONE, and DECOMPRESS alpha of its output, in
any block that holds that output as its input, ends DONE with the original string. -/
def Obligations.PlainRoundTrip : Prop :=
  ∀ (a : Alphabet) (s : State), s.regs.status ≠ .busy → s.Unbounded → s.InputWritten s.regs.inLen →
    ∃ k t, (s.withCommand (commandWord .compress a)).run (k + 1) = .next t ∧ t.regs.status = .done ∧
      ∀ u : State, u.regs.status ≠ .busy → u.Unbounded → u.regs.inLen = t.regs.outLen →
        (∀ i < t.regs.outLen, u.inBuf.read i = t.outBuf.read i) →
        ∃ j v, (u.withCommand (commandWord .decompress a)).run (j + 1) = .next v ∧ v.regs.status = .done ∧
          v.regs.outLen = s.regs.inLen ∧ ∀ i < s.regs.inLen, v.outBuf.read i = s.inBuf.read i

/-- The scrambled round trip (R189 b), for every key list, empty or not, and every MIX: the decompressing block holds
the same NKEYS, keys and parameters. -/
def Obligations.ScrambledRoundTrip : Prop :=
  ∀ s : State, s.regs.status ≠ .busy → s.Unbounded → s.InputWritten s.regs.inLen →
    ∃ k t, (s.withCommand (commandWord .compressScrambled .raw)).run (k + 1) = .next t ∧ t.regs.status = .done ∧
      ∀ u : State, u.regs.status ≠ .busy → u.cfg = s.cfg → u.regs.inLen = t.regs.outLen →
        u.regs.nkeys = s.regs.nkeys → (∀ i < s.regs.nkeys, u.keys.read i = s.keys.read i) →
        (∀ i < t.regs.outLen, u.inBuf.read i = t.outBuf.read i) →
        ∃ j v, (u.withCommand (commandWord .decompressScrambled .raw)).run (j + 1) = .next v ∧ v.regs.status = .done ∧
          v.regs.outLen = s.regs.inLen ∧ ∀ i < s.regs.inLen, v.outBuf.read i = s.inBuf.read i
end

