-- ==== Sys2Proof/Laws/State.lean ====
section
/-! SUPPORT. One lemma per field of State for every named update of it, true by `rfl`. -/

namespace Sys2Proof.Machine

section
variable (s : State)

/-! ### raise -/

@[simp] theorem State.raise_regs (c : Cause) : (s.raise c).regs = { s.regs with errCode := c, errIdx := if c.isFormatError then s.read.ridx else 0, outLen := 0, status := .error } := rfl
@[simp] theorem State.raise_keys (c : Cause) : (s.raise c).keys = s.keys := rfl
@[simp] theorem State.raise_inBuf (c : Cause) : (s.raise c).inBuf = s.inBuf := rfl
@[simp] theorem State.raise_outBuf (c : Cause) : (s.raise c).outBuf = s.outBuf := rfl
@[simp] theorem State.raise_phase (c : Cause) : (s.raise c).phase = .finished := rfl
@[simp] theorem State.raise_lat (c : Cause) : (s.raise c).lat = s.lat := rfl
@[simp] theorem State.raise_codec (c : Cause) : (s.raise c).codec = s.codec := rfl
@[simp] theorem State.raise_pack (c : Cause) : (s.raise c).pack = s.pack := rfl
@[simp] theorem State.raise_read (c : Cause) : (s.raise c).read = s.read := rfl
@[simp] theorem State.raise_dec (c : Cause) : (s.raise c).dec = s.dec := rfl
@[simp] theorem State.raise_scr (c : Cause) : (s.raise c).scr = s.scr := rfl
@[simp] theorem State.raise_host (c : Cause) : (s.raise c).host = s.host := rfl
@[simp] theorem State.raise_seen (c : Cause) : (s.raise c).seen = s.seen := rfl
@[simp] theorem State.raise_draws (c : Cause) : (s.raise c).draws = s.draws := rfl
@[simp] theorem State.raise_cfg (c : Cause) : (s.raise c).cfg = s.cfg := rfl

/-! ### clearReport -/

@[simp] theorem State.clearReport_regs : (s.clearReport).regs = { s.regs with status := .busy, errCode := .none, errIdx := 0, outLen := 0 } := rfl
@[simp] theorem State.clearReport_keys : (s.clearReport).keys = s.keys := rfl
@[simp] theorem State.clearReport_inBuf : (s.clearReport).inBuf = s.inBuf := rfl
@[simp] theorem State.clearReport_outBuf : (s.clearReport).outBuf = s.outBuf := rfl
@[simp] theorem State.clearReport_phase : (s.clearReport).phase = s.phase := rfl
@[simp] theorem State.clearReport_lat : (s.clearReport).lat = s.lat := rfl
@[simp] theorem State.clearReport_codec : (s.clearReport).codec = s.codec := rfl
@[simp] theorem State.clearReport_pack : (s.clearReport).pack = s.pack := rfl
@[simp] theorem State.clearReport_read : (s.clearReport).read = s.read := rfl
@[simp] theorem State.clearReport_dec : (s.clearReport).dec = s.dec := rfl
@[simp] theorem State.clearReport_scr : (s.clearReport).scr = s.scr := rfl
@[simp] theorem State.clearReport_host : (s.clearReport).host = s.host := rfl
@[simp] theorem State.clearReport_seen : (s.clearReport).seen = s.seen := rfl
@[simp] theorem State.clearReport_draws : (s.clearReport).draws = s.draws := rfl
@[simp] theorem State.clearReport_cfg : (s.clearReport).cfg = s.cfg := rfl

/-! ### endOk -/

@[simp] theorem State.endOk_regs : (s.endOk).regs = { s.regs with status := .done } := rfl
@[simp] theorem State.endOk_keys : (s.endOk).keys = s.keys := rfl
@[simp] theorem State.endOk_inBuf : (s.endOk).inBuf = s.inBuf := rfl
@[simp] theorem State.endOk_outBuf : (s.endOk).outBuf = s.outBuf := rfl
@[simp] theorem State.endOk_phase : (s.endOk).phase = .finished := rfl
@[simp] theorem State.endOk_lat : (s.endOk).lat = s.lat := rfl
@[simp] theorem State.endOk_codec : (s.endOk).codec = s.codec := rfl
@[simp] theorem State.endOk_pack : (s.endOk).pack = s.pack := rfl
@[simp] theorem State.endOk_read : (s.endOk).read = s.read := rfl
@[simp] theorem State.endOk_dec : (s.endOk).dec = s.dec := rfl
@[simp] theorem State.endOk_scr : (s.endOk).scr = s.scr := rfl
@[simp] theorem State.endOk_host : (s.endOk).host = s.host := rfl
@[simp] theorem State.endOk_seen : (s.endOk).seen = s.seen := rfl
@[simp] theorem State.endOk_draws : (s.endOk).draws = s.draws := rfl
@[simp] theorem State.endOk_cfg : (s.endOk).cfg = s.cfg := rfl

/-! ### latchCommand -/

@[simp] theorem State.latchCommand_regs (c : Byte) (op : Op) (a : Alphabet) : (s.latchCommand c op a).regs = { s.regs with cmd := c, status := .busy, errCode := .none, errIdx := 0, outLen := 0 } := rfl
@[simp] theorem State.latchCommand_keys (c : Byte) (op : Op) (a : Alphabet) : (s.latchCommand c op a).keys = s.keys := rfl
@[simp] theorem State.latchCommand_inBuf (c : Byte) (op : Op) (a : Alphabet) : (s.latchCommand c op a).inBuf = s.inBuf := rfl
@[simp] theorem State.latchCommand_outBuf (c : Byte) (op : Op) (a : Alphabet) : (s.latchCommand c op a).outBuf = s.outBuf := rfl
@[simp] theorem State.latchCommand_phase (c : Byte) (op : Op) (a : Alphabet) : (s.latchCommand c op a).phase = s.phase := rfl
@[simp] theorem State.latchCommand_lat (c : Byte) (op : Op) (a : Alphabet) : (s.latchCommand c op a).lat = { s.lat with op := op, alpha := a, nL := s.regs.inLen, kL := s.regs.nkeys } := rfl
@[simp] theorem State.latchCommand_codec (c : Byte) (op : Op) (a : Alphabet) : (s.latchCommand c op a).codec = s.codec := rfl
@[simp] theorem State.latchCommand_pack (c : Byte) (op : Op) (a : Alphabet) : (s.latchCommand c op a).pack = s.pack := rfl
@[simp] theorem State.latchCommand_read (c : Byte) (op : Op) (a : Alphabet) : (s.latchCommand c op a).read = s.read := rfl
@[simp] theorem State.latchCommand_dec (c : Byte) (op : Op) (a : Alphabet) : (s.latchCommand c op a).dec = s.dec := rfl
@[simp] theorem State.latchCommand_scr (c : Byte) (op : Op) (a : Alphabet) : (s.latchCommand c op a).scr = s.scr := rfl
@[simp] theorem State.latchCommand_host (c : Byte) (op : Op) (a : Alphabet) : (s.latchCommand c op a).host = s.host := rfl
@[simp] theorem State.latchCommand_seen (c : Byte) (op : Op) (a : Alphabet) : (s.latchCommand c op a).seen = s.seen := rfl
@[simp] theorem State.latchCommand_draws (c : Byte) (op : Op) (a : Alphabet) : (s.latchCommand c op a).draws = s.draws := rfl
@[simp] theorem State.latchCommand_cfg (c : Byte) (op : Op) (a : Alphabet) : (s.latchCommand c op a).cfg = s.cfg := rfl

/-! ### initWorking -/

@[simp] theorem State.initWorking_regs : (s.initWorking).regs = s.regs := rfl
@[simp] theorem State.initWorking_keys : (s.initWorking).keys = s.keys := rfl
@[simp] theorem State.initWorking_inBuf : (s.initWorking).inBuf = s.inBuf := rfl
@[simp] theorem State.initWorking_outBuf : (s.initWorking).outBuf = s.outBuf := rfl
@[simp] theorem State.initWorking_phase : (s.initWorking).phase = s.phase := rfl
@[simp] theorem State.initWorking_lat : (s.initWorking).lat = s.lat := rfl
@[simp] theorem State.initWorking_codec : (s.initWorking).codec = { Codec.start with c := s.codec.c } := rfl
@[simp] theorem State.initWorking_pack : (s.initWorking).pack = Packer.start := rfl
@[simp] theorem State.initWorking_read : (s.initWorking).read = Reader.start := rfl
@[simp] theorem State.initWorking_dec : (s.initWorking).dec = { Decoder.start with cc := s.dec.cc, entry := s.dec.entry } := rfl
@[simp] theorem State.initWorking_scr : (s.initWorking).scr = { s.scr with skey := 0 } := rfl
@[simp] theorem State.initWorking_host : (s.initWorking).host = s.host := rfl
@[simp] theorem State.initWorking_seen : (s.initWorking).seen = s.seen := rfl
@[simp] theorem State.initWorking_draws : (s.initWorking).draws = s.draws := rfl
@[simp] theorem State.initWorking_cfg : (s.initWorking).cfg = s.cfg := rfl

/-! ### appendEntry -/

@[simp] theorem State.appendEntry_regs (e : Str) : (s.appendEntry e).regs = s.regs := rfl
@[simp] theorem State.appendEntry_keys (e : Str) : (s.appendEntry e).keys = s.keys := rfl
@[simp] theorem State.appendEntry_inBuf (e : Str) : (s.appendEntry e).inBuf = s.inBuf := rfl
@[simp] theorem State.appendEntry_outBuf (e : Str) : (s.appendEntry e).outBuf = s.outBuf := rfl
@[simp] theorem State.appendEntry_phase (e : Str) : (s.appendEntry e).phase = s.phase := rfl
@[simp] theorem State.appendEntry_lat (e : Str) : (s.appendEntry e).lat = s.lat := rfl
@[simp] theorem State.appendEntry_codec (e : Str) : (s.appendEntry e).codec = { s.codec with dictSize := s.codec.dictSize + 1 } := rfl
@[simp] theorem State.appendEntry_pack (e : Str) : (s.appendEntry e).pack = s.pack := rfl
@[simp] theorem State.appendEntry_read (e : Str) : (s.appendEntry e).read = s.read := rfl
@[simp] theorem State.appendEntry_dec (e : Str) : (s.appendEntry e).dec = { s.dec with dlist := s.dec.dlist ++ [e] } := rfl
@[simp] theorem State.appendEntry_scr (e : Str) : (s.appendEntry e).scr = s.scr := rfl
@[simp] theorem State.appendEntry_host (e : Str) : (s.appendEntry e).host = s.host := rfl
@[simp] theorem State.appendEntry_seen (e : Str) : (s.appendEntry e).seen = s.seen := rfl
@[simp] theorem State.appendEntry_draws (e : Str) : (s.appendEntry e).draws = s.draws := rfl
@[simp] theorem State.appendEntry_cfg (e : Str) : (s.appendEntry e).cfg = s.cfg := rfl

/-! ### advanceIdx -/

@[simp] theorem State.advanceIdx_regs : (s.advanceIdx).regs = s.regs := rfl
@[simp] theorem State.advanceIdx_keys : (s.advanceIdx).keys = s.keys := rfl
@[simp] theorem State.advanceIdx_inBuf : (s.advanceIdx).inBuf = s.inBuf := rfl
@[simp] theorem State.advanceIdx_outBuf : (s.advanceIdx).outBuf = s.outBuf := rfl
@[simp] theorem State.advanceIdx_phase : (s.advanceIdx).phase = s.phase := rfl
@[simp] theorem State.advanceIdx_lat : (s.advanceIdx).lat = s.lat := rfl
@[simp] theorem State.advanceIdx_codec : (s.advanceIdx).codec = { s.codec with idx := s.codec.idx + 1 } := rfl
@[simp] theorem State.advanceIdx_pack : (s.advanceIdx).pack = s.pack := rfl
@[simp] theorem State.advanceIdx_read : (s.advanceIdx).read = s.read := rfl
@[simp] theorem State.advanceIdx_dec : (s.advanceIdx).dec = s.dec := rfl
@[simp] theorem State.advanceIdx_scr : (s.advanceIdx).scr = s.scr := rfl
@[simp] theorem State.advanceIdx_host : (s.advanceIdx).host = s.host := rfl
@[simp] theorem State.advanceIdx_seen : (s.advanceIdx).seen = s.seen := rfl
@[simp] theorem State.advanceIdx_draws : (s.advanceIdx).draws = s.draws := rfl
@[simp] theorem State.advanceIdx_cfg : (s.advanceIdx).cfg = s.cfg := rfl

/-! ### reply -/

@[simp] theorem State.reply_regs (v : HostValue) : (s.reply v).regs = s.regs := rfl
@[simp] theorem State.reply_keys (v : HostValue) : (s.reply v).keys = s.keys := rfl
@[simp] theorem State.reply_inBuf (v : HostValue) : (s.reply v).inBuf = s.inBuf := rfl
@[simp] theorem State.reply_outBuf (v : HostValue) : (s.reply v).outBuf = s.outBuf := rfl
@[simp] theorem State.reply_phase (v : HostValue) : (s.reply v).phase = s.phase := rfl
@[simp] theorem State.reply_lat (v : HostValue) : (s.reply v).lat = s.lat := rfl
@[simp] theorem State.reply_codec (v : HostValue) : (s.reply v).codec = s.codec := rfl
@[simp] theorem State.reply_pack (v : HostValue) : (s.reply v).pack = s.pack := rfl
@[simp] theorem State.reply_read (v : HostValue) : (s.reply v).read = s.read := rfl
@[simp] theorem State.reply_dec (v : HostValue) : (s.reply v).dec = s.dec := rfl
@[simp] theorem State.reply_scr (v : HostValue) : (s.reply v).scr = s.scr := rfl
@[simp] theorem State.reply_host (v : HostValue) : (s.reply v).host = s.host := rfl
@[simp] theorem State.reply_seen (v : HostValue) : (s.reply v).seen = s.seen ++ [v] := rfl
@[simp] theorem State.reply_draws (v : HostValue) : (s.reply v).draws = s.draws := rfl
@[simp] theorem State.reply_cfg (v : HostValue) : (s.reply v).cfg = s.cfg := rfl

/-! ### replyFree -/

@[simp] theorem State.replyFree_regs (v : Nat → HostValue) : (s.replyFree v).regs = s.regs := rfl
@[simp] theorem State.replyFree_keys (v : Nat → HostValue) : (s.replyFree v).keys = s.keys := rfl
@[simp] theorem State.replyFree_inBuf (v : Nat → HostValue) : (s.replyFree v).inBuf = s.inBuf := rfl
@[simp] theorem State.replyFree_outBuf (v : Nat → HostValue) : (s.replyFree v).outBuf = s.outBuf := rfl
@[simp] theorem State.replyFree_phase (v : Nat → HostValue) : (s.replyFree v).phase = s.phase := rfl
@[simp] theorem State.replyFree_lat (v : Nat → HostValue) : (s.replyFree v).lat = s.lat := rfl
@[simp] theorem State.replyFree_codec (v : Nat → HostValue) : (s.replyFree v).codec = s.codec := rfl
@[simp] theorem State.replyFree_pack (v : Nat → HostValue) : (s.replyFree v).pack = s.pack := rfl
@[simp] theorem State.replyFree_read (v : Nat → HostValue) : (s.replyFree v).read = s.read := rfl
@[simp] theorem State.replyFree_dec (v : Nat → HostValue) : (s.replyFree v).dec = s.dec := rfl
@[simp] theorem State.replyFree_scr (v : Nat → HostValue) : (s.replyFree v).scr = s.scr := rfl
@[simp] theorem State.replyFree_host (v : Nat → HostValue) : (s.replyFree v).host = s.host := rfl
@[simp] theorem State.replyFree_seen (v : Nat → HostValue) : (s.replyFree v).seen = s.seen ++ [v s.draws] := rfl
@[simp] theorem State.replyFree_draws (v : Nat → HostValue) : (s.replyFree v).draws = s.draws + 1 := rfl
@[simp] theorem State.replyFree_cfg (v : Nat → HostValue) : (s.replyFree v).cfg = s.cfg := rfl

/-! ### resetBlock -/

@[simp] theorem State.resetBlock_regs : (s.resetBlock).regs = State.reset.regs := rfl
@[simp] theorem State.resetBlock_keys : (s.resetBlock).keys = State.reset.keys := rfl
@[simp] theorem State.resetBlock_inBuf : (s.resetBlock).inBuf = State.reset.inBuf := rfl
@[simp] theorem State.resetBlock_outBuf : (s.resetBlock).outBuf = State.reset.outBuf := rfl
@[simp] theorem State.resetBlock_phase : (s.resetBlock).phase = State.reset.phase := rfl
@[simp] theorem State.resetBlock_lat : (s.resetBlock).lat = State.reset.lat := rfl
@[simp] theorem State.resetBlock_codec : (s.resetBlock).codec = State.reset.codec := rfl
@[simp] theorem State.resetBlock_pack : (s.resetBlock).pack = State.reset.pack := rfl
@[simp] theorem State.resetBlock_read : (s.resetBlock).read = State.reset.read := rfl
@[simp] theorem State.resetBlock_dec : (s.resetBlock).dec = State.reset.dec := rfl
@[simp] theorem State.resetBlock_scr : (s.resetBlock).scr = State.reset.scr := rfl
@[simp] theorem State.resetBlock_host : (s.resetBlock).host = s.host := rfl
@[simp] theorem State.resetBlock_seen : (s.resetBlock).seen = s.seen := rfl
@[simp] theorem State.resetBlock_draws : (s.resetBlock).draws = s.draws := rfl
@[simp] theorem State.resetBlock_cfg : (s.resetBlock).cfg = s.cfg := rfl

/-! ### scrambleMove -/

@[simp] theorem State.scrambleMove_regs : (s.scrambleMove).regs = s.regs := rfl
@[simp] theorem State.scrambleMove_keys : (s.scrambleMove).keys = s.keys := rfl
@[simp] theorem State.scrambleMove_inBuf : (s.scrambleMove).inBuf = s.inBuf := rfl
@[simp] theorem State.scrambleMove_outBuf : (s.scrambleMove).outBuf = s.outBuf := rfl
@[simp] theorem State.scrambleMove_phase : (s.scrambleMove).phase = if s.scr.skey + 1 < s.lat.kL then .scramble else .output := rfl
@[simp] theorem State.scrambleMove_lat : (s.scrambleMove).lat = s.lat := rfl
@[simp] theorem State.scrambleMove_codec : (s.scrambleMove).codec = s.codec := rfl
@[simp] theorem State.scrambleMove_read : (s.scrambleMove).read = s.read := rfl
@[simp] theorem State.scrambleMove_dec : (s.scrambleMove).dec = s.dec := rfl
@[simp] theorem State.scrambleMove_host : (s.scrambleMove).host = s.host := rfl
@[simp] theorem State.scrambleMove_seen : (s.scrambleMove).seen = s.seen := rfl
@[simp] theorem State.scrambleMove_draws : (s.scrambleMove).draws = s.draws := rfl
@[simp] theorem State.scrambleMove_cfg : (s.scrambleMove).cfg = s.cfg := rfl

/-! ### unscrambleKey -/

@[simp] theorem State.unscrambleKey_regs : (s.unscrambleKey).regs = s.regs := rfl
@[simp] theorem State.unscrambleKey_keys : (s.unscrambleKey).keys = s.keys := rfl
@[simp] theorem State.unscrambleKey_inBuf : (s.unscrambleKey).inBuf = s.inBuf := rfl
@[simp] theorem State.unscrambleKey_outBuf : (s.unscrambleKey).outBuf = s.outBuf := rfl
@[simp] theorem State.unscrambleKey_phase : (s.unscrambleKey).phase = if s.scr.skey = 0 then .decodeFirst else .unscramble := rfl
@[simp] theorem State.unscrambleKey_lat : (s.unscrambleKey).lat = s.lat := rfl
@[simp] theorem State.unscrambleKey_codec : (s.unscrambleKey).codec = s.codec := rfl
@[simp] theorem State.unscrambleKey_read : (s.unscrambleKey).read = s.read := rfl
@[simp] theorem State.unscrambleKey_dec : (s.unscrambleKey).dec = s.dec := rfl
@[simp] theorem State.unscrambleKey_host : (s.unscrambleKey).host = s.host := rfl
@[simp] theorem State.unscrambleKey_seen : (s.unscrambleKey).seen = s.seen := rfl
@[simp] theorem State.unscrambleKey_draws : (s.unscrambleKey).draws = s.draws := rfl
@[simp] theorem State.unscrambleKey_cfg : (s.unscrambleKey).cfg = s.cfg := rfl

end

end Sys2Proof.Machine
end

