-- ==== Sys2Proof/Laws/Ops.lean ====
section
/-! SUPPORT. What each shared operation can answer, said once. -/

namespace Sys2Proof.Machine

/-! ### Eff -/

section
variable {σ τ α β : Type}

@[simp] theorem Eff.bind_ok_left (a : α) (s : σ) (k : α → σ → Eff σ β) : (Eff.ok a s).bind k = k a s := rfl
@[simp] theorem Eff.bind_raise_left (c : Cause) (s : σ) (k : α → σ → Eff σ β) :
    (Eff.raise c s : Eff σ α).bind k = .raise c s := rfl
@[simp] theorem Eff.bind_fault_left (f : Fault) (k : α → σ → Eff σ β) :
    (Eff.fault f : Eff σ α).bind k = .fault f := rfl
@[simp] theorem Eff.bind_refused_left (r : Refusal) (k : α → σ → Eff σ β) :
    (Eff.refused r : Eff σ α).bind k = .refused r := rfl

/-- A sequence completes exactly when both parts do. -/
theorem Eff.bind_eq_ok {x : Eff σ α} {k : α → σ → Eff σ β} {b : β} {t : σ} :
    x.bind k = .ok b t ↔ ∃ a s, x = .ok a s ∧ k a s = .ok b t := by
  cases x <;> simp [Eff.bind]

/-- A sequence raises in its first part, or in its second after the first completed. -/
theorem Eff.bind_eq_raise {x : Eff σ α} {k : α → σ → Eff σ β} {c : Cause} {t : σ} :
    x.bind k = .raise c t ↔ x = .raise c t ∨ ∃ a s, x = .ok a s ∧ k a s = .raise c t := by
  cases x <;> simp [Eff.bind]

theorem Eff.bind_eq_fault {x : Eff σ α} {k : α → σ → Eff σ β} {f : Fault} :
    x.bind k = .fault f ↔ x = .fault f ∨ ∃ a s, x = .ok a s ∧ k a s = .fault f := by
  cases x <;> simp [Eff.bind]

theorem Eff.bind_eq_refused {x : Eff σ α} {k : α → σ → Eff σ β} {r : Refusal} :
    x.bind k = .refused r ↔ x = .refused r ∨ ∃ a s, x = .ok a s ∧ k a s = .refused r := by
  cases x <;> simp [Eff.bind]

@[simp] theorem Eff.lift_eq_ok {put : σ → τ} {x : Eff σ α} {a : α} {t : τ} :
    x.lift put = .ok a t ↔ ∃ s, x = .ok a s ∧ put s = t := by
  cases x <;> simp [Eff.lift]

@[simp] theorem Eff.lift_eq_raise {put : σ → τ} {x : Eff σ α} {c : Cause} {t : τ} :
    x.lift put = .raise c t ↔ ∃ s, x = .raise c s ∧ put s = t := by
  cases x <;> simp [Eff.lift]

@[simp] theorem Eff.lift_eq_fault {put : σ → τ} {x : Eff σ α} {f : Fault} :
    x.lift put = .fault f ↔ x = .fault f := by
  cases x <;> simp [Eff.lift]

@[simp] theorem Eff.lift_eq_refused {put : σ → τ} {x : Eff σ α} {r : Refusal} :
    x.lift put = .refused r ↔ x = .refused r := by
  cases x <;> simp [Eff.lift]

/-- A step's outcome is a next state when its operation completes or raises (R203). -/
theorem Eff.outcome_eq_next {x : Eff State α} {t : State} :
    x.outcome = .next t ↔ (∃ a, x = .ok a t) ∨ ∃ c u, x = .raise c u ∧ u.raise c = t := by
  cases x <;> simp [Eff.outcome]

theorem Eff.outcome_eq_fault {x : Eff State α} {f : Fault} : x.outcome = .fault f ↔ x = .fault f := by
  cases x <;> simp [Eff.outcome]

theorem Eff.outcome_eq_refused {x : Eff State α} {r : Refusal} : x.outcome = .refused r ↔ x = .refused r := by
  cases x <;> simp [Eff.outcome]

end

/-! ### Capacities -/

@[simp] theorem exceeds_none (n : Nat) : exceeds n none = false := rfl
@[simp] theorem exceeds_some (n m : Nat) : exceeds n (some m) = decide (m < n) := rfl
@[simp] theorem within_none (n : Nat) : within n none = true := rfl
@[simp] theorem within_some (n m : Nat) : within n (some m) = decide (n < m) := rfl

/-- A number within a capacity leaves every smaller one within it. -/
theorem exceeds_mono {a b : Nat} {cap : Option Nat} (hab : a ≤ b) (h : exceeds b cap = false) :
    exceeds a cap = false := by
  cases cap <;> simp_all; omega

/-! ### The width counter -/

section
variable (c : Codec) (s : Str)

@[simp] theorem Codec.tick_w : c.tick.w = c.w := by unfold Codec.tick; split <;> rfl
@[simp] theorem Codec.tick_c : c.tick.c = c.c := by unfold Codec.tick; split <;> rfl
@[simp] theorem Codec.tick_dict : c.tick.dict = c.dict := by unfold Codec.tick; split <;> rfl
@[simp] theorem Codec.tick_pend : c.tick.pend = c.pend := by unfold Codec.tick; split <;> rfl
@[simp] theorem Codec.tick_dictSize : c.tick.dictSize = c.dictSize := by unfold Codec.tick; split <;> rfl
@[simp] theorem Codec.tick_idx : c.tick.idx = c.idx := by unfold Codec.tick; split <;> rfl

/-- NUMBITS and ENLARGEIN after a TICK depend on nothing else. -/
theorem Codec.tick_widths : (c.tick.numBits, c.tick.enlargeIn) =
    if c.enlargeIn - 1 = 0 then (c.numBits + 1, 2 ^ c.numBits) else (c.numBits, c.enlargeIn - 1) := by
  unfold Codec.tick; split <;> rfl

/-- A TICK writes NUMBITS and ENLARGEIN only (R104). -/
theorem Codec.tick_eq : c.tick = { c with numBits := c.tick.numBits, enlargeIn := c.tick.enlargeIn } := by
  unfold Codec.tick; split <;> rfl

theorem Codec.tick_numBits_congr {c d : Codec} (h1 : c.numBits = d.numBits) (h2 : c.enlargeIn = d.enlargeIn) :
    c.tick.numBits = d.tick.numBits := by
  unfold Codec.tick; rw [h1, h2]; split <;> simp

theorem Codec.tick_enlargeIn_congr {c d : Codec} (h1 : c.numBits = d.numBits) (h2 : c.enlargeIn = d.enlargeIn) :
    c.tick.enlargeIn = d.tick.enlargeIn := by
  unfold Codec.tick; rw [h1, h2]; split <;> simp

/-- A TICK of a codec that has another's NUMBITS and ENLARGEIN. -/
theorem Codec.tick_of_widths {d : Codec} (h1 : d.numBits = c.numBits) (h2 : d.enlargeIn = c.enlargeIn) :
    d.tick = { d with numBits := c.tick.numBits, enlargeIn := c.tick.enlargeIn } := by
  rw [Codec.tick_eq, Codec.tick_numBits_congr h1 h2, Codec.tick_enlargeIn_congr h1 h2]

@[simp] theorem Codec.insert_w : (c.insert s).w = c.w := rfl
@[simp] theorem Codec.insert_c : (c.insert s).c = c.c := rfl
@[simp] theorem Codec.insert_dict : (c.insert s).dict = c.dict ++ [(s, c.dictSize)] := rfl
@[simp] theorem Codec.insert_pend : (c.insert s).pend = c.pend := rfl
@[simp] theorem Codec.insert_dictSize : (c.insert s).dictSize = c.dictSize + 1 := rfl
@[simp] theorem Codec.insert_numBits : (c.insert s).numBits = c.numBits := rfl
@[simp] theorem Codec.insert_enlargeIn : (c.insert s).enlargeIn = c.enlargeIn := rfl
@[simp] theorem Codec.insert_idx : (c.insert s).idx = c.idx := rfl

end

/-- An entry found in the dictionary stands in it. -/
theorem mem_of_dictLookup {d : List (Str × Nat)} {s : Str} {k : Nat} (h : dictLookup d s = some k) : (s, k) ∈ d := by
  induction d with
  | nil => simp [dictLookup] at h
  | cons e d ih =>
    obtain ⟨t, j⟩ := e
    simp only [dictLookup] at h
    split at h
    · simp_all
    · exact .tail _ (ih h)

/-- The lookup fails exactly for a string that is no key. -/
theorem dictLookup_eq_none {d : List (Str × Nat)} {s : Str} : dictLookup d s = none ↔ s ∉ d.map Prod.fst := by
  induction d with
  | nil => simp [dictLookup]
  | cons e d ih =>
    obtain ⟨t, j⟩ := e
    by_cases h : s = t <;> simp [dictLookup, h, ih]

/-! ### The packer: only CAPACITY can be raised (R80, R83) -/

theorem Packer.emitSym_cases (cap : Option Nat) (r : Symbol) (p : Packer) :
    (exceeds (p.sym.length + 1) cap = true ∧ p.emitSym cap r = .raise .capacity p) ∨
      (exceeds (p.sym.length + 1) cap = false ∧ p.emitSym cap r = .ok () { p with sym := p.sym ++ [r] }) := by
  unfold Packer.emitSym; split <;> simp_all

/-- An operation of the packer completes, or raises CAPACITY. -/
def Packer.Answers (x : Eff Packer Unit) : Prop := (∃ q, x = .ok () q) ∨ ∃ q, x = .raise .capacity q

theorem Packer.answers_bind {x : Eff Packer Unit} {k : Unit → Packer → Eff Packer Unit}
    (hx : Packer.Answers x) (hk : ∀ q, Packer.Answers (k () q)) : Packer.Answers (x.bind k) := by
  obtain ⟨q, rfl⟩ | ⟨q, rfl⟩ := hx
  · exact hk q
  · exact .inr ⟨q, rfl⟩

theorem Packer.packBit_answers (bpc : Nat) (cap : Option Nat) (b : Bool) (p : Packer) :
    Packer.Answers (p.packBit bpc cap b) := by
  unfold Packer.packBit
  dsimp only
  split
  · refine Packer.answers_bind ?_ fun q => .inl ⟨_, rfl⟩
    rcases Packer.emitSym_cases cap _ _ with ⟨-, h⟩ | ⟨-, h⟩ <;> rw [h]
    · exact .inr ⟨_, rfl⟩
    · exact .inl ⟨_, rfl⟩
  · exact .inl ⟨_, rfl⟩

theorem Packer.pack_answers (bpc : Nat) (cap : Option Nat) (code : Nat) :
    ∀ (w : Nat) (p : Packer), Packer.Answers (p.pack bpc cap code w)
  | 0, _ => .inl ⟨_, rfl⟩
  | w + 1, _ => Packer.answers_bind (Packer.packBit_answers ..) fun q => Packer.pack_answers bpc cap code w q

theorem Packer.packFields_answers (bpc : Nat) (cap : Option Nat) :
    ∀ (fs : List (Nat × Nat)) (p : Packer), Packer.Answers (p.packFields bpc cap fs)
  | [], _ => .inl ⟨_, rfl⟩
  | _ :: fs, _ => Packer.answers_bind (Packer.pack_answers ..) fun q => Packer.packFields_answers bpc cap fs q

theorem Packer.flush_answers (bpc : Nat) (cap : Option Nat) (p : Packer) : Packer.Answers (p.flush bpc cap) := by
  refine Packer.answers_bind ?_ fun q => .inl ⟨_, rfl⟩
  rcases Packer.emitSym_cases cap _ _ with ⟨-, h⟩ | ⟨-, h⟩ <;> rw [h]
  · exact .inr ⟨_, rfl⟩
  · exact .inl ⟨_, rfl⟩

/-- Packing a token changes the packer only, and raises nothing but CAPACITY. -/
theorem State.packToken_cases (s : State) (i : Instr) :
    (∃ q, s.packToken i = .ok () { s with pack := q }) ∨ ∃ q, s.packToken i = .raise .capacity { s with pack := q } := by
  unfold State.packToken
  obtain ⟨q, h⟩ | ⟨q, h⟩ := Packer.packFields_answers (bpcOf s.adapter) s.cfg.outMax
    (encodeFields s.codec.numBits i) s.pack <;> rw [h]
  · exact .inl ⟨q, rfl⟩
  · exact .inr ⟨q, rfl⟩

end Sys2Proof.Machine
end

