-- ==== Sys2Proof/Laws/Commands.lean ====
section
/-! SUPPORT. What the start step of a legal command can do (R180). -/

namespace Sys2Proof.Machine

/-- The start step's capacity test, as a proposition (R180). -/
theorem State.beyondCapacity_iff (s : State) (op : Op) (cmd : Byte) (a : Alphabet) :
    State.beyondCapacity op (s.latchCommand cmd op a) = true ↔ s.TooBig op := by
  unfold State.beyondCapacity State.TooBig
  simp only [State.latchCommand_lat, State.latchCommand_cfg, Bool.or_eq_true, Bool.and_eq_true]
  cases s.cfg.inMax <;> cases s.cfg.nkeysMax <;> simp

/-- The three ends of the start step (R180, R185). -/
theorem startCommand_cases (op : Op) (a : Alphabet) (s : State) :
    (s.TooBig op ∧ startCommand op a s = (s.latchCommand (commandWord op a) op a).raise .capacity) ∨
      (¬s.TooBig op ∧ s.regs.inLen = 0 ∧
        startCommand op a s = (s.started op a (scrAtStart op s.regs.nkeys) s.phase).endOk) ∨
      (¬s.TooBig op ∧ s.regs.inLen ≠ 0 ∧ startCommand op a s =
        s.started op a (scrAtStart op s.regs.nkeys) (firstPhase op (scrAtStart op s.regs.nkeys))) := by
  unfold startCommand
  by_cases h : s.TooBig op
  · exact .inl ⟨h, by simp [(State.beyondCapacity_iff s op _ a).2 h]⟩
  · have hf : State.beyondCapacity op (s.latchCommand (commandWord op a) op a) = false := by
      rw [← Bool.not_eq_true, State.beyondCapacity_iff]; exact h
    simp only [hf]
    simp [State.started, State.latchCommand, State.initWorking, State.clearReport, Codec.start, Packer.start,
      Reader.start, Decoder.start, h]
    by_cases h0 : s.regs.inLen = 0 <;> simp [h0]

/-- The instruction is a host command, not a token. -/
def isCommand (i : Instr) : Bool :=
  match i with
  | .compress _ | .decompress _ | .compressScrambled | .decompressScrambled => true
  | .firstLit8 _ | .firstLit16 _ | .lit8 _ | .lit16 _ | .eos | .ref _ => false

/-- A command word decodes to a host command (R61). -/
theorem decodeCommand_isCommand {c : Byte} {i : Instr} (h : decodeCommand c = some i) : isCommand i = true := by
  unfold decodeCommand at h
  split at h
  · revert h
    generalize opOf (opField c) = op
    generalize alphaOf (alphaField c) = a
    cases op <;> cases a <;> simp [commandOf] <;> rintro rfl <;> rfl
  · cases h

end Sys2Proof.Machine
end

