-- ==== Sys2Proof/Laws/Decode.lean ====
section
/-! SUPPORT. Reading a field of the bit stream, and the bits of a field: each says what the other does. -/

namespace Sys2Proof

@[simp] theorem fieldBits_length (v w : Nat) : (fieldBits v w).length = w := by
  induction w with
  | zero => rfl
  | succ w ih => simp [fieldBits, ih]

/-- Reading back the bits of a field gives its low `w` bits onto the accumulator (R68, R81). -/
theorem takeField_fieldBits (v : Nat) (rest : List Bool) : ∀ (w acc : Nat),
    takeField w acc (fieldBits v w ++ rest) = some (acc * 2 ^ w + v % 2 ^ w, rest) := by
  intro w
  induction w with
  | zero => intro acc; simp [takeField, fieldBits, Nat.mod_one]
  | succ w ih =>
    intro acc
    simp only [fieldBits, List.cons_append, takeField, ih]
    congr 2
    rw [Nat.mod_pow_succ (b := 2), Nat.testBit_eq_decide_div_mod_eq]
    rcases Nat.mod_two_eq_zero_or_one (v / 2 ^ w) with h | h <;> simp [h, pow_succ] <;> ring

/-- The same from an empty accumulator, for a value that fits its width. -/
theorem takeField_of_lt {w v : Nat} (rest : List Bool) (h : v < 2 ^ w) :
    takeField w 0 (fieldBits v w ++ rest) = some (v, rest) := by
  rw [takeField_fieldBits]; simp [Nat.mod_eq_of_lt h]

/-- What reading a field consumed is the field's own bits, below whatever was accumulated. -/
theorem takeField_eq_some : ∀ (w acc : Nat) {bits rest : List Bool} {v : Nat}, takeField w acc bits = some (v, rest) →
    ∃ x, x < 2 ^ w ∧ v = acc * 2 ^ w + x ∧ bits = fieldBits x w ++ rest := by
  intro w
  induction w with
  | zero => intro acc bits rest v h; simp [takeField] at h; exact ⟨0, by simp [h, fieldBits]⟩
  | succ w ih =>
    intro acc bits rest v h
    cases bits with
    | nil => simp [takeField] at h
    | cons b bits =>
      simp only [takeField] at h
      obtain ⟨x, hx, hv, rfl⟩ := ih _ h
      refine ⟨b.toNat * 2 ^ w + x, ?_, ?_, ?_⟩
      · cases b <;> simp [pow_succ] <;> omega
      · rw [hv]; ring
      · have low : ∀ n ≤ w, fieldBits (b.toNat * 2 ^ w + x) n = fieldBits x n := by
          intro n hn
          induction n with
          | zero => rfl
          | succ n ihn =>
            simp only [fieldBits, ihn (by omega)]
            congr 1
            rw [Nat.mul_comm, Nat.testBit_two_pow_mul_add _ hx]; simp; omega
        have top : (b.toNat * 2 ^ w + x).testBit w = b := by
          rw [Nat.mul_comm, Nat.testBit_two_pow_mul_add _ hx]; cases b <;> simp
        simp only [fieldBits, top, low w le_rfl, List.cons_append]

/-- Reading a field fails exactly where the stream is shorter than it. -/
theorem takeField_eq_none : ∀ (w acc : Nat) {bits : List Bool}, takeField w acc bits = none ↔ bits.length < w
  | 0, _, _ => by simp [takeField]
  | w + 1, _, [] => by simp [takeField]
  | w + 1, acc, b :: bits => by simp [takeField, takeField_eq_none w]

/-- One more bit at the low end of a value is one more bit at the end of its field. -/
theorem fieldBits_append_bit (v : Nat) (b : Bool) : ∀ w : Nat, fieldBits (2 * v + b.toNat) (w + 1) = fieldBits v w ++ [b]
  | 0 => by cases b <;> simp [fieldBits, Nat.testBit_zero]
  | w + 1 => by
    have h : (2 * v + b.toNat).testBit (w + 1) = v.testBit w := by
      rw [Nat.testBit_succ]; congr 1; cases b <;> simp <;> omega
    rw [fieldBits, h, fieldBits_append_bit v b w, fieldBits, List.cons_append]

/-- A value moved left by `j` fills its field's end with zeros (R84). -/
theorem fieldBits_mul_pow (v w : Nat) : ∀ j : Nat, fieldBits (v * 2 ^ j) (w + j) = fieldBits v w ++ List.replicate j false
  | 0 => by simp
  | j + 1 => by
    have h : v * 2 ^ (j + 1) = 2 * (v * 2 ^ j) + false.toNat := by simp [pow_succ]; ring
    rw [h, ← Nat.add_assoc, fieldBits_append_bit, fieldBits_mul_pow v w j, List.append_assoc, List.replicate_succ']

end Sys2Proof
end

