-- ==== Sys2Proof/Laws/Packer.lean ====
section
/-! SUPPORT. What the packer's operations do to the bits packed so far (R80 to R84). -/

namespace Sys2Proof.Machine

theorem bpcOf_range (a : Adapter) : 1 ≤ bpcOf a ∧ bpcOf a ≤ 16 := by cases a <;> decide

/-- PVAL with a bit shifted in, while the invariant keeps it below 2^15. -/
theorem Packer.pval_shift {bpc : Nat} {p : Packer} (hb : bpc ≤ 16) (h : p.Sound bpc) (b : Bool) :
    ((p.pval <<< 1) ||| (BitVec.ofBool b).setWidth 16).toNat = 2 * p.pval.toNat + b.toNat := by
  obtain ⟨h1, h2⟩ := h
  have h3 : 2 ^ p.ppos ≤ 2 ^ 15 := Nat.pow_le_pow_right (by decide) (by omega)
  have h4 : p.pval.toNat <<< 1 % 2 ^ 16 = 2 * p.pval.toNat := by rw [Nat.shiftLeft_eq]; omega
  have h5 : ((BitVec.ofBool b).setWidth 16 : BitVec 16).toNat = b.toNat := by cases b <;> rfl
  rw [BitVec.toNat_or, BitVec.toNat_shiftLeft, h4, h5]
  cases b
  · simp
  · have h6 := Nat.two_pow_add_eq_or_of_lt (i := 1) (b := 1) (by decide) p.pval.toNat
    simp at h6; simpa using h6.symm

theorem Packer.emitSym_ok {cap : Option Nat} {r : Symbol} {p q : Packer} {u : Unit} (h : p.emitSym cap r = .ok u q) :
    q = { p with sym := p.sym ++ [r] } := by
  rcases Packer.emitSym_cases cap r p with ⟨-, e⟩ | ⟨-, e⟩ <;> rw [e] at h <;> cases h
  rfl

/-- PACKBIT, where it completes, appends its bit and keeps the invariant and the symbols' range (R80). -/
theorem Packer.packBit_ok {bpc : Nat} {cap : Option Nat} {b : Bool} {p q : Packer} {u : Unit} (hb : 1 ≤ bpc)
    (hb2 : bpc ≤ 16) (h : p.Sound bpc) (e : p.packBit bpc cap b = .ok u q) :
    q.Sound bpc ∧ q.bits bpc = p.bits bpc ++ [b] ∧
      ((∀ r ∈ p.sym, r.toNat < 2 ^ bpc) → ∀ r ∈ q.sym, r.toNat < 2 ^ bpc) := by
  have hv := Packer.pval_shift hb2 h b
  have hbits := fieldBits_append_bit p.pval.toNat b p.ppos
  rw [← hv] at hbits
  obtain ⟨h1, h2⟩ := h
  have hbt : b.toNat ≤ 1 := by cases b <;> decide
  have hpow : 2 ^ (p.ppos + 1) = 2 * 2 ^ p.ppos := by ring
  unfold Packer.packBit at e
  dsimp only at e
  split at e
  · rename_i hp
    have hp : bpc = p.ppos + 1 := by omega
    obtain ⟨a, r, e1, e2⟩ := Eff.bind_eq_ok.1 e
    rw [Packer.emitSym_ok e1] at e2
    cases e2
    refine ⟨⟨by show 0 < bpc; omega, by simp⟩, ?_, fun hs r hr => ?_⟩
    · subst hp
      simp only [Packer.bits, List.flatMap_append, List.flatMap_cons, List.flatMap_nil, List.append_nil, hbits]
      simp [fieldBits]
    · rw [List.mem_append, List.mem_singleton] at hr
      rcases hr with hr | rfl
      · exact hs r hr
      · subst hp; rw [hv]; omega
  · cases e
    refine ⟨⟨by dsimp only; omega, by dsimp only; omega⟩, ?_, fun hs => hs⟩
    simp only [Packer.bits, hbits, List.append_assoc]

/-- PACKBIT completes or raises CAPACITY, as the symbol it may complete is within OUT_MAX or beyond (R80, R83). -/
theorem Packer.packBit_capacity {bpc : Nat} {p : Packer} (hb : 1 ≤ bpc) (h : p.Sound bpc) (cap : Option Nat) (b : Bool) :
    (p.overflows bpc cap 1 = false ∧ ∃ q, p.packBit bpc cap b = .ok () q ∧ q.ppos = (p.ppos + 1) % bpc ∧
        q.sym.length = p.symbolsAfter bpc 1 ∧ p.sym <+: q.sym) ∨
      (p.overflows bpc cap 1 = true ∧ exceeds (p.sym.length + 1) cap = true ∧
        ∃ q, p.packBit bpc cap b = .raise .capacity q ∧ q.sym = p.sym) := by
  have h1 := h.1
  by_cases hp : p.ppos = bpc - 1
  · have hn : p.ppos + 1 = bpc := by omega
    have hd : (p.ppos + 1) / bpc = 1 := by rw [hn]; exact Nat.div_self hb
    have hm : (p.ppos + 1) % bpc = 0 := by rw [hn]; exact Nat.mod_self _
    have ho : p.overflows bpc cap 1 = exceeds (p.sym.length + 1) cap := by
      rw [Packer.overflows, Packer.symbolsAfter, hd, hn]; simp
    cases he : exceeds (p.sym.length + 1) cap
    · have : ∃ q, p.packBit bpc cap b = .ok () q ∧ q.ppos = 0 ∧ ∃ r, q.sym = p.sym ++ [r] := by
        simp [Packer.packBit, hp, Packer.emitSym, he]
      obtain ⟨q, e1, e2, r, e3⟩ := this
      exact .inl ⟨by rw [ho, he], q, e1, by rw [e2, hm], by simp [e3, Packer.symbolsAfter, hd], e3 ▸ List.prefix_append ..⟩
    · have : ∃ q, p.packBit bpc cap b = .raise .capacity q ∧ q.sym = p.sym := by
        simp [Packer.packBit, hp, Packer.emitSym, he]
      exact .inr ⟨by rw [ho, he], rfl, this⟩
  · have hl : p.ppos + 1 < bpc := by omega
    have : ∃ q, p.packBit bpc cap b = .ok () q ∧ q.ppos = p.ppos + 1 ∧ q.sym = p.sym := by simp [Packer.packBit, hp]
    obtain ⟨q, e1, e2, e3⟩ := this
    exact .inl ⟨by simp [Packer.overflows]; omega, q, e1, by rw [e2, Nat.mod_eq_of_lt hl],
      by simp [e3, Packer.symbolsAfter, Nat.div_eq_of_lt hl], e3 ▸ List.prefix_refl _⟩

/-- PACK, where it completes, keeps the invariant and the symbols' range (R81). -/
theorem Packer.pack_ok {bpc : Nat} {cap : Option Nat} {code : Nat} (hb : 1 ≤ bpc) (hb2 : bpc ≤ 16) :
    ∀ (w : Nat) {p q : Packer} {u : Unit}, p.Sound bpc → p.pack bpc cap code w = .ok u q →
      q.Sound bpc ∧ ((∀ r ∈ p.sym, r.toNat < 2 ^ bpc) → ∀ r ∈ q.sym, r.toNat < 2 ^ bpc)
  | 0, _, _, _, h, e => by cases e; exact ⟨h, id⟩
  | w + 1, _, _, _, h, e => by
    obtain ⟨a, r, e1, e2⟩ := Eff.bind_eq_ok.1 e
    obtain ⟨h1, -, h2⟩ := Packer.packBit_ok hb hb2 h e1
    obtain ⟨h3, h4⟩ := Packer.pack_ok hb hb2 w h1 e2
    exact ⟨h3, fun hs => h4 (h2 hs)⟩

theorem Packer.packFields_ok {bpc : Nat} {cap : Option Nat} (hb : 1 ≤ bpc) (hb2 : bpc ≤ 16) :
    ∀ (fs : List (Nat × Nat)) {p q : Packer} {u : Unit}, p.Sound bpc → p.packFields bpc cap fs = .ok u q →
      q.Sound bpc ∧ ((∀ r ∈ p.sym, r.toNat < 2 ^ bpc) → ∀ r ∈ q.sym, r.toNat < 2 ^ bpc)
  | [], _, _, _, h, e => by cases e; exact ⟨h, id⟩
  | f :: fs, _, _, _, h, e => by
    obtain ⟨a, r, e1, e2⟩ := Eff.bind_eq_ok.1 e
    obtain ⟨h1, h2⟩ := Packer.pack_ok hb hb2 _ h e1
    obtain ⟨h3, h4⟩ := Packer.packFields_ok hb hb2 fs h1 e2
    exact ⟨h3, fun hs => h4 (h2 hs)⟩

/-- The symbol FLUSH emits, as a number: the held bits moved to its top (R84). -/
theorem Packer.flush_symbol {bpc : Nat} {p : Packer} (hb2 : bpc ≤ 16) (h : p.Sound bpc) :
    (p.pval <<< (bpc - p.ppos)).toNat = p.pval.toNat * 2 ^ (bpc - p.ppos) ∧
      p.pval.toNat * 2 ^ (bpc - p.ppos) < 2 ^ bpc := by
  obtain ⟨h1, h2⟩ := h
  have h3 : 2 ^ bpc = 2 ^ p.ppos * 2 ^ (bpc - p.ppos) := by rw [← pow_add]; congr 1; omega
  have h4 : p.pval.toNat * 2 ^ (bpc - p.ppos) < 2 ^ bpc := by
    rw [h3]; exact Nat.mul_lt_mul_of_pos_right h2 (by positivity)
  have h5 : 2 ^ bpc ≤ 2 ^ 16 := Nat.pow_le_pow_right (by decide) hb2
  refine ⟨?_, h4⟩
  rw [BitVec.toNat_shiftLeft, Nat.shiftLeft_eq, Nat.mod_eq_of_lt (by omega)]

/-- FLUSH, where it completes, adds that one symbol and empties PVAL (R84). -/
theorem Packer.flush_ok {bpc : Nat} {cap : Option Nat} {p q : Packer} {u : Unit} (e : p.flush bpc cap = .ok u q) :
    q = { pval := 0, ppos := 0, sym := p.sym ++ [p.pval <<< (bpc - p.ppos)] } := by
  obtain ⟨a, r, e1, e2⟩ := Eff.bind_eq_ok.1 e
  rw [Packer.emitSym_ok e1] at e2
  cases e2
  rfl

/-- Packing a token, where it completes, changes the packer only, and keeps its invariant. -/
theorem State.packToken_ok {s t : State} {i : Instr} {u : Unit} (e : s.packToken i = .ok u t) :
    ∃ q, t = { s with pack := q } ∧
      s.pack.packFields (bpcOf s.adapter) s.cfg.outMax (encodeFields s.codec.numBits i) = .ok () q := by
  obtain ⟨q, h, rfl⟩ := Eff.lift_eq_ok.1 e
  exact ⟨q, rfl, h⟩

end Sys2Proof.Machine
end

