-- ==== Sys2Proof/Laws/Encoder.lean ====
section
/-! SUPPORT. What the encoder's shared operations answer where they complete (R101 to R107). -/

namespace Sys2Proof.Machine

theorem State.insertEntry_ok {s t : State} {e : Str} {u : Unit} (h : s.insertEntry e = .ok u t) :
    t = { s with codec := s.codec.insert e } := by
  unfold State.insertEntry at h; split at h <;> cases h
  rfl

/-- Inserting raises CAPACITY only, and changes nothing then (R47, R103). -/
theorem State.insertEntry_raise {s t : State} {e : Str} {c : Cause} (h : s.insertEntry e = .raise c t) :
    c = .capacity ∧ t = s := by
  unfold State.insertEntry at h; split at h <;> cases h
  exact ⟨rfl, rfl⟩

/-- Part 1 of ENC_STEP (R101). -/
theorem State.insertUnit_ok {s t : State} {u : CodeUnit} {a : Unit} (h : s.insertUnit u = .ok a t) :
    (t = s ∧ ∃ k, dictLookup s.codec.dict [u] = some k) ∨
      (dictLookup s.codec.dict [u] = none ∧
        t = { s with codec := { s.codec.insert [u] with pend := s.codec.pend ++ [u] } }) := by
  unfold State.insertUnit at h
  split at h
  · cases h; exact .inl ⟨rfl, _, ‹_›⟩
  · obtain ⟨_, t1, e1, e2⟩ := Eff.bind_eq_ok.1 h
    rw [State.insertEntry_ok e1] at e2
    cases e2
    exact .inr ⟨‹_›, rfl⟩

/-- EMIT (R106), where it completes: one token packed, then its TICKs, and a pending unit pending no more. -/
theorem State.emit_ok {s t : State} {a : Unit} (h : s.emit = .ok a t) : ∃ (tok : Instr) (q : Packer),
    s.packToken tok = .ok () { s with pack := q } ∧
      ((∃ v, pendingUnit s.codec.w s.codec.pend = some v ∧ tok = literalToken v ∧
          t = { s with pack := q, codec := { s.codec.tick with pend := clearPending v s.codec.pend }.tick }) ∨
        (∃ k, pendingUnit s.codec.w s.codec.pend = none ∧ dictLookup s.codec.dict s.codec.w = some k ∧ tok = .ref k ∧
          t = { s with pack := q, codec := s.codec.tick })) := by
  unfold State.emit at h
  split at h
  · rename_i v hv
    obtain ⟨_, t1, e1, e2⟩ := Eff.bind_eq_ok.1 h
    obtain ⟨q, rfl, -⟩ := State.packToken_ok e1
    cases e2
    exact ⟨literalToken v, q, e1, .inl ⟨v, hv, rfl, by simp⟩⟩
  · rename_i hv
    split at h
    · cases h
    · rename_i k hk
      obtain ⟨_, t1, e1, e2⟩ := Eff.bind_eq_ok.1 h
      obtain ⟨q, rfl, -⟩ := State.packToken_ok e1
      cases e2
      exact ⟨.ref k, q, e1, .inr ⟨k, hv, hk, rfl, rfl⟩⟩

theorem pendingUnit_eq_some {s : Str} {pend : List CodeUnit} {v : CodeUnit} :
    pendingUnit s pend = some v ↔ s = [v] ∧ v ∈ pend := by
  unfold pendingUnit
  split
  · rename_i u
    by_cases h : u ∈ pend
    · simp [h]; rintro rfl; exact h
    · simp [h]; rintro rfl; exact h
  · rename_i h
    simp only [reduceCtorEq, false_iff, not_and]
    intro hs; exact absurd hs (h v)

theorem literalToken_eq (v : CodeUnit) :
    literalToken v = if v.toNat < 256 then .lit8 (BitVec.ofNat 8 v.toNat) else .lit16 v := by
  have : v.setWidth 8 = BitVec.ofNat 8 v.toNat := by apply BitVec.eq_of_toNat_eq; simp
  rw [literalToken, this]

/-- EMIT (R106) on a W whose token is `tok`: it packs `tok`, and then the codec is one that depends on no packing: its
TICKs done, W's unit pending no more, all else as it was. -/
theorem State.emit_of_emits {s : State} {tok : Instr} (h : s.Emits tok) : ∃ c : Codec,
    s.emit = (s.packToken tok).bind (fun _ t => .ok () { t with codec := c }) ∧
      (∀ v, v ∈ c.pend ↔ v ∈ s.codec.pend ∧ s.codec.w ≠ [v]) ∧
      c = { s.codec with
        pend := c.pend, numBits := (Nat.iterate Codec.tick (tokenTicks tok) s.codec).numBits
        enlargeIn := (Nat.iterate Codec.tick (tokenTicks tok) s.codec).enlargeIn } := by
  have frame : ∀ (i : Instr) (f : Codec → Codec),
      (s.packToken i).bind (fun _ t => .ok () { t with codec := f t.codec }) =
        (s.packToken i).bind fun _ t => Eff.ok () { t with codec := f s.codec } := by
    intro i f
    cases e : s.packToken i with
    | ok a t => obtain ⟨q, rfl, -⟩ := State.packToken_ok e; rfl
    | _ => rfl
  obtain ⟨k, hk, ⟨v, hw, hv, rfl⟩ | ⟨hn, rfl⟩⟩ := h
  · refine ⟨{ s.codec.tick with pend := clearPending v s.codec.pend }.tick, ?_, fun x => ?_, ?_⟩
    · have := frame (literalToken v) fun c => { c.tick with pend := clearPending v c.tick.pend }.tick
      simp only [Codec.tick_pend] at this
      rw [← literalToken_eq, ← this]
      simp [State.emit, pendingUnit_eq_some.2 ⟨hw, hv⟩]
    · simp only [Codec.tick_pend, clearPending, List.mem_filter, bne_iff_ne, ne_eq, hw, List.cons.injEq, and_true]
      exact and_congr_right fun _ => not_congr eq_comm
    · have : tokenTicks (if v.toNat < 256 then .lit8 (BitVec.ofNat 8 v.toNat) else .lit16 v) = 2 := by split <;> rfl
      rw [this]
      simp only [Nat.iterate]
      rw [Codec.tick_of_widths s.codec.tick (d := { s.codec.tick with pend := clearPending v s.codec.pend }) rfl rfl]
      simp
  · have hp : pendingUnit s.codec.w s.codec.pend = none :=
      Option.eq_none_iff_forall_ne_some.2 fun v hv => hn ⟨v, pendingUnit_eq_some.1 hv⟩
    refine ⟨s.codec.tick, ?_, fun x => ?_, ?_⟩
    · rw [← frame (.ref k) Codec.tick]
      simp [State.emit, hp, hk]
    · rw [Codec.tick_pend]
      exact ⟨fun hx => ⟨hx, fun hw => hn ⟨x, hw, hx⟩⟩, And.left⟩
    · conv_lhs => rw [Codec.tick_eq]
      simp [tokenTicks]

/-- EMIT raises CAPACITY only (R202). -/
theorem State.emit_raise {s t : State} {c : Cause} (h : s.emit = .raise c t) : c = .capacity := by
  have pack : ∀ (i : Instr) (k : Unit → State → Eff State Unit), (∀ a u d v, k a u ≠ .raise d v) →
      (s.packToken i).bind k = .raise c t → c = .capacity := by
    intro i k hk h
    rcases Eff.bind_eq_raise.1 h with h | ⟨a, u, -, h⟩
    · rcases State.packToken_cases s i with ⟨q, e⟩ | ⟨q, e⟩ <;> rw [e] at h <;> cases h
      rfl
    · exact absurd h (hk _ _ _ _)
  unfold State.emit at h
  split at h
  · exact pack _ _ (fun _ _ _ _ => by simp) h
  · split at h
    · cases h
    · exact pack _ _ (fun _ _ _ _ => by simp) h

end Sys2Proof.Machine
end

