-- ==== Sys2Proof/Laws/Memory.lean ====
section
/-! SUPPORT. The laws of the sparse stores: a read after a write, and that every operation keeps the
canonical form. -/

namespace Sys2Proof.Machine

section
variable {α : Type}

/-- Indexes strictly rising. -/
abbrev Rising (m : List (Nat × α)) : Prop := m.Pairwise fun a b => a.1 < b.1

theorem sparseRead_write_same (m : List (Nat × α)) (i : Nat) (a : α) : sparseRead (sparseWrite m i a) i = some a := by
  induction m with
  | nil => simp [sparseWrite, sparseRead]
  | cons e m ih =>
    obtain ⟨j, v⟩ := e
    simp only [sparseWrite]
    split
    · simp [sparseRead]
    · split <;> simp [sparseRead, *]

theorem sparseRead_write_other (m : List (Nat × α)) {i j : Nat} (a : α) (h : j ≠ i) :
    sparseRead (sparseWrite m i a) j = sparseRead m j := by
  induction m with
  | nil => simp [sparseWrite, sparseRead, h]
  | cons e m ih =>
    obtain ⟨k, v⟩ := e
    simp only [sparseWrite]
    split
    · simp [sparseRead, h]
    · split
      · rename_i hk; subst hk; simp [sparseRead, h]
      · simp [sparseRead, ih]

theorem mem_sparseWrite {m : List (Nat × α)} {i : Nat} {a : α} {e : Nat × α} (h : e ∈ sparseWrite m i a) :
    e = (i, a) ∨ e ∈ m := by
  induction m with
  | nil => simpa [sparseWrite] using h
  | cons x m ih =>
    obtain ⟨j, v⟩ := x
    simp only [sparseWrite] at h
    split at h
    · simpa using h
    · split at h
      · rcases List.mem_cons.1 h with h | h
        · exact .inl h
        · exact .inr (.tail _ h)
      · rcases List.mem_cons.1 h with h | h
        · exact .inr (by simp [h])
        · exact (ih h).imp id (.tail _)

theorem sparseWrite_rising {m : List (Nat × α)} (i : Nat) (a : α) (h : Rising m) : Rising (sparseWrite m i a) := by
  induction m with
  | nil => simp [sparseWrite]
  | cons e m ih =>
    obtain ⟨j, v⟩ := e
    have hm := List.pairwise_cons.1 h
    simp only [sparseWrite]
    split
    · rename_i hij
      refine List.pairwise_cons.2 ⟨fun e he => ?_, h⟩
      rcases List.mem_cons.1 he with rfl | he
      · exact hij
      · exact hij.trans (hm.1 e he)
    · split
      · rename_i hij; subst hij; exact List.pairwise_cons.2 hm
      · refine List.pairwise_cons.2 ⟨fun e he => ?_, ih hm.2⟩
        rcases mem_sparseWrite he with rfl | he
        · simp only; omega
        · exact hm.1 e he

theorem sparseErase_sublist (m : List (Nat × α)) (i : Nat) : (sparseErase m i).Sublist m := by
  induction m with
  | nil => simp [sparseErase]
  | cons e m ih =>
    obtain ⟨j, v⟩ := e
    simp only [sparseErase]
    split
    · exact List.sublist_cons_self ..
    · exact ih.cons_cons _

theorem sparseErase_rising {m : List (Nat × α)} (i : Nat) (h : Rising m) : Rising (sparseErase m i) :=
  h.sublist (sparseErase_sublist m i)

theorem sparseRead_eq_none_of_lt {m : List (Nat × α)} {i : Nat} (h : ∀ e ∈ m, i < e.1) : sparseRead m i = none := by
  induction m with
  | nil => rfl
  | cons e m ih =>
    obtain ⟨j, v⟩ := e
    have h0 : i < j := h (j, v) (by simp)
    simp [sparseRead, Nat.ne_of_lt h0, ih fun e he => h e (.tail _ he)]

theorem sparseRead_erase_same {m : List (Nat × α)} (i : Nat) (h : Rising m) : sparseRead (sparseErase m i) i = none := by
  induction m with
  | nil => rfl
  | cons e m ih =>
    obtain ⟨j, v⟩ := e
    have hm := List.pairwise_cons.1 h
    simp only [sparseErase]
    split
    · rename_i hij; subst hij; exact sparseRead_eq_none_of_lt hm.1
    · rename_i hij; simp [sparseRead, hij, ih hm.2]

theorem sparseRead_erase_other (m : List (Nat × α)) {i j : Nat} (h : j ≠ i) :
    sparseRead (sparseErase m i) j = sparseRead m j := by
  induction m with
  | nil => rfl
  | cons e m ih =>
    obtain ⟨k, v⟩ := e
    simp only [sparseErase]
    split
    · rename_i hik; subst hik; simp [sparseRead, h]
    · simp [sparseRead, ih]

end

/-! ### Buffers -/

@[simp] theorem Memory.read_write_same (m : Memory) (i : Nat) (u : CodeUnit) : (m.write i u).read i = some u :=
  sparseRead_write_same m i u

theorem Memory.read_write_other (m : Memory) {i j : Nat} (u : CodeUnit) (h : j ≠ i) : (m.write i u).read j = m.read j :=
  sparseRead_write_other m u h

theorem Memory.write_wf {m : Memory} (i : Nat) (u : CodeUnit) (h : m.wf) : (m.write i u).wf :=
  sparseWrite_rising i u h

theorem Memory.writeFrom_wf {m : Memory} (us : List CodeUnit) : ∀ (i : Nat), m.wf → (m.writeFrom i us).wf := by
  induction us generalizing m with
  | nil => exact fun _ h => h
  | cons u us ih => exact fun i h => ih (i + 1) (Memory.write_wf i u h)

/-- A run of units written from `i` on reads back, and every other index reads as before. -/
theorem Memory.read_writeFrom (us : List CodeUnit) : ∀ (m : Memory) (i j : Nat),
    (m.writeFrom i us).read j = if i ≤ j ∧ j < i + us.length then us[j - i]? else m.read j := by
  induction us with
  | nil => intro m i j; simp [Memory.writeFrom]
  | cons u us ih =>
    intro m i j
    simp only [Memory.writeFrom, ih, List.length_cons]
    by_cases hj : j = i
    · subst hj; simp
    · rw [Memory.read_write_other m u hj]
      by_cases h : i ≤ j ∧ j < i + (us.length + 1)
      · have h1 : i + 1 ≤ j ∧ j < i + 1 + us.length := by omega
        have h2 : j - i = (j - (i + 1)) + 1 := by omega
        rw [if_pos h1, if_pos h, h2, List.getElem?_cons_succ]
      · have h1 : ¬(i + 1 ≤ j ∧ j < i + 1 + us.length) := by omega
        rw [if_neg h1, if_neg h]

/-! ### The KEY registers -/

theorem KeyFile.write_wf {k : KeyFile} (i : Nat) (v : Word64) (h : k.wf) : (k.write i v).wf := by
  unfold KeyFile.write
  split
  · exact ⟨sparseErase_rising i h.1, fun e he => h.2 e ((sparseErase_sublist k i).mem he)⟩
  · rename_i hv
    refine ⟨sparseWrite_rising i v h.1, fun e he => ?_⟩
    rcases mem_sparseWrite he with rfl | he
    · exact hv
    · exact h.2 e he

theorem KeyFile.read_write_same {k : KeyFile} (i : Nat) (v : Word64) (h : k.wf) : (k.write i v).read i = v := by
  unfold KeyFile.write KeyFile.read
  split
  · rename_i hv; simp [sparseRead_erase_same i h.1, hv]
  · simp [sparseRead_write_same]

theorem KeyFile.read_write_other (k : KeyFile) {i j : Nat} (v : Word64) (h : j ≠ i) :
    (k.write i v).read j = k.read j := by
  unfold KeyFile.write KeyFile.read
  split
  · rw [sparseRead_erase_other k h]
  · rw [sparseRead_write_other k v h]

end Sys2Proof.Machine
end

