-- ==== Sys2Proof/Laws/PerInstr.lean ====
section
/-! SUPPORT. A law of every instruction, one lemma a constructor: how many bits its encoding has where it stands. -/

namespace Sys2Proof.Laws.EncodeLength

/-- The length of an instruction with a code field of `n` bits (R61, R69). -/
def bitsOf (n : Nat) (i : Instr) : Nat :=
  match i with
  | .compress _ | .decompress _ | .compressScrambled | .decompressScrambled => 8
  | .firstLit8 _ => 10
  | .firstLit16 _ => 18
  | .lit8 _ => n + 8
  | .lit16 _ => n + 16
  | .eos => n
  | .ref _ => n

/-- The encoding has exactly the length the instruction's form gives it (R61, R69). -/
def Statement (i : Instr) : Prop := ∀ c : FetchContext, i.fitsPlace c = true → (encode c i).length = bitsOf c.numBits i

theorem compress (a : Alphabet) : Statement (.compress a) := fun _ _ => by simp [encode, encodeFields, bitsOf]

theorem decompress (a : Alphabet) : Statement (.decompress a) := fun _ _ => by simp [encode, encodeFields, bitsOf]

theorem compressScrambled : Statement .compressScrambled := fun _ _ => by simp [encode, encodeFields, bitsOf]

theorem decompressScrambled : Statement .decompressScrambled := fun _ _ => by simp [encode, encodeFields, bitsOf]

theorem firstLit8 (v : BitVec 8) : Statement (.firstLit8 v) := fun _ _ => by simp [encode, encodeFields, bitsOf]

theorem firstLit16 (v : BitVec 16) : Statement (.firstLit16 v) := fun _ _ => by simp [encode, encodeFields, bitsOf]

theorem lit8 (v : BitVec 8) : Statement (.lit8 v) := fun _ _ => by simp [encode, encodeFields, bitsOf]

theorem lit16 (v : BitVec 16) : Statement (.lit16 v) := fun _ _ => by simp [encode, encodeFields, bitsOf]

theorem eos : Statement .eos := fun _ _ => by simp [encode, encodeFields, bitsOf]

theorem ref (k : Nat) : Statement (.ref k) := fun _ _ => by simp [encode, encodeFields, bitsOf]

end Sys2Proof.Laws.EncodeLength
end

