-- ==== Sys2Proof/Laws/Reader.lean ====
section
/-! SUPPORT. What the bit reader does to the bits still unread (R85 to R87). -/

namespace Sys2Proof.Machine

/-- The bits a reader has still to read of `nL` symbols. -/
def Reader.stream (bpc nL : Nat) (src : Nat → Load) (r : Reader) : List Bool :=
  fieldBits r.rval.toNat r.bitsLeft ++ streamFrom bpc src (nL - r.ridx) r.ridx

/-- The reader's own invariant (R17): the cursor inside the input, the mask 0 or one of the symbol's bits. -/
def Reader.Legal (bpc nL : Nat) (r : Reader) : Prop :=
  r.ridx ≤ nL ∧ (r.rmask = 0 ∨ ∃ j < bpc, r.rmask = BitVec.ofNat 16 (2 ^ j))

theorem State.unreadBits_eq (s : State) :
    s.unreadBits = s.read.stream (bpcOf s.adapter) s.lat.nL s.nextSym := rfl

/-- A mask of one bit: how many bits are left, which bit is read, and the mask after. -/
theorem Reader.mask_facts {j : Nat} (hj : j < 16) (v : Symbol) :
    BitVec.ofNat 16 (2 ^ j) ≠ 0 ∧ Nat.log2 (BitVec.ofNat 16 (2 ^ j)).toNat = j ∧
      (v &&& BitVec.ofNat 16 (2 ^ j) != 0) = v.toNat.testBit j ∧
      (BitVec.ofNat 16 (2 ^ j)) >>> 1 = if j = 0 then 0 else BitVec.ofNat 16 (2 ^ (j - 1)) := by
  have key : ∀ j < 16, BitVec.ofNat 16 (2 ^ j) ≠ 0 ∧ Nat.log2 (BitVec.ofNat 16 (2 ^ j)).toNat = j ∧
      (BitVec.ofNat 16 (2 ^ j)) >>> 1 = if j = 0 then 0 else BitVec.ofNat 16 (2 ^ (j - 1)) := by decide
  obtain ⟨h1, h2, h3⟩ := key j hj
  refine ⟨h1, h2, ?_, h3⟩
  have hone : BitVec.ofNat 16 (2 ^ j) = BitVec.twoPow 16 j := by
    apply BitVec.eq_of_toNat_eq; simp [BitVec.toNat_twoPow]
  rw [hone, BitVec.and_twoPow, ← BitVec.testBit_toNat]
  have h4 : BitVec.twoPow 16 j ≠ 0 := hone ▸ h1
  cases v.toNat.testBit j
  · simp
  · simpa using h4

/-- Taking the bit under a mask reads the first unread bit and leaves the others. -/
theorem Reader.shiftBit_stream {bpc nL j : Nat} {src : Nat → Load} (hb : bpc ≤ 16) (hj : j < bpc) (r : Reader)
    (h : r.ridx ≤ nL) (hm : r.rmask = BitVec.ofNat 16 (2 ^ j)) :
    ∃ r', r.shiftBit = .ok (r.rval.toNat.testBit j) r' ∧ r'.Legal bpc nL ∧ r'.ridx = r.ridx ∧ 
      r.stream bpc nL src = r.rval.toNat.testBit j :: r'.stream bpc nL src := by
  obtain ⟨h1, h2, h3, h4⟩ := Reader.mask_facts (j := j) (by omega) r.rval
  refine ⟨{ r with rmask := r.rmask >>> 1 }, ?_, ⟨h, ?_⟩, rfl, ?_⟩
  · simp only [Reader.shiftBit, hm, h3]
  · rw [hm, h4]
    split
    · exact .inl rfl
    · exact .inr ⟨j - 1, by omega, rfl⟩
  · have hl : r.bitsLeft = j + 1 := by simp only [Reader.bitsLeft, hm, h1, if_false, h2]
    have hl' : ({ r with rmask := r.rmask >>> 1 } : Reader).bitsLeft = j := by
      simp only [Reader.bitsLeft, hm, h4]
      by_cases hj0 : j = 0
      · simp [hj0]
      · obtain ⟨h5, h6, -, -⟩ := Reader.mask_facts (j := j - 1) (by omega) r.rval
        simp only [hj0, if_false, h5, h6]; omega
    simp only [Reader.stream, hl, hl', fieldBits, List.cons_append]

/-- UNPACKBIT reads the first unread bit, where there is one (R86). -/
theorem Reader.unpackBit_stream {bpc nL : Nat} {src : Nat → Load} (hb : 1 ≤ bpc) (hb2 : bpc ≤ 16) {r : Reader}
    (h : r.Legal bpc nL) {b : Bool} {rest : List Bool} (e : r.stream bpc nL src = b :: rest) :
    ∃ r', r.unpackBit bpc nL src = .ok b r' ∧ r'.Legal bpc nL ∧ r'.stream bpc nL src = rest := by
  unfold Reader.unpackBit
  rcases h with ⟨h0, hm | ⟨j, hj, hm⟩⟩
  · simp only [hm, if_true]
    have hleft : r.bitsLeft = 0 := by simp [Reader.bitsLeft, hm]
    rw [Reader.stream, hleft] at e
    by_cases hr : nL ≤ r.ridx
    · rw [Nat.sub_eq_zero_of_le hr] at e; simp [fieldBits, streamFrom] at e
    · obtain ⟨n, hn⟩ : ∃ n, nL - r.ridx = n + 1 := ⟨nL - r.ridx - 1, by omega⟩
      rw [hn] at e
      simp only [fieldBits, List.nil_append, streamFrom] at e
      simp only [if_neg hr]
      cases hs : src r.ridx with
      | symbol v =>
        rw [hs] at e
        obtain ⟨r', h1, h2, h3, h4⟩ := Reader.shiftBit_stream (src := src) (nL := nL) (j := bpc - 1) hb2 (by omega)
          { rval := v, rmask := 1 <<< (bpc - 1), ridx := r.ridx + 1 } (by dsimp only; omega) (by
            have key : ∀ n < 16, (1 : BitVec 16) <<< n = BitVec.ofNat 16 (2 ^ n) := by decide
            exact key _ (by omega))
        have h5 : ({ rval := v, rmask := 1 <<< (bpc - 1), ridx := r.ridx + 1 } : Reader).stream bpc nL src =
            b :: rest := by
          rw [← e, Reader.stream]
          have h6 : ({ rval := v, rmask := 1 <<< (bpc - 1), ridx := r.ridx + 1 } : Reader).bitsLeft = bpc := by
            have key : ∀ n < 16, (1 : BitVec 16) <<< n ≠ 0 ∧ Nat.log2 ((1 : BitVec 16) <<< n).toNat = n := by decide
            obtain ⟨k1, k2⟩ := key (bpc - 1) (by omega)
            show (if (1 : BitVec 16) <<< (bpc - 1) = 0 then 0 else Nat.log2 ((1 : BitVec 16) <<< (bpc - 1)).toNat + 1) = bpc
            rw [if_neg k1, k2]; omega
          rw [h6]
          congr 2
          show nL - (r.ridx + 1) = n
          omega
        rw [h4] at h5
        obtain ⟨h6, h7⟩ := List.cons.inj h5
        exact ⟨r', by rw [← h6]; exact h1, h2, h7⟩
      | badSymbol => rw [hs] at e; simp at e
      | unwritten i => rw [hs] at e; simp at e
      | missing i => rw [hs] at e; simp at e
  · obtain ⟨r', h1, h2, h3, h4⟩ := Reader.shiftBit_stream (src := src) hb2 hj r h0 hm
    have hne : r.rmask ≠ 0 := by rw [hm]; exact (Reader.mask_facts (j := j) (by omega) r.rval).1
    rw [e] at h4
    obtain ⟨h5, h6⟩ := List.cons.inj h4
    simp only [if_neg hne]
    exact ⟨r', by rw [h5]; exact h1, h2, h6.symm⟩

/-- UNPACK reads the field the unread bits start with, and leaves the others (R87). -/
theorem Reader.unpack_stream {bpc nL : Nat} {src : Nat → Load} (hb : 1 ≤ bpc) (hb2 : bpc ≤ 16) :
    ∀ (w v : Nat) {r : Reader} {x : Nat} {rest : List Bool}, r.Legal bpc nL →
      takeField w v (r.stream bpc nL src) = some (x, rest) →
      ∃ r', r.unpack bpc nL src w v = .ok x r' ∧ r'.Legal bpc nL ∧ r'.stream bpc nL src = rest
  | 0, v, r, x, rest, h, e => by
    simp only [takeField, Option.some.injEq, Prod.mk.injEq] at e
    exact ⟨r, by simp [Reader.unpack, e.1], h, e.2⟩
  | w + 1, v, r, x, rest, h, e => by
    cases hs : r.stream bpc nL src with
    | nil => rw [hs] at e; simp [takeField] at e
    | cons b bits =>
      rw [hs] at e
      obtain ⟨r1, h1, h2, h3⟩ := Reader.unpackBit_stream hb hb2 h hs
      simp only [takeField] at e
      rw [← h3] at e
      obtain ⟨r2, h4, h5⟩ := Reader.unpack_stream hb hb2 w _ h2 e
      exact ⟨r2, by rw [Reader.unpack, h1]; exact h4, h5⟩

/-- What ends UNPACKBIT with nothing unread: the end of the input, or a symbol that cannot be loaded (R86). -/
theorem Reader.stream_nil {bpc nL : Nat} {src : Nat → Load} (hb : 1 ≤ bpc) {r : Reader} (hb2 : bpc ≤ 16)
    (h : r.Legal bpc nL) (e : r.stream bpc nL src = []) :
    r.rmask = 0 ∧ (r.ridx = nL ∨ (r.ridx < nL ∧ ∀ v, src r.ridx ≠ .symbol v)) := by
  rcases h with ⟨h0, hm | ⟨j, hj, hm⟩⟩
  · refine ⟨hm, ?_⟩
    by_cases hr : r.ridx = nL
    · exact .inl hr
    · refine .inr ⟨by omega, fun v hv => ?_⟩
      obtain ⟨n, hn⟩ : ∃ n, nL - r.ridx = n + 1 := ⟨nL - r.ridx - 1, by omega⟩
      have hlen := congrArg List.length e
      simp only [Reader.stream, hn, streamFrom, hv, List.length_append, fieldBits_length, List.length_nil] at hlen
      omega
  · obtain ⟨r', -, -, -, h4⟩ := Reader.shiftBit_stream (src := src) hb2 hj r h0 hm
    rw [e] at h4
    cases h4

/-- UNPACKBIT and UNPACK keep the reader's invariant. -/
theorem Reader.unpack_legal {bpc nL : Nat} {src : Nat → Load} (hb : 1 ≤ bpc) (hb2 : bpc ≤ 16) :
    ∀ (w v : Nat) {r r' : Reader} {x : Nat}, r.Legal bpc nL → r.unpack bpc nL src w v = .ok x r' → r'.Legal bpc nL
  | 0, _, _, _, _, h, e => by cases e; exact h
  | w + 1, _, r, _, _, h, e => by
    obtain ⟨b, r1, e1, e2⟩ := Eff.bind_eq_ok.1 e
    refine Reader.unpack_legal hb hb2 w _ ?_ e2
    cases hs : r.stream bpc nL src with
    | nil =>
      obtain ⟨h1, h2 | ⟨h2, h3⟩⟩ := Reader.stream_nil hb hb2 h hs
      · simp [Reader.unpackBit, h1, h2] at e1
      · simp only [Reader.unpackBit, h1, if_true, if_neg (Nat.not_le.2 h2)] at e1
        cases hl : src r.ridx with
        | symbol v => exact absurd hl (h3 v)
        | badSymbol => rw [hl] at e1; cases e1
        | unwritten i => rw [hl] at e1; cases e1
        | missing i => rw [hl] at e1; cases e1
    | cons c bits =>
      obtain ⟨r2, h1, h2, -⟩ := Reader.unpackBit_stream hb hb2 h hs
      rw [h1] at e1
      cases e1
      exact h2

/-- UNPACKBIT, where it completes, takes the first unread bit; it loaded the next symbol exactly if no bit was left. -/
theorem Reader.unpackBit_ok {bpc nL : Nat} {src : Nat → Load} (hb : 1 ≤ bpc) (hb2 : bpc ≤ 16) {r q : Reader} {b : Bool}
    (h : r.Legal bpc nL) (e : r.unpackBit bpc nL src = .ok b q) :
    q.Legal bpc nL ∧ r.stream bpc nL src = b :: q.stream bpc nL src ∧
      ((r.bitsLeft = 0 ∧ q.ridx = r.ridx + 1 ∧ q.bitsLeft = bpc - 1 ∧ ∃ v, src r.ridx = .symbol v) ∨
        (q.ridx = r.ridx ∧ q.bitsLeft + 1 = r.bitsLeft)) := by
  have left : ∀ j < 16, ∀ p : Reader, p.rmask = BitVec.ofNat 16 (2 ^ j) → p.bitsLeft = j + 1 := by
    intro j hj p hp
    have m := Reader.mask_facts hj 0
    rw [Reader.bitsLeft, hp, if_neg m.1, m.2.1]
  have shift : ∀ j < 16, ∀ p : Reader, p.rmask = BitVec.ofNat 16 (2 ^ j) → ∀ p' c, p.shiftBit = .ok c p' →
      p'.ridx = p.ridx ∧ p'.bitsLeft = j := by
    intro j hj p hp p' c e
    cases e
    refine ⟨rfl, ?_⟩
    have m := (Reader.mask_facts hj 0).2.2.2
    by_cases h0 : j = 0
    · rw [Reader.bitsLeft]; dsimp only; rw [hp, m]; simp [h0]
    · rw [if_neg h0] at m
      rw [left (j - 1) (by omega) _ (by dsimp only; rw [hp, m])]; omega
  refine ⟨Reader.unpack_legal (src := src) hb hb2 1 0 (x := b.toNat) h (by simp [Reader.unpack, e]), ?_, ?_⟩
  · cases hs : r.stream bpc nL src with
    | nil =>
      obtain ⟨h1, h2 | ⟨h2, h3⟩⟩ := Reader.stream_nil hb hb2 h hs
      · simp [Reader.unpackBit, h1, h2] at e
      · simp only [Reader.unpackBit, h1, if_true, if_neg (Nat.not_le.2 h2)] at e
        cases hl : src r.ridx with
        | symbol v => exact absurd hl (h3 v)
        | _ => rw [hl] at e; cases e
    | cons c bits =>
      obtain ⟨p, h1, -, h3⟩ := Reader.unpackBit_stream hb hb2 h hs
      rw [h1] at e; cases e; rw [h3]
  · unfold Reader.unpackBit at e
    split at e
    · rename_i hm
      split at e
      · cases e
      · split at e
        · rename_i v hv
          have one : (1 : Symbol) <<< (bpc - 1) = BitVec.ofNat 16 (2 ^ (bpc - 1)) := by
            apply BitVec.eq_of_toNat_eq; simp [Nat.shiftLeft_eq]
          have := shift (bpc - 1) (by omega) _ one _ _ e
          exact .inl ⟨by simp [Reader.bitsLeft, hm], this.1, this.2, v, hv⟩
        all_goals cases e
    · rename_i hm
      rcases h.2 with h2 | ⟨j, hj, h2⟩
      · exact absurd h2 hm
      · have := shift j (by omega) _ h2 _ _ e
        exact .inr ⟨this.1, by rw [this.2, left j (by omega) _ h2]⟩

/-- Every symbol from the reader `r`'s cursor up to the reader `q`'s was loaded. -/
def Reader.LoadedTo (src : Nat → Load) (r q : Reader) : Prop :=
  r.ridx ≤ q.ridx ∧ ∀ i, r.ridx ≤ i → i < q.ridx → ∃ v, src i = .symbol v

theorem Reader.LoadedTo.refl {src : Nat → Load} {r : Reader} : r.LoadedTo src r :=
  ⟨Nat.le_refl _, fun i h1 h2 => absurd h2 (Nat.not_lt.2 h1)⟩

theorem Reader.LoadedTo.trans {src : Nat → Load} {p q r : Reader} (a : p.LoadedTo src q) (b : q.LoadedTo src r) :
    p.LoadedTo src r :=
  ⟨a.1.trans b.1, fun i h1 h2 => (Nat.lt_or_ge i q.ridx).elim (a.2 i h1) fun h => b.2 i h h2⟩

theorem Reader.unpackBit_loadedTo {bpc nL : Nat} {src : Nat → Load} (hb : 1 ≤ bpc) (hb2 : bpc ≤ 16) {r q : Reader}
    {b : Bool} (h : r.Legal bpc nL) (e : r.unpackBit bpc nL src = .ok b q) : r.LoadedTo src q := by
  obtain ⟨-, -, ⟨-, h1, -, h2⟩ | ⟨h1, -⟩⟩ := Reader.unpackBit_ok hb hb2 h e
  · refine ⟨by omega, fun i h3 h4 => ?_⟩
    obtain rfl : i = r.ridx := by omega
    exact h2
  · exact ⟨by omega, fun i h3 h4 => by omega⟩

/-- UNPACK, where it completes, is the field at the head of the unread bits, and loads symbols in order (R87). -/
theorem Reader.unpack_ok {bpc nL : Nat} {src : Nat → Load} (hb : 1 ≤ bpc) (hb2 : bpc ≤ 16) :
    ∀ (w v : Nat) {r q : Reader} {x : Nat}, r.Legal bpc nL → r.unpack bpc nL src w v = .ok x q →
      takeField w v (r.stream bpc nL src) = some (x, q.stream bpc nL src) ∧ r.LoadedTo src q
  | 0, _, _, _, _, _, e => by cases e; exact ⟨rfl, .refl⟩
  | w + 1, v, r, _, _, h, e => by
    obtain ⟨b, p, e1, e2⟩ := Eff.bind_eq_ok.1 e
    obtain ⟨h1, h2, -⟩ := Reader.unpackBit_ok hb hb2 h e1
    obtain ⟨h3, h4⟩ := Reader.unpack_ok hb hb2 w _ h1 e2
    exact ⟨by rw [h2]; exact h3, (Reader.unpackBit_loadedTo hb hb2 h e1).trans h4⟩

/-- UNPACK where the unread bits are fewer than the field: it stops at the first symbol that is not there or cannot be
loaded, all before it loaded: TRUNCATED at N_L, BAD_SYMBOL at a unit outside the alphabet, else a stop (R86, R87). -/
theorem Reader.unpack_short {bpc nL : Nat} {src : Nat → Load} (hb : 1 ≤ bpc) (hb2 : bpc ≤ 16) :
    ∀ (w v : Nat) {r : Reader}, r.Legal bpc nL → takeField w v (r.stream bpc nL src) = none →
      ∃ q : Reader, q.Legal bpc nL ∧ r.LoadedTo src q ∧
        ((q.ridx = nL ∧ r.unpack bpc nL src w v = .raise .truncated q) ∨
          (q.ridx < nL ∧
            ((src q.ridx = .badSymbol ∧ r.unpack bpc nL src w v = .raise .badSymbol q) ∨
              (∃ i, src q.ridx = .unwritten i ∧ r.unpack bpc nL src w v = .refused (.unwrittenInput i)) ∨
              (∃ i, src q.ridx = .missing i ∧ r.unpack bpc nL src w v = .fault (.missingSymbol i)))))
  | 0, _, _, _, e => by cases e
  | w + 1, v, r, h, e => by
    cases hs : r.stream bpc nL src with
    | nil =>
      refine ⟨r, h, .refl, ?_⟩
      obtain ⟨h1, h2 | ⟨h2, h3⟩⟩ := Reader.stream_nil hb hb2 h hs
      · exact .inl ⟨h2, by simp [Reader.unpack, Reader.unpackBit, h1, h2]⟩
      · refine .inr ⟨h2, ?_⟩
        simp only [Reader.unpack, Reader.unpackBit, h1, if_true, if_neg (Nat.not_le.2 h2)]
        cases hl : src r.ridx with
        | symbol v => exact absurd hl (h3 v)
        | _ => simp
    | cons c bits =>
      obtain ⟨p, h1, h2, h3⟩ := Reader.unpackBit_stream hb hb2 h hs
      rw [hs] at e
      obtain ⟨q, h4, h5, h6⟩ := Reader.unpack_short hb hb2 w (2 * v + c.toNat) h2 (by rw [h3]; exact e)
      have he : r.unpack bpc nL src (w + 1) v = p.unpack bpc nL src w (2 * v + c.toNat) := by rw [Reader.unpack, h1]; rfl
      rw [he]
      exact ⟨q, h4, (Reader.unpackBit_loadedTo hb hb2 h h1).trans h5, h6⟩

end Sys2Proof.Machine
end

