-- ==== Sys2Proof/Laws/Scramble.lean ====
section
/-! SUPPORT. What the keystream walks do to SYM, symbol by symbol (R162 to R167). -/

namespace Sys2Proof.Machine

theorem sliceOf_lt (ks : Word64) (j : Nat) : (sliceOf ks j).toNat < 2 ^ 15 := by
  have h : (ks >>> (15 * j)).toNat &&& (0x7FFF : Word64).toNat ≤ 0x7FFF := Nat.and_le_right
  simp only [sliceOf, BitVec.toNat_setWidth, BitVec.toNat_and]
  omega

/-- KEYSETUP's increment is odd (R163). -/
theorem keyIncrement_odd (m : MixChoice) (k : Word64) : (keyIncrement m k).getLsbD 0 = true := by
  unfold keyIncrement; simp

@[simp] theorem xorSlices_length (ks : Word64) (base : Nat) (sym : List Symbol) :
    ∀ n : Nat, (xorSlices ks base n sym).length = sym.length
  | 0 => rfl
  | n + 1 => by rw [xorSlices, List.length_modify, xorSlices_length]

/-- XORing `n` slices in changes exactly the `n` symbols from `base` on. -/
theorem xorSlices_getElem? (ks : Word64) (base : Nat) (sym : List Symbol) (i : Nat) : ∀ n : Nat,
    (xorSlices ks base n sym)[i]? =
      if base ≤ i ∧ i < base + n then sym[i]?.map (· ^^^ sliceOf ks (i - base)) else sym[i]?
  | 0 => by
    have h : ¬(base ≤ i ∧ i < base + 0) := by omega
    rw [if_neg h]; rfl
  | n + 1 => by
    rw [xorSlices, List.getElem?_modify, xorSlices_getElem? ks base sym i n]
    by_cases hi : base + n = i
    · subst hi
      have h1 : ¬(base ≤ base + n ∧ base + n < base + n) := by omega
      have h2 : base ≤ base + n ∧ base + n < base + (n + 1) := by omega
      have h3 : base + n - base = n := by omega
      simp [h3]
    · by_cases h1 : base ≤ i ∧ i < base + n
      · have h2 : base ≤ i ∧ i < base + (n + 1) := by omega
        simp [hi, h1, h2]
      · have h2 : ¬(base ≤ i ∧ i < base + (n + 1)) := by omega
        simp [hi, h1, h2]

/-- Symbols of 15 bits stay symbols of 15 bits. -/
theorem xorSlices_lt {ks : Word64} {base : Nat} {sym : List Symbol} (h : ∀ r ∈ sym, r.toNat < 2 ^ 15) (n : Nat) :
    ∀ r ∈ xorSlices ks base n sym, r.toNat < 2 ^ 15 := by
  intro r hr
  obtain ⟨i, hi⟩ := List.mem_iff_getElem?.1 hr
  rw [xorSlices_getElem?] at hi
  split at hi
  · obtain ⟨x, hx, rfl⟩ := Option.map_eq_some_iff.1 hi
    rw [BitVec.toNat_xor]
    exact Nat.xor_lt_two_pow (h x (List.mem_of_getElem? hx)) (sliceOf_lt _ _)
  · exact h r (List.mem_of_getElem? hi)

/-- The forward walk keeps SINC, the number of symbols and their width. -/
theorem scrambleBlocks_keeps (m : MixChoice) : ∀ (n b : Nat) (x : Scrambler) (sym : List Symbol),
    (scrambleBlocks m n b x sym).1.sinc = x.sinc ∧ (scrambleBlocks m n b x sym).2.length = sym.length ∧
      ((∀ r ∈ sym, r.toNat < 2 ^ 15) → ∀ r ∈ (scrambleBlocks m n b x sym).2, r.toNat < 2 ^ 15)
  | 0, _, _, _ => ⟨rfl, rfl, id⟩
  | n + 1, b, x, sym => by
    obtain ⟨h1, h2, h3⟩ := scrambleBlocks_keeps m n (b + 1) { x with sstate := x.sstate + x.sinc, sblk := b }
      (xorSlices (mixFn m (x.sstate + x.sinc)) (4 * b) 4 sym)
    exact ⟨h1, h2.trans (xorSlices_length ..), fun h => h3 (xorSlices_lt h 4)⟩

/-- The backward walk keeps SINC, the number of symbols and their width. -/
theorem unscrambleBlocks_keeps (m : MixChoice) : ∀ (n : Nat) (x : Scrambler) (sym : List Symbol),
    (unscrambleBlocks m n x sym).1.sinc = x.sinc ∧ (unscrambleBlocks m n x sym).2.length = sym.length ∧
      ((∀ r ∈ sym, r.toNat < 2 ^ 15) → ∀ r ∈ (unscrambleBlocks m n x sym).2, r.toNat < 2 ^ 15)
  | 0, _, _ => ⟨rfl, rfl, id⟩
  | n + 1, x, sym => by
    obtain ⟨h1, h2, h3⟩ := unscrambleBlocks_keeps m n { x with sstate := x.sstate - x.sinc, sblk := n }
      (xorSlices (mixFn m (x.sstate - x.sinc)) (4 * n) 4 sym)
    exact ⟨h1, h2.trans (xorSlices_length ..), fun h => h3 (xorSlices_lt h 4)⟩

theorem scramblePass_keeps (m : MixChoice) (k : Word64) (x : Scrambler) (sym : List Symbol) :
    (scramblePass m k x sym).1.sinc = keyIncrement m k ∧ (scramblePass m k x sym).2.length = sym.length ∧
      ((∀ r ∈ sym, r.toNat < 2 ^ 15) → ∀ r ∈ (scramblePass m k x sym).2, r.toNat < 2 ^ 15) := by
  obtain ⟨h1, h2, h3⟩ := scrambleBlocks_keeps m (sym.length / 4) 0 (x.keySetup m k) sym
  exact ⟨h1, (xorSlices_length ..).trans h2, fun h => xorSlices_lt (h3 h) _⟩

theorem unscramblePass_keeps (m : MixChoice) (k : Word64) (x : Scrambler) (sym : List Symbol) :
    (unscramblePass m k x sym).1.sinc = keyIncrement m k ∧ (unscramblePass m k x sym).2.length = sym.length ∧
      ((∀ r ∈ sym, r.toNat < 2 ^ 15) → ∀ r ∈ (unscramblePass m k x sym).2, r.toNat < 2 ^ 15) := by
  obtain ⟨h1, h2, h3⟩ := unscrambleBlocks_keeps m (sym.length / 4)
    { x.keySetup m k with sstate := (x.keySetup m k).sstate + BitVec.ofNat 64 (1 + sym.length / 4) * (x.keySetup m k).sinc }
    (xorSlices (mixFn m ((x.keySetup m k).sstate + BitVec.ofNat 64 (1 + sym.length / 4) * (x.keySetup m k).sinc))
      (4 * (sym.length / 4)) (sym.length % 4) sym)
  exact ⟨h1, h2.trans (xorSlices_length ..), fun h => h3 (xorSlices_lt h _)⟩

end Sys2Proof.Machine
end

