-- ==== Sys2Proof/Laws/Step.lean ====
section
/-! SUPPORT. What an engine operation, a host turn and a whole step can do, each said once. -/

namespace Sys2Proof.Machine

/-! ### What no engine operation before OUTPUT touches -/

/-- `t` differs from `s` in PHASE, CODEC, PACK, READ, DEC and SCR at most. -/
structure State.Framed (s t : State) : Prop where
  regs   : t.regs = s.regs
  keys   : t.keys = s.keys
  inBuf  : t.inBuf = s.inBuf
  outBuf : t.outBuf = s.outBuf
  lat    : t.lat = s.lat
  host   : t.host = s.host
  seen   : t.seen = s.seen
  draws  : t.draws = s.draws
  cfg    : t.cfg = s.cfg

theorem State.Framed.refl {s : State} : s.Framed s := ⟨rfl, rfl, rfl, rfl, rfl, rfl, rfl, rfl, rfl⟩

theorem State.Framed.trans {s t u : State} (a : s.Framed t) (b : t.Framed u) : s.Framed u := by
  cases a; cases b; constructor <;> simp_all

/-- Every state `x` completes or raises in is framed by `s`; and what it raises is a cause. -/
structure Framing {α : Type} (s : State) (x : Eff State α) : Prop where
  ok    : ∀ a t, x = .ok a t → s.Framed t
  raise : ∀ c t, x = .raise c t → s.Framed t ∧ c ≠ .none

namespace Framing

variable {α β : Type} {s t : State}

theorem bind {x : Eff State α} {k : α → State → Eff State β} (hx : Framing s x)
    (hk : ∀ a t, x = .ok a t → Framing t (k a t)) : Framing s (x.bind k) := by
  constructor
  · intro b t h
    obtain ⟨a, u, h1, h2⟩ := Eff.bind_eq_ok.1 h
    exact (hx.ok _ _ h1).trans ((hk _ _ h1).ok _ _ h2)
  · intro c t h
    rcases Eff.bind_eq_raise.1 h with h | ⟨a, u, h1, h2⟩
    · exact hx.raise _ _ h
    · exact ⟨(hx.ok _ _ h1).trans ((hk _ _ h1).raise _ _ h2).1, ((hk _ _ h1).raise _ _ h2).2⟩

theorem of_ok {a : α} (h : s.Framed t) : Framing s (.ok a t) :=
  ⟨fun _ _ e => by cases e; exact h, fun _ _ e => (nomatch e)⟩

theorem of_raise {c : Cause} (h : s.Framed t) (hc : c ≠ .none) : Framing s (.raise c t : Eff State α) :=
  ⟨fun _ _ e => (nomatch e), fun _ _ e => by cases e; exact ⟨h, hc⟩⟩

theorem of_fault {f : Fault} : Framing s (.fault f : Eff State α) :=
  ⟨fun _ _ e => (nomatch e), fun _ _ e => (nomatch e)⟩

theorem of_refused {r : Refusal} : Framing s (.refused r : Eff State α) :=
  ⟨fun _ _ e => (nomatch e), fun _ _ e => (nomatch e)⟩

theorem of_framed {x : Eff State α} (h : s.Framed t) (hx : Framing t x) : Framing s x :=
  ⟨fun a u e => h.trans (hx.ok a u e), fun c u e => ⟨h.trans (hx.raise c u e).1, (hx.raise c u e).2⟩⟩

end Framing

/-- Replacing only what the frame leaves free. -/
theorem State.framed_mk (s : State) (phase : Phase) (codec : Codec) (pack : Packer) (read : Reader) (dec : Decoder)
    (scr : Scrambler) : s.Framed { s with phase := phase, codec := codec, pack := pack, read := read, dec := dec, scr := scr } :=
  ⟨rfl, rfl, rfl, rfl, rfl, rfl, rfl, rfl, rfl⟩

/-! ### The encoder's operations -/

theorem State.packToken_framing (s : State) (i : Instr) : Framing s (s.packToken i) := by
  rcases State.packToken_cases s i with ⟨q, h⟩ | ⟨q, h⟩ <;> rw [h]
  · exact .of_ok (s.framed_mk ..)
  · exact .of_raise (s.framed_mk ..) (by decide)

theorem State.emit_framing (s : State) : Framing s s.emit := by
  unfold State.emit
  split
  · exact (State.packToken_framing _ _).bind fun _ t _ => .of_ok (t.framed_mk ..)
  · split
    · exact .of_fault
    · exact (State.packToken_framing _ _).bind fun _ t _ => .of_ok (t.framed_mk ..)

theorem State.insertEntry_framing (s : State) (e : Str) : Framing s (s.insertEntry e) := by
  unfold State.insertEntry
  split
  · exact .of_raise .refl (by decide)
  · exact .of_ok (s.framed_mk ..)

theorem State.insertUnit_framing (s : State) (u : CodeUnit) : Framing s (s.insertUnit u) := by
  unfold State.insertUnit
  split
  · exact .of_ok .refl
  · exact (State.insertEntry_framing _ _).bind fun _ t _ => .of_ok (t.framed_mk ..)

theorem State.extendOrEmit_framing (s : State) (u : CodeUnit) : Framing s (s.extendOrEmit u) := by
  unfold State.extendOrEmit
  dsimp only
  split
  · exact .of_ok (s.framed_mk ..)
  · exact (State.emit_framing _).bind fun _ _ _ =>
      (State.insertEntry_framing _ _).bind fun _ t _ => .of_ok (t.framed_mk ..)

theorem State.encStep_framing (s : State) : Framing s s.encStep := by
  unfold State.encStep
  split
  · exact .of_refused
  · exact .of_framed (s.framed_mk ..) ((State.insertUnit_framing _ _).bind fun _ _ _ =>
      (State.extendOrEmit_framing _ _).bind fun _ t _ => .of_ok (t.framed_mk ..))

theorem State.flush_framing (s : State) (bpc : Nat) (cap : Option Nat) :
    Framing s ((Packer.flush bpc cap s.pack).lift fun p => { s with pack := p }) := by
  rcases Packer.flush_answers bpc cap s.pack with ⟨q, h⟩ | ⟨q, h⟩ <;> rw [h]
  · exact .of_ok (s.framed_mk ..)
  · exact .of_raise (s.framed_mk ..) (by decide)

theorem State.encFinish_framing (s : State) : Framing s s.encFinish := by
  unfold State.encFinish
  exact (State.emit_framing _).bind fun _ _ _ => (State.packToken_framing _ _).bind fun _ _ _ =>
    (State.flush_framing _ _ _).bind fun _ t _ => .of_ok (t.framed_mk ..)

theorem State.encodeMove_framing (s : State) : Framing s s.encodeMove := by
  unfold State.encodeMove
  split
  · exact State.encStep_framing s
  · exact State.encFinish_framing s

/-! ### The scrambler's operations -/

theorem State.scrambleMove_framed (s : State) : s.Framed s.scrambleMove := s.framed_mk ..

theorem State.unscrambleMove_framing (s : State) : Framing s s.unscrambleMove := by
  unfold State.unscrambleMove
  split
  · unfold State.convertUnit
    split
    · exact .of_refused
    · exact .of_fault
    · exact .of_raise .refl (by decide)
    · dsimp only
      split
      · exact .of_ok (s.framed_mk ..)
      · exact .of_ok (s.framed_mk ..)
  · exact .of_ok (s.framed_mk ..)

/-! ### The reader and the fetches -/

/-- UNPACKBIT raises TRUNCATED at the end and BAD_SYMBOL on a bad unit, changing nothing (R86). -/
theorem Reader.unpackBit_raise {bpc nL : Nat} {src : Nat → Load} {r r' : Reader} {c : Cause}
    (h : r.unpackBit bpc nL src = .raise c r') : r' = r ∧ r.rmask = 0 ∧
      ((c = .truncated ∧ nL ≤ r.ridx) ∨ (c = .badSymbol ∧ r.ridx < nL ∧ src r.ridx = .badSymbol)) := by
  unfold Reader.unpackBit at h
  split at h
  · split at h
    · cases h; simp [*]
    · split at h <;> simp [Reader.shiftBit] at h
      obtain ⟨rfl, rfl⟩ := h
      simp [*]; omega
  · simp [Reader.shiftBit] at h

/-- UNPACK raises TRUNCATED and BAD_SYMBOL only (R87). -/
theorem Reader.unpack_raise {bpc nL : Nat} {src : Nat → Load} {c : Cause} {r' : Reader} :
    ∀ (w v : Nat) (r : Reader), r.unpack bpc nL src w v = .raise c r' → c = .truncated ∨ c = .badSymbol
  | 0, v, r, h => by simp [Reader.unpack] at h
  | w + 1, v, r, h => by
    rcases Eff.bind_eq_raise.1 h with h | ⟨a, s, -, h2⟩
    · rcases (Reader.unpackBit_raise h).2.2 with h | h <;> simp [h.1]
    · exact Reader.unpack_raise w _ _ h2

theorem State.unpack_framing (s : State) (w : Nat) : Framing s (s.unpack w) := by
  constructor
  · intro a t h
    obtain ⟨r, -, rfl⟩ := Eff.lift_eq_ok.1 h
    exact s.framed_mk ..
  · intro c t h
    obtain ⟨r, hr, rfl⟩ := Eff.lift_eq_raise.1 h
    refine ⟨s.framed_mk .., ?_⟩
    rcases Reader.unpack_raise _ _ _ hr with h | h <;> simp [h]

theorem State.fetchFirst_framing (s : State) : Framing s s.fetchFirst := by
  unfold State.fetchFirst
  refine (State.unpack_framing _ _).bind fun a t _ => ?_
  split
  · exact .of_raise .refl (by decide)
  · exact (State.unpack_framing _ _).bind fun a t _ => .of_ok .refl

theorem State.fetchLater_framing (s : State) : Framing s s.fetchLater := by
  unfold State.fetchLater
  refine (State.unpack_framing _ _).bind fun a t _ => ?_
  dsimp only
  split
  · exact .of_ok (t.framed_mk ..)
  · exact .of_framed (t.framed_mk ..) ((State.unpack_framing _ _).bind fun a t _ => .of_ok .refl)

/-! ### The tokens -/

theorem State.firstLiteral_framing (s : State) (v : CodeUnit) : Framing s (s.firstLiteral v) := by
  unfold State.firstLiteral
  split
  · exact .of_raise .refl (by decide)
  · exact .of_ok (s.framed_mk ..)

theorem State.commonTail_framing (s : State) : Framing s s.commonTail := by
  unfold State.commonTail
  split
  · exact .of_raise .refl (by decide)
  · dsimp only
    split
    · exact .of_fault
    · split
      · exact .of_raise (s.framed_mk ..) (by decide)
      · exact .of_ok (s.framed_mk ..)

theorem State.literal_framing (s : State) (v : CodeUnit) : Framing s (s.literal v) := by
  unfold State.literal
  split
  · exact .of_raise .refl (by decide)
  · exact .of_framed (s.framed_mk ..) (State.commonTail_framing _)

theorem State.resolveRef_framing (s : State) (k : Nat) : Framing s (s.resolveRef k) := by
  unfold State.resolveRef
  split
  · split
    · exact .of_ok .refl
    · exact .of_fault
  · split
    · split
      · exact .of_ok .refl
      · exact .of_fault
    · exact .of_raise .refl (by decide)

theorem State.reference_framing (s : State) (k : Nat) : Framing s (s.reference k) := by
  unfold State.reference
  exact (State.resolveRef_framing _ _).bind fun _ t _ =>
    .of_framed (t.framed_mk ..) (State.commonTail_framing _)

/-- The instruction is a token, not a host command. -/
def isToken (i : Instr) : Bool :=
  match i with
  | .compress _ | .decompress _ | .compressScrambled | .decompressScrambled => false
  | .firstLit8 _ | .firstLit16 _ | .lit8 _ | .lit16 _ | .eos | .ref _ => true

/-- What a step can end in that is not OUTPUT's END_OK: a framed state, or a raise from one. -/
def State.Leads (s t : State) : Prop := s.Framed t ∨ ∃ u c, s.Framed u ∧ c ≠ .none ∧ t = u.raise c

theorem State.Leads.of_outcome {α : Type} {s t : State} {x : Eff State α} (hx : Framing s x) (h : x.outcome = .next t) :
    s.Leads t := by
  rcases Eff.outcome_eq_next.1 h with ⟨a, h⟩ | ⟨c, u, hr, rfl⟩
  · exact .inl (hx.ok _ _ h)
  · exact .inr ⟨u, c, (hx.raise _ _ hr).1, (hx.raise _ _ hr).2, rfl⟩

theorem State.Leads.of_framed {s t u : State} (h : s.Framed t) (h2 : t.Leads u) : s.Leads u := by
  rcases h2 with h2 | ⟨v, c, h2, h3, h4⟩
  · exact .inl (h.trans h2)
  · exact .inr ⟨v, c, h.trans h2, h3, h4⟩

/-- Executing a token writes no store and no host register but by a raise. -/
theorem exec_token_leads {i : Instr} {s t : State} (hi : isToken i = true) (h : exec i s = .next t) : s.Leads t := by
  unfold exec at h
  cases i with
  | compress => simp [isToken] at hi
  | decompress => simp [isToken] at hi
  | compressScrambled => simp [isToken] at hi
  | decompressScrambled => simp [isToken] at hi
  | firstLit8 => exact .of_outcome (State.firstLiteral_framing _ _) h
  | firstLit16 => exact .of_outcome (State.firstLiteral_framing _ _) h
  | lit8 => exact .of_outcome (State.literal_framing _ _) h
  | lit16 => exact .of_outcome (State.literal_framing _ _) h
  | eos => cases h; exact .inl (s.framed_mk ..)
  | ref => exact .of_outcome (State.reference_framing _ _) h

theorem isToken_firstToken (p v : Nat) : isToken (firstToken p v) = true := by
  unfold firstToken; split <;> rfl

theorem isToken_laterToken (code v : Nat) : isToken (laterToken code v) = true := by
  unfold laterToken; split <;> rfl

theorem State.fetchFirst_token {s t : State} {i : Instr} (h : s.fetchFirst = .ok i t) : ∃ p v, i = firstToken p v := by
  obtain ⟨p, u, -, h⟩ := Eff.bind_eq_ok.1 h
  split at h
  · cases h
  · obtain ⟨v, u', -, h⟩ := Eff.bind_eq_ok.1 h
    cases h
    exact ⟨_, _, rfl⟩

theorem State.fetchLater_token {s t : State} {i : Instr} (h : s.fetchLater = .ok i t) : ∃ c v, i = laterToken c v := by
  obtain ⟨c, u, -, h⟩ := Eff.bind_eq_ok.1 h
  dsimp only at h
  split at h
  · cases h; exact ⟨_, _, rfl⟩
  · obtain ⟨v, u', -, h⟩ := Eff.bind_eq_ok.1 h
    cases h
    exact ⟨_, _, rfl⟩

theorem State.Leads.of_fetch {s t : State} {x : Eff State Instr} (hx : Framing s x)
    (hi : ∀ i u, x = .ok i u → isToken i = true)
    (h : (match x.move with | .token i t => exec i t | .outcome o => o) = .next t) : s.Leads t := by
  cases x with
  | ok i u => exact .of_framed (hx.ok _ _ rfl) (exec_token_leads (hi _ _ rfl) h)
  | raise c u => cases h; exact .inr ⟨u, c, (hx.raise _ _ rfl).1, (hx.raise _ _ rfl).2, rfl⟩
  | fault f => cases h
  | refused r => cases h

/-! ### Whole steps -/

/-- OUTPUT's END_OK (R147, R186). -/
def State.outputDone (s : State) : State :=
  State.endOk { s with
    outBuf := Memory.writeFrom s.outBuf 0 s.outputUnits
    regs := { s.regs with outLen := s.outputUnits.length } }

theorem State.outputMove_cases (s : State) :
    ((isCompress s.lat.op && exceeds s.outputUnits.length s.cfg.outMax) = true ∧ s.outputMove = .raise .capacity s) ∨
      ((isCompress s.lat.op && exceeds s.outputUnits.length s.cfg.outMax) = false ∧ s.outputMove = .ok () s.outputDone) := by
  unfold State.outputMove State.outputDone
  split <;> simp_all

/-- What an engine step can do. -/
theorem engineStep_cases {s t : State} (h : engineStep s = .next t) :
    s.Leads t ∨ (s.phase = .output ∧ (isCompress s.lat.op && exceeds s.outputUnits.length s.cfg.outMax) = false ∧
      t = s.outputDone) := by
  unfold engineStep State.engineMove at h
  cases hp : s.phase <;> rw [hp] at h <;> dsimp only at h
  · cases h; exact .inl (.inl .refl)
  · exact .inl (.of_outcome (State.encodeMove_framing s) h)
  · cases h; exact .inl (.inl (State.scrambleMove_framed s))
  · rcases State.outputMove_cases s with ⟨-, h2⟩ | ⟨h1, h2⟩
    · rw [h2] at h; cases h; exact .inl (.inr ⟨s, .capacity, .refl, by decide, rfl⟩)
    · rw [h2] at h; cases h; exact .inr ⟨rfl, h1, rfl⟩
  · exact .inl (.of_outcome (State.unscrambleMove_framing s) h)
  · refine .inl (.of_fetch (State.fetchFirst_framing s) (fun i u hu => ?_) h)
    obtain ⟨p, v, rfl⟩ := State.fetchFirst_token hu
    exact isToken_firstToken p v
  · refine .inl (.of_fetch (State.fetchLater_framing s) (fun i u hu => ?_) h)
    obtain ⟨p, v, rfl⟩ := State.fetchLater_token hu
    exact isToken_laterToken p v
  · cases h; exact .inl (.inl .refl)

/-- With no turn of the host's left, a step is the engine's (log 2). -/
theorem step_of_host_nil {s : State} (h : s.host = []) : step s = engineStep s := by
  simp [step, State.nextTurn, h]

/-- What a step can do: a command, RESET, another turn of the host, or an engine step (logs 1 and 2). -/
theorem step_cases {s t : State} (h : step s = .next t) :
    (∃ c rest, s.host = .writeCmd c :: rest ∧ s.regs.status ≠ .busy ∧ commandStep c { s with host := rest } = .next t) ∨
    (∃ rest, s.host = .reset :: rest ∧ t = State.resetBlock { s with host := rest }) ∨
    (∃ w rest, s.host = .write w :: rest ∧ t = State.hostWrite { s with host := rest } w) ∨
    (∃ r rest, s.host = .read r :: rest ∧ t = State.hostRead { s with host := rest } r) ∨
    (∃ c rest, s.host = .writeCmd c :: rest ∧ s.regs.status = .busy ∧ t = { s with host := rest }) ∨
    (∃ rest, s.host = .poll :: rest ∧ s.regs.status ≠ .busy ∧
      t = State.reply { s with host := rest } (.byte (statusByte s.regs.status))) ∨
    (∃ l, (s.host = [] ∨ s.host = .engine :: l ∨ ∃ rest, s.host = .poll :: rest ∧ s.regs.status = .busy) ∧
      (l = s.host ∨ s.host = .engine :: l) ∧ engineStep { s with host := l } = .next t) := by
  have same : ({ s with host := s.host } : State) = s := rfl
  unfold step State.nextTurn at h
  rcases hs : s.host with _ | ⟨x, rest⟩
  · rw [hs] at h
    refine .inr (.inr (.inr (.inr (.inr (.inr ⟨[], .inl rfl, .inl rfl, ?_⟩)))))
    rw [← hs, same]; exact h
  · rw [hs] at h
    cases x with
    | writeCmd c =>
      by_cases hb : s.regs.status = .busy
      · simp only [hb, if_true] at h; cases h
        exact .inr (.inr (.inr (.inr (.inl ⟨_, _, rfl, hb, rfl⟩))))
      · simp only [hb, if_false] at h
        exact .inl ⟨_, _, rfl, hb, h⟩
    | write w => cases h; exact .inr (.inr (.inl ⟨_, _, rfl, rfl⟩))
    | read r => cases h; exact .inr (.inr (.inr (.inl ⟨_, _, rfl, rfl⟩)))
    | reset => cases h; exact .inr (.inl ⟨_, rfl, rfl⟩)
    | poll =>
      by_cases hb : s.regs.status = .busy
      · simp only [hb, if_true] at h
        refine .inr (.inr (.inr (.inr (.inr (.inr ⟨_, .inr (.inr ⟨_, rfl, hb⟩), .inl rfl, ?_⟩)))))
        rw [← hs, same]; exact h
      · simp only [hb, if_false] at h; cases h
        exact .inr (.inr (.inr (.inr (.inr (.inl ⟨_, rfl, hb, rfl⟩)))))
    | engine => exact .inr (.inr (.inr (.inr (.inr (.inr ⟨rest, .inr (.inl rfl), .inr rfl, h⟩)))))

/-- A host read changes nothing but what was returned and the draws (R44). -/
theorem State.hostRead_frame (s : State) (r : HostRead) :
    ∃ v d, s.hostRead r = { s with seen := s.seen ++ [v], draws := d } := by
  cases r with
  | reg n =>
    unfold State.hostRead State.readReg
    dsimp only
    split
    all_goals try unfold State.replyResult
    all_goals try split
    all_goals try exact ⟨_, _, rfl⟩
    split <;> exact ⟨_, _, rfl⟩
  | inBuf i => unfold State.hostRead State.readUnit; dsimp only; split <;> exact ⟨_, _, rfl⟩
  | outBuf i =>
    unfold State.hostRead State.readUnit
    dsimp only
    split
    · exact ⟨_, _, rfl⟩
    · split <;> exact ⟨_, _, rfl⟩

/-- A host write keeps the stores canonical and touches nothing of a command's (R46, R50). -/
theorem State.hostWrite_frame (s : State) (w : HostWrite) :
    s.hostWrite w = { s with regs := { s.regs with inLen := (s.hostWrite w).regs.inLen, nkeys := (s.hostWrite w).regs.nkeys },
                             keys := (s.hostWrite w).keys, inBuf := (s.hostWrite w).inBuf, outBuf := (s.hostWrite w).outBuf } ∧
      (s.keys.wf → (s.hostWrite w).keys.wf) ∧ (s.inBuf.wf → (s.hostWrite w).inBuf.wf) ∧
      (s.outBuf.wf → (s.hostWrite w).outBuf.wf) := by
  unfold State.hostWrite
  split
  · exact ⟨rfl, id, id, id⟩
  · unfold State.acceptWrite
    split <;> (try split)
    all_goals first
      | exact ⟨rfl, id, id, id⟩
      | exact ⟨rfl, KeyFile.write_wf _ _, id, id⟩
      | exact ⟨rfl, id, Memory.write_wf _ _, id⟩
      | exact ⟨rfl, id, id, Memory.write_wf _ _⟩

end Sys2Proof.Machine
end

