-- ==== Sys2Proof/Laws/Tokens.lean ====
section
/-! SUPPORT. What the decoder's shared operations answer where they complete (R121 to R127). -/

namespace Sys2Proof.Machine

theorem literal8_eq (v : BitVec 8) : literal8 v = BitVec.ofNat 16 v.toNat := by
  apply BitVec.eq_of_toNat_eq; simp [literal8]

theorem firstUnit_eq_some {e x : Str} : firstUnit e = some x ↔ ∃ u, e.head? = some u ∧ x = [u] := by
  cases e <;> simp [firstUnit, eq_comm]

theorem firstUnit_eq_none {e : Str} : firstUnit e = none ↔ e = [] := by cases e <;> simp [firstUnit]

theorem Codec.numBits_le_tick (c : Codec) : c.numBits ≤ c.tick.numBits := by
  unfold Codec.tick; split <;> simp

/-- The common tail, where it completes (R127). -/
theorem State.commonTail_ok {s t : State} {u : Unit} (h : s.commonTail = .ok u t) : ∃ x, s.dec.entry.head? = some x ∧
    t = { s with
      codec := { s.codec with
        w := s.dec.entry, dictSize := s.codec.dictSize + 1
        numBits := s.codec.tick.numBits, enlargeIn := s.codec.tick.enlargeIn }
      dec := { s.dec with
        res := s.dec.res ++ s.dec.entry, dlist := s.dec.dlist ++ [s.codec.w ++ [x]] } } := by
  unfold State.commonTail at h
  split at h
  · cases h
  · dsimp only at h
    split at h
    · cases h
    · rename_i x hx
      split at h
      · cases h
      · cases h
        obtain ⟨y, hy, rfl⟩ := firstUnit_eq_some.1 hx
        refine ⟨y, hy, ?_⟩
        simp only [State.appendEntry]
        rw [Codec.tick_of_widths s.codec (d := { s.codec with dictSize := s.codec.dictSize + 1 }) rfl rfl]

/-- The common tail raises CAPACITY only (R202). -/
theorem State.commonTail_raise {s t : State} {c : Cause} (h : s.commonTail = .raise c t) : c = .capacity := by
  unfold State.commonTail at h
  split at h
  · cases h; rfl
  · dsimp only at h
    split at h
    · cases h
    · split at h <;> cases h
      rfl

/-- The common tail faults only on an empty entry. -/
theorem State.commonTail_fault {s : State} {f : Fault} (h : s.commonTail = .fault f) : s.dec.entry = [] := by
  unfold State.commonTail at h
  split at h
  · cases h
  · dsimp only at h
    split at h
    · rename_i hx; exact firstUnit_eq_none.1 hx
    · split at h <;> cases h

/-- The string a REF's code names, where there is one (R126). -/
theorem State.resolveRef_ok {s t : State} {k : Nat} {e : Str} (h : s.resolveRef k = .ok e t) : t = s ∧
    ((k < s.codec.dictSize ∧ s.dec.dlist[k]? = some e) ∨
      (k = s.codec.dictSize ∧ ∃ x, s.codec.w.head? = some x ∧ e = s.codec.w ++ [x])) := by
  unfold State.resolveRef at h
  split at h
  · split at h <;> cases h
    exact ⟨rfl, .inl ⟨‹_›, ‹_›⟩⟩
  · split at h
    · split at h
      · rename_i x hx
        cases h
        obtain ⟨y, hy, rfl⟩ := firstUnit_eq_some.1 hx
        exact ⟨rfl, .inr ⟨‹_›, y, hy, rfl⟩⟩
      · cases h
    · cases h

/-- Resolving a REF raises BAD_CODE only, for a code beyond DICTSIZE, and changes nothing (R126). -/
theorem State.resolveRef_raise {s t : State} {k : Nat} {c : Cause} (h : s.resolveRef k = .raise c t) :
    t = s ∧ c = .badCode ∧ s.codec.dictSize < k := by
  unfold State.resolveRef at h
  split at h
  · split at h <;> cases h
  · split at h
    · split at h <;> cases h
    · cases h; exact ⟨rfl, rfl, by omega⟩

end Sys2Proof.Machine
end

