-- ==== Sys2Proof/Tests/Slice0.lean ====
section
/-! SUPPORT. The model's own tests. Words are written out from 30_encoding.md, expected values from 95_test_vectors.md
or by hand from the rule cited; then one witness for each statement that has hypotheses. -/

namespace Sys2Proof.Tests

open Sys2Proof.Machine

/-- What `f` sees of a next state. -/
def seen {α : Type} (f : State → α) (o : Host.Outcome State Fault Refusal) : Option α :=
  match o with
  | .next t => some (f t)
  | _ => none

/-- DICTSIZE, NUMBITS, ENLARGEIN: the D/N/E column of 95_test_vectors.md. -/
def dne (s : State) : Nat × Nat × Nat := (s.codec.dictSize, s.codec.numBits, s.codec.enlargeIn)

/-- A block that holds an input. -/
def holding (us : List CodeUnit) : State :=
  { State.reset with inBuf := Memory.writeFrom [] 0 us, regs := { State.reset.regs with inLen := us.length } }

/-- A block that holds an input and keys. -/
def keyed (us : List CodeUnit) (ks : KeyFile) (n : Nat) : State :=
  { holding us with keys := ks, regs := { (holding us).regs with nkeys := n } }

/-- A running command's first state. -/
def running (us : List CodeUnit) (op : Op) (a : Alphabet) (p : Phase) : State := (holding us).started op a false p

/-- In DECODE after FIRST_LIT8 0x61 (R121, R74). -/
def afterFirst : State :=
  { running [0x1850] .decompress .raw .decode with
    codec := { Codec.start with w := [0x61], dictSize := 4, numBits := 3, enlargeIn := 4 }
    dec := { Decoder.start with dlist := placeholders ++ [[0x61]], res := [0x61] } }

/-- In ENCODE with "a" taken in and pending (R101). -/
def encoding : State :=
  { running [0x61, 0x62] .compress .raw .encode with
    codec := { Codec.start with
      w := [0x61], c := 0x61, dict := [([0x61], 3)], pend := [0x61], dictSize := 4, idx := 1 } }

/-- The same state with another N_L. -/
def withNL (n : Nat) (s : State) : State := { s with lat := { s.lat with nL := n } }

/-! ### Decoding: words written from R61 and R63 to R67 -/

theorem test_decode_compress : decodeCommand 0b00000011 = some (.compress .uriSafe) := by decide
theorem test_decode_decompress : decodeCommand 0b00000110 = some (.decompress .base64) := by decide
theorem test_decode_compress_scrambled : decodeCommand 0b00001000 = some .compressScrambled := by decide
theorem test_decode_decompress_scrambled : decodeCommand 0b00001100 = some .decompressScrambled := by decide
theorem test_decode_illegal_commands :
    decodeCommand 0b00001001 = none ∧ decodeCommand 0b00001111 = none ∧ decodeCommand 0b00010000 = none := by decide
theorem test_decode_first_lit8 :
    decode .first [false, false, true, false, false, false, false, false, false, true] = .ok (.firstLit8 0x81, []) := by
  decide
theorem test_decode_first_lit16 :
    decode .first [false, true, false, true, false, false, true, true, true, false, false, false, true, false, true, true,
      false, true] = .ok (.firstLit16 0x4E2D, []) := by decide
theorem test_decode_bad_first :
    decode .first [true, false, false] = .error .badFirst ∧ decode .first [true, true] = .error .badFirst := by decide
theorem test_decode_lit8 :
    decode (.later 4) [false, false, false, false, false, true, true, false, false, true, false, false, true] =
      .ok (.lit8 0x64, [true]) := by decide
theorem test_decode_lit16 :
    decode (.later 3) [false, false, true, false, false, false, false, false, false, false, true, false, false, false,
      false, false, false, false, false] = .ok (.lit16 0x0100, []) := by decide
theorem test_decode_eos : decode (.later 4) [false, false, true, false] = .ok (.eos, []) := by decide
theorem test_decode_ref : decode (.later 5) [true, false, false, true, true] = .ok (.ref 19, []) := by decide
theorem test_decode_truncated : decode (.later 3) [false, false, false, true] = .error .truncated := by decide

theorem test_table_words : decodeTableWord 8 0x05 = some (.decompress .utf16) ∧ decodeTableWord 8 0x10 = none ∧
    decodeTableWord 10 0x061 = some (.firstLit8 0x61) ∧ decodeTableWord 16 0x061 = some (.firstLit8 0x61) ∧
    decodeTableWord 18 0x14E2D = some (.firstLit16 0x4E2D) ∧ decodeTableWord 24 0x1FFFF = some (.firstLit16 0xFFFF) ∧
    decodeTableWord 3 2 = some .eos ∧ decodeTableWord 3 7 = some (.ref 7) ∧
    decodeTableWord 11 0x062 = some (.lit8 0x62) ∧ decodeTableWord 19 0x10100 = some (.lit16 0x0100) := by decide

/-! ### The refused terms of WellFormed, one for each check -/

theorem test_wf_place : (Instr.compress .raw).wellFormed .first = false ∧ (Instr.firstLit8 0).wellFormed (.later 3) = false ∧
    Instr.eos.wellFormed .command = false ∧ (Instr.lit8 0).wellFormed (.later 2) = false := by decide
theorem test_wf_control_code : (Instr.ref 2).wellFormed (.later 3) = false := by decide
theorem test_wf_code_fits : (Instr.ref 8).wellFormed (.later 3) = false := by decide
theorem test_code_known : (Instr.ref 5).codeKnown 4 = false ∧ (Instr.ref 4).codeKnown 4 = true := by decide

/-! ### One step of each instruction -/

/-- H-1: COMPRESS of the empty string ends DONE with OUT_LEN 0. -/
theorem test_compress_empty :
    seen (fun t => (t.regs.status, t.regs.outLen)) (exec (.compress .raw) State.reset) = some (.done, 0) := by decide
/-- R180, R181. -/
theorem test_compress_starts :
    seen (fun t => (t.phase, t.lat.nL, t.regs.cmd)) (exec (.compress .uriSafe) (holding [0x61])) =
      some (.encode, 1, 0x03) := by decide
/-- R180, R182. -/
theorem test_decompress_starts :
    seen (fun t => (t.phase, t.regs.status, dne t)) (exec (.decompress .raw) (holding [0x1850])) =
      some (.decodeFirst, .busy, 3, 2, 2) := by decide
/-- R180: IN_LEN beyond a finite IN_MAX. -/
theorem test_decompress_capacity : seen (fun t => (t.regs.status, t.regs.errCode))
    (exec (.decompress .raw) { holding [0, 0] with cfg := { Config.unbounded with inMax := some 1 } }) =
      some (.error, .capacity) := by decide
/-- R183: without keys SCR_L = 0, with one SCR_L = 1. -/
theorem test_compress_scrambled_starts :
    seen (fun t => (t.phase, t.lat.scr)) (exec .compressScrambled (holding [0x61])) = some (.encode, false) ∧
      seen (fun t => (t.phase, t.lat.scr)) (exec .compressScrambled (keyed [0x61] [(0, 42)] 1)) =
        some (.encode, true) := by decide
/-- R184: without keys the RAW path, with one UNSCRAMBLE. -/
theorem test_decompress_scrambled_starts :
    seen State.phase (exec .decompressScrambled (holding [0x61])) = some .decodeFirst ∧
      seen State.phase (exec .decompressScrambled (keyed [0x61] [(0, 42)] 1)) = some .unscramble := by decide
/-- X-1's first token, D/N/E 4/3/4. -/
theorem test_first_lit8 :
    seen (fun t => (t.dec.res, t.phase, dne t)) (step (running [0x1850] .decompress .raw .decodeFirst)) =
      some ([0x61], .decode, 4, 3, 4) := by decide
/-- E-6's first token. -/
theorem test_first_lit16 :
    seen (fun t => (t.codec.w, dne t)) (step (running [0x538B, 0x5000] .decompress .raw .decodeFirst)) =
      some ([0x4E2D], 4, 3, 4) := by decide
/-- E-2's second token: "ab", 6/3/2; entries b and ab (R111). -/
theorem test_lit8 : seen (fun t => (t.dec.res, t.dec.dlist.drop 3, dne t)) (exec (.lit8 0x62) afterFirst) =
    some ([0x61, 0x62], [[0x61], [0x62], [0x61, 0x62]], 6, 3, 2) := by decide
/-- E-10's second token: 0x0100 as a 16-bit literal; CC is the literal's own code (R124). -/
theorem test_lit16 : seen (fun t => (t.codec.w, t.dec.cc, dne t)) (exec (.lit16 0x0100) afterFirst) =
    some ([0x0100], 4, 6, 3, 2) := by decide
/-- X-5 and X-2: code 3 is "a", code 4 the entry being made (KwKwK). -/
theorem test_ref : seen (fun t => (t.dec.res, dne t)) (exec (.ref 3) afterFirst) = some ([0x61, 0x61], 5, 3, 3) ∧
    seen (fun t => (t.dec.res, dne t)) (exec (.ref 4) afterFirst) = some ([0x61, 0x61, 0x61], 5, 3, 3) := by decide
/-- H-12: OUT_MAX = 2, the KwKwK entry would make 3 units. -/
theorem test_ref_capacity : seen (fun t => (t.regs.errCode, t.regs.errIdx))
    (exec (.ref 4) { afterFirst with cfg := { Config.unbounded with outMax := some 2 } }) = some (.capacity, 0) := by decide
/-- R126: a code beyond DICTSIZE. -/
theorem test_ref_bad_code : seen (fun t => (t.regs.status, t.regs.errCode)) (exec (.ref 5) afterFirst) =
    some (.error, .badCode) := by decide
/-- R125: no TICK. -/
theorem test_eos : seen (fun t => (t.phase, dne t)) (exec .eos afterFirst) = some (.output, 4, 3, 4) := by decide

/-! ### One step of each phase -/

/-- E-2: "a" is emitted as FIRST_LIT8 0x61 when "b" comes; D/N/E is then 6/3/4 (R101, R103, R106). -/
theorem test_enc_step_emits :
    seen (fun t => (t.pack.pval, t.pack.ppos, t.codec.w, dne t)) (step encoding) = some (0x61, 10, [0x62], 6, 3, 4) := by
  decide
/-- H-10: DICT_MAX = 5, "ab" would take code 5. -/
theorem test_enc_step_capacity : seen (fun t => (t.regs.errCode, t.regs.errIdx, t.phase))
    (step { encoding with cfg := { Config.unbounded with dictMax := some 5 } }) = some (.capacity, 0, .finished) := by decide
/-- E-1: the raw symbols at BPC 16. -/
theorem test_enc_finish :
    seen (fun t => (t.pack.sym, t.phase, dne t))
      (step (withNL 1 encoding)) = some ([0x1850], .output, 4, 3, 4) := by decide
/-- A-1 under BASE64: "GFA=". -/
theorem test_output_base64 :
    seen (fun t => (t.outBuf, t.regs.outLen, t.regs.status))
      (step { running [0x61] .compress .base64 .output with pack := { Packer.start with sym := [0x06, 0x05, 0x00] } }) =
      some ([(0, 0x47), (1, 0x46), (2, 0x41), (3, 0x3D)], 4, .done) := by decide
/-- X-21: "G=A" under BASE64, the unit `=` at index 1. -/
theorem test_decode_bad_symbol : seen (fun t => (t.regs.errCode, t.regs.errIdx))
    (step (running [0x47, 0x3D, 0x41] .decompress .base64 .decodeFirst)) = some (.badSymbol, 1) := by decide
/-- R142, R184: a unit outside 0x0020 .. 0x801F. -/
theorem test_unscramble_bad_symbol :
    seen (fun t => (t.regs.errCode, t.regs.errIdx))
      (step ((holding [0x8020]).started .decompressScrambled .raw true .unscramble)) = some (.badSymbol, 0) := by decide
/-- R239: an input unit never written is refused when it is read (log 7, log 8). -/
theorem test_unwritten_input : (match step (withNL 1 (running [] .compress .raw .encode)) with
    | .refused (.unwrittenInput 0) => true
    | _ => false) = true := by decide

/-! ### The placed word is the one the next step runs, from reset -/

theorem test_fetch_words :
    seen (fun t => (t.regs.cmd, t.lat.op)) (step (State.reset.withFetchWord 8 0x05)) = some (0x05, .decompress) ∧
      seen (fun t => t.dec.res) (step (State.reset.withFetchWord 10 0x061)) = some [0x61] ∧
      seen (fun t => t.dec.res) (step (State.reset.withFetchWord 18 0x14E2D)) = some [0x4E2D] ∧
      seen (fun t => t.dec.res) (step (State.reset.withFetchWord 11 0x062)) = some [0, 0x62] ∧
      seen (fun t => t.dec.res) (step (State.reset.withFetchWord 19 0x10100)) = some [0, 0x0100] ∧
      seen (fun t => t.phase) (step (State.reset.withFetchWord 3 2)) = some .output ∧
      seen (fun t => t.dec.res) (step (State.reset.withFetchWord 3 4)) = some [0, 0, 0] := by decide

theorem test_reset_stores_wf : Memory.wf State.reset.inBuf ∧ Memory.wf State.reset.outBuf ∧ KeyFile.wf State.reset.keys :=
  ⟨.nil, .nil, .nil, fun _ h => (nomatch h)⟩

/-! ### Witnesses: states and operands that meet each statement's hypotheses -/

theorem not_tooBig {s : State} {op : Op} (h : State.beyondCapacity op (s.latchCommand 0 op .raw) = false) :
    ¬s.TooBig op := fun hb => by rw [(State.beyondCapacity_iff s op 0 .raw).2 hb] at h; cases h

theorem is_tooBig {s : State} {op : Op} (h : State.beyondCapacity op (s.latchCommand 0 op .raw) = true) :
    s.TooBig op := (State.beyondCapacity_iff s op 0 .raw).1 h

/-- A block with a finite capacity of 1 everywhere, holding two units and two keys. -/
def small : State :=
  { keyed [0x61, 0x62] [(0, 42), (1, 43)] 2 with
    cfg := { inMax := some 1, outMax := some 1, nkeysMax := some 1, dictMax := some 4, mix := .identity } }

theorem witness_DecodeInvertsEncode : (Instr.compress .uriSafe).wellFormed .command = true ∧
    (Instr.decompress .utf16).wellFormed .command = true ∧ Instr.compressScrambled.wellFormed .command = true ∧
    Instr.decompressScrambled.wellFormed .command = true ∧ (Instr.firstLit8 0xFF).wellFormed .first = true ∧
    (Instr.firstLit16 0xFFFF).wellFormed .first = true ∧ (Instr.lit8 0).wellFormed (.later 3) = true ∧
    (Instr.lit16 0xFFFF).wellFormed (.later 17) = true ∧ Instr.eos.wellFormed (.later 3) = true ∧
    (Instr.ref 3).wellFormed (.later 3) = true ∧ (Instr.ref 7).wellFormed (.later 3) = true := by decide

theorem witness_DecodedBitsAreTheEncoding :
    (∀ n, FetchContext.later 3 = .later n → 3 ≤ n) ∧ decode (.later 3) [false, true, false, true] = .ok (.eos, [true]) ∧
      decode .first [false, false, false, true, true, false, false, false, false, true] = .ok (.firstLit8 0x61, []) ∧
      decode .command [false, false, false, false, true, false, false, false] = .ok (.compressScrambled, []) :=
  ⟨fun n h => by cases h; decide, by decide, by decide, by decide⟩

theorem witness_StepRunsTheCommandWritten : ((holding [0x61]).withCommand 0x01).host = [.writeCmd 0x01] ∧
    ((holding [0x61]).withCommand 0x01).regs.status ≠ .busy ∧ decodeCommand 0x01 = some (.compress .utf16) := by decide

/-- An illegal word of each kind; a legal one beyond IN_MAX and one beyond NKEYS_MAX; legal ones within, on an empty
input and on one that is not, with keys and without. -/
theorem witness_CommandStartStep : small.regs.status ≠ .busy ∧
    IllegalWord 0x10 ∧ IllegalWord 0x09 ∧ ¬IllegalWord 0x00 ∧ ¬IllegalWord 0x0C ∧ small.TooBig .compress ∧
    (withNL 1 { small with regs := { small.regs with inLen := 1 } }).TooBig .decompressScrambled ∧
    ¬State.reset.TooBig .compress ∧ State.reset.regs.inLen = 0 ∧ ¬(holding [0x61]).TooBig .decompressScrambled ∧
    (holding [0x61]).regs.inLen ≠ 0 ∧ (holding [0x61]).regs.nkeys = 0 ∧ (keyed [0x61] [(0, 42)] 1).regs.nkeys ≠ 0 ∧
    ¬(keyed [0x61] [(0, 42)] 1).TooBig .decompressScrambled := by
  refine ⟨by decide, ?_, ?_, ?_, ?_, is_tooBig (by decide), is_tooBig (by decide), not_tooBig (by decide), rfl,
    not_tooBig (by decide), by decide, rfl, by decide, not_tooBig (by decide)⟩ <;> unfold IllegalWord <;> decide

theorem witness_PlainCommandsStart : (holding [0x61]).regs.inLen ≠ 0 ∧ ¬(holding [0x61]).TooBig .compress ∧
    ¬(holding [0x61]).TooBig .decompress := ⟨by decide, not_tooBig (by decide), not_tooBig (by decide)⟩

theorem witness_ScrambledCommandsStart : (keyed [0x61] [(0, 42)] 1).regs.inLen ≠ 0 ∧
    ¬(keyed [0x61] [(0, 42)] 1).TooBig .compressScrambled ∧ ¬(keyed [0x61] [(0, 42)] 1).TooBig .decompressScrambled ∧
    1 ≤ (keyed [0x61] [(0, 42)] 1).regs.nkeys ∧ ¬(holding [0x61]).TooBig .decompressScrambled ∧
    (holding [0x61]).regs.nkeys = 0 :=
  ⟨by decide, not_tooBig (by decide), not_tooBig (by decide), by decide, not_tooBig (by decide), rfl⟩

theorem witness_EmptyInputEndsDone : commandOf .decompress .base64 = some (.decompress .base64) ∧
    commandOf .compressScrambled .raw = some .compressScrambled ∧ State.reset.regs.inLen = 0 ∧
    ¬State.reset.TooBig .decompress ∧ ¬State.reset.TooBig .compressScrambled :=
  ⟨rfl, rfl, rfl, not_tooBig (by decide), not_tooBig (by decide)⟩

theorem witness_IllegalCommandStartsNoUnit : (State.reset.withCommand 0xFF).host = [.writeCmd 0xFF] ∧
    (State.reset.withCommand 0xFF).regs.status ≠ .busy ∧ IllegalWord 0xFF := by
  refine ⟨rfl, by decide, ?_⟩; unfold IllegalWord; decide

theorem witness_WritesWhileBusyAreDropped : encoding.regs.status = .busy ∧
    { encoding with host := [.write (.inLen 5)] }.host = [.write (.inLen 5)] ∧
    { encoding with host := [.writeCmd 0] }.host = [.writeCmd 0] ∧
    (∃ t, step encoding = .next t) ∧ encoding.host.head? ≠ some .reset := ⟨rfl, rfl, rfl, ⟨_, rfl⟩, by decide⟩

/-- A write of each kind, within and beyond a capacity. -/
theorem witness_HostWritesReadBack : small.regs.status ≠ .busy ∧ small.keys.wf ∧
    within 0 small.cfg.nkeysMax = true ∧ within 1 small.cfg.nkeysMax = false ∧ within 0 small.cfg.inMax = true ∧
    within 1 small.cfg.inMax = false ∧ within 0 small.cfg.outMax = true ∧ within 1 small.cfg.outMax = false ∧
    ∀ w, { small with host := [.write w] }.host = [.write w] :=
  ⟨by decide, ⟨by decide, by decide⟩, rfl, rfl, rfl, rfl, rfl, rfl, fun _ => rfl⟩

/-- A reserved number at each end of its range, key 0, and a key beyond NKEYS_MAX, which the statement leaves out; a block
that is not BUSY and one that is. -/
theorem witness_HostReadsReturnTheRegister : small.regs.status ≠ .busy ∧ encoding.regs.status = .busy ∧
    (7 < 16 ∨ within (7 - 16) small.cfg.nkeysMax = true) ∧
    (15 < 16 ∨ within (15 - 16) small.cfg.nkeysMax = true) ∧ (16 < 16 ∨ within (16 - 16) small.cfg.nkeysMax = true) ∧
    ¬(17 < 16 ∨ within (17 - 16) small.cfg.nkeysMax = true) ∧
    (∀ n, { small with host := [.read (.reg n)] }.host = [.read (.reg n)]) ∧
    ∀ n, { encoding with host := [.read (.reg n)] }.host = [.read (.reg n)] :=
  ⟨by decide, rfl, by decide, by decide, by decide, by decide, fun _ => rfl, fun _ => rfl⟩

theorem witness_ReadsChangeNothing : { small with host := [.read (.inBuf 0)] }.host = [.read (.inBuf 0)] ∧
    within 0 small.cfg.inMax = true ∧ small.inBuf.read 0 = some 0x61 ∧
    within 0 small.cfg.outMax = true ∧ { small with outBuf := [(0, 7)] }.outBuf.read 0 = some 7 ∧
    small.regs.status ≠ .busy := by decide

theorem witness_ResetLeavesHostRegistersZero : { encoding with host := [.reset] }.host = [.reset] ∧
    State.reset.phase = .idle ∧ State.reset.host = [] := ⟨rfl, rfl, rfl⟩

/-- "a" then "a", with "aa" already an entry. -/
def extending : State :=
  { encoding with
    inBuf := [(0, 0x61), (1, 0x61)]
    codec := { encoding.codec with dict := [([0x61], 3), ([0x61, 0x61], 4)], dictSize := 5, pend := [] } }

theorem witness_EncoderExtendsTheMatch :
    (extending.phase = .encode ∧ extending.host = [] ∧ extending.codec.idx < extending.lat.nL ∧
      extending.inBuf.read extending.codec.idx = some 0x61 ∧ dictLookup extending.codec.dict [0x61] = some 3 ∧
      dictLookup extending.codec.dict (extending.codec.w ++ [0x61]) = some 4) ∧
    (let s := running [0x61] .compress .raw .encode
     s.phase = .encode ∧ s.host = [] ∧ s.codec.idx < s.lat.nL ∧ s.inBuf.read s.codec.idx = some 0x61 ∧
      dictLookup s.codec.dict [0x61] = none ∧ s.codec.w = [] ∧ exceeds (s.codec.dictSize + 1) (some 4) = false) := by
  decide

theorem witness_TickCountsDown : { Codec.start with enlargeIn := 1 }.enlargeIn = 1 ∧ 2 ≤ Codec.start.enlargeIn := by decide

theorem encoding_emits : encoding.Emits (.lit8 0x61) := ⟨3, by decide, .inl ⟨0x61, by decide⟩⟩

/-- "aa" is W, no unit is pending. -/
def referring : State := { extending with codec := { extending.codec with w := [0x61, 0x61] } }

theorem referring_emits : referring.Emits (.ref 4) := ⟨4, by decide, .inr ⟨fun ⟨_, h, _⟩ => (nomatch h), rfl⟩⟩

/-- A pending unit before a new one, at the very DICT_MAX and OUT_MAX that hold it, and a REF before a known unit. -/
theorem witness_EncoderEmitsOnMismatch :
    (encoding.phase = .encode ∧ encoding.host = [] ∧ encoding.codec.idx < encoding.lat.nL ∧
      encoding.inBuf.read encoding.codec.idx = some 0x62 ∧
      dictLookup encoding.codec.dict (encoding.codec.w ++ [0x62]) = none ∧ encoding.codec.w ≠ [] ∧
      encoding.Emits (.lit8 0x61) ∧ encoding.pack.Sound (bpcOf encoding.adapter) ∧
      encoding.pack.overflows (bpcOf encoding.adapter) (some 0) (encode (.later 2) (.lit8 0x61)).length = false ∧
      exceeds (encoding.codec.dictSize + 2) (some 6) = false ∧ dictLookup encoding.codec.dict [0x62] = none) ∧
    (dictLookup referring.codec.dict (referring.codec.w ++ [0x61]) = none ∧ referring.codec.w ≠ [] ∧
      referring.Emits (.ref 4) ∧ dictLookup referring.codec.dict [0x61] = some 3 ∧
      exceeds (referring.codec.dictSize + 1) (some 6) = false) :=
  ⟨⟨rfl, rfl, by decide, rfl, by decide, by decide, encoding_emits, ⟨by decide, by decide⟩, by decide, by decide, by decide⟩,
    by decide, by decide, referring_emits, by decide, by decide⟩

/-- E-1: "a", 13 bits at BPC 16, in the one symbol that OUT_MAX = 1 holds. -/
theorem witness_EncoderFinishesThePass :
    let s := withNL 1 encoding
    let bits := encode (.later 2) (.lit8 0x61) ++ encode (.later 3) .eos
    s.phase = .encode ∧ s.host = [] ∧ s.lat.nL ≤ s.codec.idx ∧ s.Emits (.lit8 0x61) ∧ s.pack.Sound (bpcOf s.adapter) ∧
      (Nat.iterate Codec.tick (tokenTicks (.lit8 0x61)) s.codec).numBits = 3 ∧
      exceeds (s.pack.symbolsAfter 16 bits.length + 1) (some 1) = false :=
  ⟨rfl, rfl, by decide, encoding_emits, ⟨by decide, by decide⟩, by decide, by decide⟩

/-- A new unit beyond DICT_MAX; a mismatch beyond OUT_MAX (H-9's first symbol, at OUT_MAX = 0) and one beyond DICT_MAX
(H-10); and the end of a pass beyond OUT_MAX. -/
theorem witness_EncoderRaisesCapacity :
    (encoding.phase = .encode ∧ encoding.host = [] ∧ encoding.codec.idx < encoding.lat.nL ∧
      encoding.inBuf.read encoding.codec.idx = some 0x62 ∧ dictLookup encoding.codec.dict [0x62] = none ∧
      exceeds (encoding.codec.dictSize + 1) (some 4) = true) ∧
    (dictLookup encoding.codec.dict (encoding.codec.w ++ [0x62]) = none ∧ encoding.codec.w ≠ [] ∧
      encoding.Emits (.lit8 0x61) ∧ encoding.pack.Sound (bpcOf encoding.adapter) ∧
      { encoding.pack with ppos := 6 }.overflows 16 (some 0) (encode (.later 2) (.lit8 0x61)).length = true ∧
      exceeds (encoding.codec.dictSize + 2) (some 5) = true) ∧
    ((withNL 1 encoding).lat.nL ≤ (withNL 1 encoding).codec.idx ∧ (withNL 1 encoding).Emits (.lit8 0x61) ∧
      exceeds (encoding.pack.symbolsAfter 16 13 + 1) (some 0) = true) :=
  ⟨⟨rfl, rfl, by decide, rfl, by decide, by decide⟩,
    ⟨by decide, by decide, encoding_emits, ⟨by decide, by decide⟩, by decide, by decide⟩, by decide, encoding_emits,
    by decide⟩

/-- ENCODE meets a full dictionary. -/
theorem witness_EncoderRaisesOnlyCapacity : ∃ s t : State, s.regs.status = .busy ∧ s.phase = .encode ∧
    step s = .next t ∧ t.regs.status = .error :=
  ⟨{ encoding with cfg := { Config.unbounded with dictMax := some 4 } }, _, rfl, rfl, rfl, by decide⟩

theorem witness_WidthsAndDictionaryOnlyGrow : ∃ s t : State, s.regs.status = .busy ∧ step s = .next t ∧
    s.host.head? ≠ some .reset := ⟨encoding, _, rfl, rfl, by decide⟩

theorem witness_PackAppendsTheField :
    Packer.Sound 1 Packer.start ∧ Packer.Sound 16 { Packer.start with pval := 0x7FFF, ppos := 15 } ∧
    { Packer.start with pval := 0x7FFF, ppos := 15 }.overflows 16 (some 1) 1 = false ∧
    { Packer.start with pval := 0x7FFF, ppos := 15 }.overflows 16 (some 0) 1 = true ∧
    { Packer.start with pval := 0x7FFF, ppos := 15 }.overflows 16 (some 0) 0 = false :=
  ⟨⟨by decide, by decide⟩, ⟨by decide, by decide⟩, by decide, by decide, by decide⟩

theorem witness_FlushAddsOneSymbol : Packer.Sound 6 Packer.start ∧ Packer.start.ppos = 0 ∧
    Packer.Sound 15 { Packer.start with pval := 0x030A, ppos := 13 } ∧
    exceeds (Packer.start.sym.length + 1) (some 1) = false ∧ exceeds (Packer.start.sym.length + 1) (some 0) = true :=
  ⟨⟨by decide, by decide⟩, rfl, ⟨by decide, by decide⟩, by decide, by decide⟩

theorem witness_UnpackInvertsPack : ∀ f ∈ [(5, 3), (0, 0), (0x2A, 6)], f.1 < 2 ^ f.2 := by decide

theorem witness_ReaderStopsAtTheEnd : Reader.start.rmask = 0 ∧ 0 ≤ Reader.start.ridx ∧ Reader.start.ridx < 1 ∧
    loadInput .base64 [(0, 0x3D)] Reader.start.ridx = .badSymbol := by decide

theorem witness_StepRunsTheDecodedToken :
    (let s := running [0x1850] .decompress .raw .decodeFirst
     s.host = [] ∧ s.MaskLegal ∧ s.read.ridx ≤ s.lat.nL ∧ s.phase = .decodeFirst ∧
      decode .first s.unreadBits = .ok (.firstLit8 0x61, [false, true, false, false, false, false])) ∧
    (let s := { afterFirst with read := { rval := 0x1850, rmask := 0x0020, ridx := 1 } }
     s.host = [] ∧ s.MaskLegal ∧ s.read.ridx ≤ s.lat.nL ∧ s.phase = .decode ∧
      decode (.later s.codec.numBits) s.unreadBits = .ok (.eos, [false, false, false])) :=
  ⟨⟨rfl, .inl rfl, by decide, rfl, by decide⟩, ⟨rfl, .inr ⟨5, by decide, by decide⟩, by decide, rfl, by decide⟩⟩

theorem no_symbol_left {s : State} {n : Nat} (h : s.read.ridx = n) :
    ∀ i, s.read.ridx ≤ i → i < n → ∃ r, s.nextSym i = .symbol r := fun i h1 h2 => by omega

/-- A bad prefix; a stream cut short in each phase; and X-19 and X-21's units outside the alphabet. -/
theorem witness_BadStreamsAreReported :
    (let s := running [0x8000] .decompress .raw .decodeFirst
     s.host = [] ∧ s.MaskLegal ∧ s.read.ridx ≤ s.lat.nL ∧ decode .first s.unreadBits = .error .badFirst) ∧
    (let s := running [0x41] .decompress .base64 .decodeFirst
     s.MaskLegal ∧ s.read.ridx ≤ s.lat.nL ∧ (∀ j, s.read.ridx ≤ j → j < s.lat.nL → ∃ r, s.nextSym j = .symbol r) ∧
      decode .first s.unreadBits = .error .truncated) ∧
    (let s := { afterFirst with read := { rval := 0, rmask := 0, ridx := 1 } }
     s.MaskLegal ∧ s.read.ridx ≤ s.lat.nL ∧ (∀ j, s.read.ridx ≤ j → j < s.lat.nL → ∃ r, s.nextSym j = .symbol r) ∧
      decode (.later s.codec.numBits) s.unreadBits = .error .truncated) ∧
    (let s := running [0x1F] .decompress .utf16 .decodeFirst
     s.host = [] ∧ s.MaskLegal ∧ s.lat.scr = false ∧ s.read.ridx ≤ 0 ∧ 0 < s.lat.nL ∧
      (∀ i, s.read.ridx ≤ i → i < 0 → ∃ r, s.nextSym i = .symbol r) ∧ s.inBuf.read 0 = some 0x1F ∧
      unmapUnit s.adapter 0x1F = none ∧ decode .first s.unreadBits = .error .truncated) ∧
    (let s := running [0x47, 0x3D, 0x41] .decompress .base64 .decodeFirst
     s.read.ridx ≤ 1 ∧ 1 < s.lat.nL ∧ (∀ i, s.read.ridx ≤ i → i < 1 → ∃ r, s.nextSym i = .symbol r) ∧
      s.inBuf.read 1 = some 0x3D ∧ unmapUnit s.adapter 0x3D = none ∧
      decode .first s.unreadBits = .error .truncated) := by
  refine ⟨⟨rfl, .inl rfl, by decide, by decide⟩, ⟨.inl rfl, by decide, ?_, by decide⟩,
    ⟨.inl rfl, by decide, no_symbol_left rfl, by decide⟩,
    ⟨rfl, .inl rfl, rfl, by decide, by decide, no_symbol_left rfl, by decide, by decide, by decide⟩,
    by decide, by decide, ?_, by decide, by decide, by decide⟩
  · intro j _ h
    obtain rfl : j = 0 := Nat.lt_one_iff.1 h
    exact ⟨0, by decide⟩
  · intro j _ h
    obtain rfl : j = 0 := Nat.lt_one_iff.1 h
    exact ⟨6, by decide⟩

theorem witness_FirstLiteralsComplete :
    exceeds (State.reset.codec.dictSize + 1) (some 4) = false ∧ exceeds 1 (some 1) = false := by decide

theorem witness_LiteralsComplete : exceeds (afterFirst.codec.dictSize + 2) (some 6) = false ∧
    exceeds (afterFirst.dec.res.length + 1) (some 2) = false := by decide

/-- An entry, the KwKwK code, and a code beyond DICTSIZE. -/
theorem witness_ReferencesComplete : (3 < afterFirst.codec.dictSize ∧ afterFirst.dec.dlist[3]? = some [0x61]) ∧
    (4 = afterFirst.codec.dictSize ∧ ∃ y, afterFirst.codec.w.head? = some y ∧ ([0x61, 0x61] : Str) = afterFirst.codec.w ++ [y]) ∧
    exceeds (afterFirst.codec.dictSize + 1) afterFirst.cfg.dictMax = false ∧
    exceeds (afterFirst.dec.res.length + 2) afterFirst.cfg.outMax = false ∧ afterFirst.codec.dictSize < 5 :=
  ⟨by decide, ⟨rfl, 0x61, by decide⟩, rfl, rfl, by decide⟩

/-- Each token at the least capacity it is beyond; the REF of an entry, and the KwKwK one of H-12. -/
theorem witness_TokensBeyondCapacity : exceeds (State.reset.codec.dictSize + 1) (some 3) = true ∧ exceeds 1 (some 0) = true ∧
    exceeds (afterFirst.codec.dictSize + 2) (some 5) = true ∧ exceeds (afterFirst.dec.res.length + 1) (some 1) = true ∧
    (3 < afterFirst.codec.dictSize ∧ afterFirst.dec.dlist[3]? = some [0x61] ∧ ([0x61] : Str) ≠ []) ∧
    (4 = afterFirst.codec.dictSize ∧ ∃ y, afterFirst.codec.w.head? = some y ∧ ([0x61, 0x61] : Str) = afterFirst.codec.w ++ [y]) ∧
    exceeds (afterFirst.codec.dictSize + 1) (some 4) = true ∧ exceeds (afterFirst.dec.res.length + 2) (some 2) = true :=
  ⟨by decide, by decide, by decide, by decide, by decide, ⟨rfl, 0x61, by decide⟩, by decide, by decide⟩

/-- Each range of MAP's tables at both its ends. -/
theorem witness_MapGivesTheTables : (0x7FFF : Symbol).toNat < 2 ^ 15 ∧ (0 : Symbol).toNat < 26 ∧ (25 : Symbol).toNat < 26 ∧
    26 ≤ (26 : Symbol).toNat ∧ (51 : Symbol).toNat < 52 ∧ 52 ≤ (52 : Symbol).toNat ∧ (61 : Symbol).toNat < 62 ∧
    (62 : Symbol).toNat = 62 ∧ (63 : Symbol).toNat = 63 := by decide

theorem witness_OutputUnitsAreSafe : (0x7FFF : Symbol).toNat < 2 ^ bpcOf .utf16 ∧ (0x7FFF : Symbol).toNat < 2 ^ bpcOf .scr15 ∧
    (0 : Symbol).toNat < 2 ^ bpcOf .base64 ∧ (63 : Symbol).toNat < 2 ^ bpcOf .uriSafe := by decide

/-- A compress command within OUT_MAX and beyond it, and a decompress command. -/
theorem witness_OutputCopiesTheResult :
    (let s := { running [0x61] .compress .base64 .output with pack := { Packer.start with sym := [6, 5, 0] } }
     s.phase = .output ∧ s.host = [] ∧ isCompress s.lat.op = true ∧ exceeds (3 + 1) s.cfg.outMax = false ∧
      exceeds (3 + 1) (some 3) = true) ∧
    (let s := { afterFirst with phase := .output }
     s.phase = .output ∧ s.host = [] ∧ isCompress s.lat.op = false) := by decide

theorem witness_KeyOrderIsImmaterial : List.Perm [42, 43] [43, (42 : Word64)] := List.Perm.swap 43 42 []

theorem witness_ScrambleStep :
    let s := { (keyed [0x61] [(0, 42)] 1).started .compressScrambled .raw true .scramble with
      pack := { Packer.start with sym := [0x0C28] } }
    s.phase = .scramble ∧ s.host = [] := ⟨rfl, rfl⟩

/-- A unit outside the range, one inside it that is not the last and one that is, and the passes. -/
theorem witness_UnscrambleSteps :
    let s := (keyed [0x1F, 0x20] [(0, 42)] 1).started .decompressScrambled .raw true .unscramble
    let u := { s with inBuf := [(0, 0x801F), (1, 0x20)] }
    let v := { u with pack := { s.pack with sym := [0x7FFF] }, read := { s.read with ridx := 1 } }
    s.phase = .unscramble ∧ s.host = [] ∧ s.lat.scr = true ∧ s.pack.sym.length < s.lat.nL ∧
      s.inBuf.read s.read.ridx = some 0x1F ∧ u.inBuf.read u.read.ridx = some 0x801F ∧ u.pack.sym.length + 1 < u.lat.nL ∧
      v.inBuf.read v.read.ridx = some 0x20 ∧ v.pack.sym.length + 1 = v.lat.nL ∧
      { v with pack := { s.pack with sym := [0x7FFF, 0] } }.lat.nL ≤ 2 := by decide

theorem witness_NoOutputOnError : ∃ s t : State, s.regs.status = .busy ∧ step s = .next t ∧
    s.host.head? ≠ some .reset ∧ s.phase ≠ .output ∧ t.regs.status = .error :=
  ⟨running [0x8000] .decompress .raw .decodeFirst, _, rfl, rfl, by decide, by decide, by decide⟩

theorem witness_CausesOfTokens : ∃ t u : State, (Instr.ref 5).fitsPlace (.later 3) = true ∧ afterFirst.regs.status = .busy ∧
    exec (.ref 5) afterFirst = .next t ∧ t.regs.status = .error ∧
    exec (.lit8 0) { afterFirst with cfg := { Config.unbounded with outMax := some 1 } } = .next u ∧ u.regs.status = .error :=
  ⟨_, _, rfl, rfl, rfl, by decide, rfl, by decide⟩

/-- A command accepted, dropped, and each other turn; an engine step of a running phase, and one on EOS. -/
theorem witness_PhaseTransitions :
    (∀ x : HostTurn, x ≠ .engine →
      let s := { holding [0x61] with host := [x] }
      (s.regs.status = .busy ↔ s.phase.isRunning = true) ∧ ∃ t, step s = .next t) ∧
    (∀ x : HostTurn,
      let s := { encoding with host := [x] }
      (s.regs.status = .busy ↔ s.phase.isRunning = true) ∧ ∃ t, step s = .next t) ∧
    ((running [0x1850] .decompress .raw .decodeFirst).EngineMoves ∧
      ∃ t, step (running [0x1850] .decompress .raw .decodeFirst) = .next t) ∧
    (let s := { afterFirst with read := { rval := 0x1850, rmask := 0x0020, ridx := 1 } }
     s.EngineMoves ∧ s.phase = .decode ∧ s.MaskLegal ∧ s.read.ridx ≤ s.lat.nL ∧
      decode (.later s.codec.numBits) s.unreadBits = .ok (.eos, [false, false, false])) := by
  refine ⟨fun x _ => ⟨by simp [holding, State.reset, Phase.isRunning], ?_⟩,
    fun x => ⟨by simp [encoding, running, State.started, Phase.isRunning], ?_⟩, ⟨.inl rfl, _, rfl⟩,
    .inl rfl, rfl, .inr ⟨5, by decide, by decide⟩, by decide, by decide⟩
  · cases x with
    | writeCmd c =>
      have legal : ∀ (i : Instr) (s : State), isCommand i = true → ∃ t, exec i s = .next t := by
        intro i s h; cases i <;> first | exact ⟨_, rfl⟩ | cases h
      show ∃ t, commandStep c _ = .next t
      unfold commandStep
      cases hd : decodeCommand c with
      | none => exact ⟨_, rfl⟩
      | some i => exact legal i _ (decodeCommand_isCommand hd)
    | _ => exact ⟨_, rfl⟩
  · cases x <;> exact ⟨_, rfl⟩

theorem witness_StepKeepsStoresCanonical : ∃ s t : State, s.Canonical ∧ step s = .next t :=
  ⟨encoding, _, ⟨by decide, .nil, .nil, fun _ h => (nomatch h)⟩, rfl⟩

theorem witness_ParametersNeverChange : ∃ s t : State, step s = .next t := ⟨{ small with host := [.reset] }, _, rfl⟩

/-- The invariant at a state of a run: ENCODE, one unit taken in, whatever IN_BUF holds. -/
theorem encoding_inv (m : Memory) (hm : m.wf) : { encoding with inBuf := m }.Inv := by
  refine ⟨⟨hm, .nil, .nil, fun _ h => absurd h List.not_mem_nil⟩, ?_, ?_, ?_, fun _ => ?_, fun _ => ?_, fun _ => ?_, ?_, ?_,
    ?_, ?_, ?_⟩
  · constructor <;> simp [encoding, running, State.started, Phase.isRunning]
  · constructor <;> simp [encoding, running, State.started, Codec.start]
  · simp [encoding, running, State.started, holding, State.reset]
  · constructor <;> simp [encoding, running, State.started, isCompress, isScrambled, scrAtStart, holding]
  · constructor <;> simp [encoding, running, State.started, State.adapter, adapterOf, bpcOf]
  · constructor <;> simp [encoding, running, State.started, Codec.start, holding]
  all_goals simp [encoding, running, State.started]

theorem witness_StepKeepsInvariant : ∃ s t : State, s.Inv ∧ step s = .next t := ⟨encoding, _, encoding_inv _ (by decide), rfl⟩

/-- A step that completes, and one refused for a unit never written. -/
theorem witness_NoFaultsInARun : ∃ s : State, s.Inv ∧ step s = .refused (.unwrittenInput 1) :=
  ⟨{ encoding with inBuf := [(0, 0x61)] }, encoding_inv _ (by decide), rfl⟩

theorem holding_written : (holding [0x61, 0x62]).InputWritten (holding [0x61, 0x62]).regs.inLen := by
  unfold State.InputWritten; decide

theorem witness_EveryCommandEnds : (holding [0x61, 0x62]).regs.status ≠ .busy ∧
    (holding [0x61, 0x62]).InputWritten (holding [0x61, 0x62]).regs.inLen := ⟨by decide, holding_written⟩

theorem witness_CompressionAlwaysSucceeds : isCompress .compressScrambled = true ∧ (holding [0x61, 0x62]).regs.status ≠ .busy ∧
    (holding [0x61, 0x62]).Unbounded ∧ (holding [0x61, 0x62]).InputWritten (holding [0x61, 0x62]).regs.inLen :=
  ⟨rfl, by decide, ⟨rfl, rfl, rfl, rfl⟩, holding_written⟩

/-- Two blocks that agree on all a command reads and differ elsewhere. -/
theorem witness_ResultsDependOnlyOnInputs :
    let s := keyed [0x61] [(0, 42)] 1
    let t := { keyed [0x61, 0x7A] [(0, 42), (1, 7)] 1 with
      regs := { s.regs with status := .error, errCode := .badCode }, outBuf := [(3, 1)], phase := .finished }
    s.regs.status ≠ .busy ∧ t.regs.status ≠ .busy ∧ s.cfg = t.cfg ∧ s.regs.inLen = t.regs.inLen ∧
      s.regs.nkeys = t.regs.nkeys ∧ (∀ i < s.regs.inLen, s.inBuf.read i = t.inBuf.read i) ∧
      (∀ i < s.regs.nkeys, s.keys.read i = t.keys.read i) ∧ isScrambled (opOf (opField 0x08)) = true ∧ s ≠ t := by decide

/-- The compressing block, and a block that takes whatever it gave. -/
theorem witness_PlainRoundTrip : (holding [0x61, 0x62]).regs.status ≠ .busy ∧ (holding [0x61, 0x62]).Unbounded ∧
    (holding [0x61, 0x62]).InputWritten (holding [0x61, 0x62]).regs.inLen ∧
    ∀ t : State, ∃ u : State, u.regs.status ≠ .busy ∧ u.Unbounded ∧ u.regs.inLen = t.regs.outLen ∧
      ∀ i < t.regs.outLen, u.inBuf.read i = t.outBuf.read i :=
  ⟨by decide, ⟨rfl, rfl, rfl, rfl⟩, holding_written, fun t =>
    ⟨{ State.reset with inBuf := t.outBuf, regs := { State.reset.regs with inLen := t.regs.outLen } }, by simp [State.reset],
      ⟨rfl, rfl, rfl, rfl⟩, rfl, fun _ _ => rfl⟩⟩

theorem witness_ScrambledRoundTrip :
    let s := keyed [0x61, 0x62] [(0, 42), (1, 43)] 2
    s.regs.status ≠ .busy ∧ s.Unbounded ∧ s.InputWritten s.regs.inLen ∧
    ∀ t : State, ∃ u : State, u.regs.status ≠ .busy ∧ u.cfg = s.cfg ∧ u.regs.inLen = t.regs.outLen ∧
      u.regs.nkeys = s.regs.nkeys ∧ (∀ i < s.regs.nkeys, u.keys.read i = s.keys.read i) ∧
      ∀ i < t.regs.outLen, u.inBuf.read i = t.outBuf.read i :=
  ⟨by decide, ⟨rfl, rfl, rfl, rfl⟩, by unfold State.InputWritten; decide, fun t =>
    ⟨{ keyed [0x61, 0x62] [(0, 42), (1, 43)] 2 with
        inBuf := t.outBuf, regs := { (keyed [0x61, 0x62] [(0, 42), (1, 43)] 2).regs with inLen := t.regs.outLen } },
      by simp [keyed, holding, State.reset], rfl, rfl, rfl, fun _ _ => rfl, fun _ _ => rfl⟩⟩

end Sys2Proof.Tests
end

section
namespace Sys2Proof.Machine

/-! ### A TICK by the value of its counter (R104) -/

/-- The counter runs out: it is reset by the old NUMBITS, which then grows. -/
theorem Codec.tick_of_enlargeIn_eq_one {c : Codec} (h : c.enlargeIn = 1) :
    c.tick = { c with enlargeIn := 2 ^ c.numBits, numBits := c.numBits + 1 } :=
  if_pos (by rw [h])

/-- The counter does not run out: it counts down by one and NUMBITS stays. -/
theorem Codec.tick_of_two_le_enlargeIn {c : Codec} (h : 2 ≤ c.enlargeIn) :
    c.tick = { c with enlargeIn := c.enlargeIn - 1 } :=
  have running : c.enlargeIn - 1 ≠ 0 := by omega
  if_neg running

/-- Settles O16: the two branches of TICK, told apart by whether the counter is 1 or at least 2. -/
theorem tickCountsDown : Obligations.TickCountsDown :=
  fun _ => ⟨Codec.tick_of_enlargeIn_eq_one, Codec.tick_of_two_le_enlargeIn⟩

end Sys2Proof.Machine
end

section
namespace Sys2Proof.Machine

/-! ### The tokens of the decoder, where they complete (R125 to R127) -/

/-- A code that names a string resolves to it: an entry below DICTSIZE, the KwKwK string at DICTSIZE. -/
theorem State.resolveRef_of_named {s : State} {k : Nat} {e : Str}
    (h : (k < s.codec.dictSize ∧ s.dec.dlist[k]? = some e) ∨
      (k = s.codec.dictSize ∧ ∃ y, s.codec.w.head? = some y ∧ e = s.codec.w ++ [y])) :
    s.resolveRef k = .ok e s := by
  unfold State.resolveRef
  obtain ⟨below, entry⟩ | ⟨rfl, y, first, rfl⟩ := h
  · simp [below, entry]
  · simp [firstUnit_eq_some.2 ⟨y, first, rfl⟩]

/-- A code beyond DICTSIZE is BAD_CODE. -/
theorem State.resolveRef_of_dictSize_lt {s : State} {k : Nat} (h : s.codec.dictSize < k) :
    s.resolveRef k = .raise .badCode s := by
  unfold State.resolveRef
  rw [if_neg (by omega), if_neg (by omega)]

/-- The common tail completes on an entry that is not empty, within the capacities; the one TICK does not see
the entry registered before it. -/
theorem State.commonTail_of_within {s : State} {x : CodeUnit} (first : s.dec.entry.head? = some x)
    (room : exceeds (s.codec.dictSize + 1) s.cfg.dictMax = false)
    (fits : exceeds (s.dec.res.length + s.dec.entry.length) s.cfg.outMax = false) :
    s.commonTail = .ok () { s with
      codec := { s.codec.tick with w := s.dec.entry, dictSize := s.codec.dictSize + 1 }
      dec := { s.dec with dlist := s.dec.dlist ++ [s.codec.w ++ [x]], res := s.dec.res ++ s.dec.entry } } := by
  have unit : firstUnit s.dec.entry = some [x] := firstUnit_eq_some.2 ⟨x, first, rfl⟩
  unfold State.commonTail
  simp only [fits, unit, room, State.appendEntry, Bool.false_eq_true, if_false]
  rw [Codec.tick_of_widths s.codec (d := { s.codec with dictSize := s.codec.dictSize + 1 }) rfl rfl,
    Codec.tick_eq s.codec]

/-- REF resolves its code to ENTRY and goes on with the common tail. -/
theorem exec_ref (k : Nat) (s : State) : exec (.ref k) s =
    ((s.resolveRef k).bind fun e s => State.commonTail { s with dec := { s.dec with entry := e } }).outcome := rfl

/-- Settles O32: a named code resolves and the common tail completes; a code beyond DICTSIZE raises. -/
theorem referencesComplete : Obligations.ReferencesComplete := by
  intro s k
  refine ⟨fun e x named first room fits => ?_, fun beyond => ?_⟩
  · have completes := State.commonTail_of_within (s := { s with dec := { s.dec with entry := e } }) first room fits
    rw [exec_ref, State.resolveRef_of_named named, Eff.bind_ok_left, completes]
    rfl
  · have raised : exec (.ref k) s = .next (s.raise .badCode) := by
      rw [exec_ref, State.resolveRef_of_dictSize_lt beyond]
      rfl
    exact ⟨_, raised, ⟨rfl, rfl, rfl, rfl, rfl⟩, rfl⟩

/-- Settles O33: EOS only moves PHASE to OUTPUT. -/
theorem endOfStreamCompletes : Obligations.EndOfStreamCompletes := fun _ => rfl

end Sys2Proof.Machine
end

section
namespace Sys2Proof.Machine

/-! ### A word of CMD, told illegal or resolved to its command (R61, R71) -/

/-- No command has the fields: a scrambled operation with an alphabet of its own (R61). -/
theorem commandOf_eq_none {op : Op} {a : Alphabet} :
    commandOf op a = none ↔ isScrambled op = true ∧ a ≠ .raw := by
  cases op <;> cases a <;> simp [commandOf, isScrambled]

theorem isScrambled_opOf (b : BitVec 2) : isScrambled (opOf b) = true ↔ 2 ≤ b.toNat := by
  revert b; decide

theorem alphaOf_eq_raw (b : BitVec 2) : alphaOf b = .raw ↔ b.toNat = 0 := by
  revert b; decide

theorem opCode_opOf (b : BitVec 2) : opCode (opOf b) = b := by
  revert b; decide

theorem alphaCode_alphaOf (b : BitVec 2) : alphaCode (alphaOf b) = b := by
  revert b; decide

theorem opField_toNat (c : Byte) : (opField c).toNat = c.toNat / 4 % 4 := by
  simp [opField, Nat.shiftRight_eq_div_pow]

theorem alphaField_toNat (c : Byte) : (alphaField c).toNat = c.toNat % 4 := by
  simp [alphaField]

theorem reservedField_toNat (c : Byte) : (reservedField c).toNat = c.toNat / 16 := by
  have bound : c.toNat / 2 ^ 4 < 2 ^ 4 := by omega
  simpa [reservedField, Nat.shiftRight_eq_div_pow] using bound

theorem reservedField_eq_zero (c : Byte) : reservedField c = 0 ↔ c.toNat / 16 = 0 := by
  rw [← reservedField_toNat, ← BitVec.toNat_inj]
  rfl

/-- An illegal word has a reserved bit set, or fields no command has. -/
theorem illegalWord_iff {c : Byte} :
    IllegalWord c ↔ reservedField c ≠ 0 ∨ commandOf (opOf (opField c)) (alphaOf (alphaField c)) = none := by
  rw [commandOf_eq_none, isScrambled_opOf, opField_toNat, ne_eq, ne_eq, alphaOf_eq_raw, alphaField_toNat,
    reservedField_eq_zero, IllegalWord]

/-- The words the decoder rejects are the illegal ones. -/
theorem decodeCommand_eq_none {c : Byte} : decodeCommand c = none ↔ IllegalWord c := by
  rw [illegalWord_iff, decodeCommand, ite_eq_right_iff, imp_iff_not_or]

/-- A word with RSV0 = 0 is built from its fields. -/
theorem commandWord_of_fields {c : Byte} (reserved : reservedField c = 0) :
    commandWord (opOf (opField c)) (alphaOf (alphaField c)) = c := by
  have fields : reservedField c ++ opField c ++ alphaField c = c := by
    unfold reservedField opField alphaField
    ext
    grind
  rw [commandWord, opCode_opOf, alphaCode_alphaOf]
  rwa [reserved] at fields

/-! ### The start step (R180) -/

/-- A command's meaning is the start step on its fields. -/
theorem exec_of_commandOf {op : Op} {a : Alphabet} {i : Instr} (h : commandOf op a = some i) (s : State) :
    exec i s = .next (startCommand op a s) := by
  cases op <;> cases a <;> cases h <;> rfl

theorem commandStep_of_illegal {c : Byte} (h : IllegalWord c) (s : State) :
    commandStep c s = .next (illegalCommand c s) := by
  simp only [commandStep, decodeCommand_eq_none.2 h]

/-- A legal word runs the start step on its fields, and is the word those fields encode to. -/
theorem commandStep_of_legal {c : Byte} (h : ¬IllegalWord c) (s : State) :
    commandStep c s = .next (startCommand (opOf (opField c)) (alphaOf (alphaField c)) s) ∧
      commandWord (opOf (opField c)) (alphaOf (alphaField c)) = c := by
  obtain ⟨i, decoded⟩ := Option.ne_none_iff_exists'.1 (mt decodeCommand_eq_none.1 h)
  obtain ⟨reserved, command⟩ : reservedField c = 0 ∧ commandOf (opOf (opField c)) (alphaOf (alphaField c)) = some i := by
    simpa [decodeCommand] using decoded
  refine ⟨?_, commandWord_of_fields reserved⟩
  simp only [commandStep, decoded, exec_of_commandOf command]

theorem scrAtStart_eq_true {op : Op} {k : Nat} : scrAtStart op k = true ↔ isScrambled op = true ∧ 1 ≤ k := by
  simp [scrAtStart]

/-- The first phase by the operation (R181 to R183): only DECOMPRESS_SCRAMBLED's depends on the keys (R184). -/
theorem firstPhase_scrAtStart (op : Op) (k : Nat) : firstPhase op (scrAtStart op k) =
    match op with
    | .compress | .compressScrambled => .encode
    | .decompress => .decodeFirst
    | .decompressScrambled => if k = 0 then .decodeFirst else .unscramble := by
  cases op with
  | decompressScrambled => cases k <;> rfl
  | compress | decompress | compressScrambled => rfl

/-- Settles O6: an illegal word ends in ILLEGAL_CMD; a legal one is the start step on its fields, with its three ends. -/
theorem commandStartStep : Obligations.CommandStartStep := by
  intro s c _
  by_cases illegal : IllegalWord c
  · exact ⟨_, commandStep_of_illegal illegal s, by simp [illegalCommand, illegal, State.EndedWith, Cause.isFormatError]⟩
  obtain ⟨starts, word⟩ := commandStep_of_legal illegal s
  obtain ⟨big, ends⟩ | ⟨fits, empty, ends⟩ | ⟨fits, input, ends⟩ :=
    startCommand_cases (opOf (opField c)) (alphaOf (alphaField c)) s
  · exact ⟨_, starts.trans (congrArg _ ends), by simp [word, illegal, big, State.EndedWith, Cause.isFormatError]⟩
  · exact ⟨_, starts.trans (congrArg _ ends),
      by simp [word, illegal, fits, empty, State.started, scrAtStart_eq_true, placeholders]⟩
  · refine ⟨_, starts.trans (congrArg _ ends), ?_⟩
    simp only [State.started, word, BitVec.ofNat_eq_ofNat, placeholders, illegal, IsEmpty.forall_iff, not_false_eq_true,
      fits, imp_self, scrAtStart_eq_true, List.length_cons, List.length_nil, zero_add, Nat.reduceAdd, input,
      reduceCtorEq, false_and, ne_eq, true_and, forall_const]
    exact firstPhase_scrAtStart _ _

end Sys2Proof.Machine
end

section
namespace Sys2Proof

/-! ### Decoding and encoding, each the other's inverse (R61 to R69) -/

/-- A legal word's fields name its command. -/
theorem decodeCommand_eq_some {c : Byte} {i : Instr} : decodeCommand c = some i ↔
    reservedField c = 0 ∧ commandOf (opOf (opField c)) (alphaOf (alphaField c)) = some i := by
  simp [decodeCommand]

/-- The word of a command's fields decodes to the command (R61). -/
theorem decodeCommand_commandWord {op : Op} {a : Alphabet} {i : Instr} (h : commandOf op a = some i) :
    decodeCommand (commandWord op a) = some i := by
  cases op <;> cases a <;> cases h <;> decide

/-- A command's encoding is its word. -/
theorem encode_command {op : Op} {a : Alphabet} {i : Instr} (h : commandOf op a = some i) :
    encode .command i = fieldBits (commandWord op a).toNat 8 := by
  cases op <;> cases a <;> cases h <;> rfl

/-- What may stand in CMD is a command with its fields. -/
theorem fitsPlace_command {i : Instr} : i.fitsPlace .command = true ↔ ∃ op a, commandOf op a = some i := by
  constructor
  · intro h
    cases i with
    | compress a => exact ⟨.compress, a, rfl⟩
    | decompress a => exact ⟨.decompress, a, rfl⟩
    | compressScrambled => exact ⟨.compressScrambled, .raw, rfl⟩
    | decompressScrambled => exact ⟨.decompressScrambled, .raw, rfl⟩
    | _ => cases h
  · rintro ⟨op, a, h⟩
    cases op <;> cases a <;> cases h <;> rfl

/-- Well-formedness, check by check (R62, R67). -/
theorem Instr.wellFormed_iff {c : FetchContext} {i : Instr} : i.wellFormed c = true ↔
    i.fitsPlace c = true ∧ i.codeIsNoControl = true ∧ i.codeFits c = true := by
  simp [Instr.wellFormed, and_assoc]

theorem decode_encode_command {i : Instr} (h : i.fitsPlace .command = true) (rest : List Bool) :
    decode .command (encode .command i ++ rest) = .ok (i, rest) := by
  obtain ⟨op, a, command⟩ := fitsPlace_command.1 h
  rw [encode_command command]
  simp [decode, takeField_of_lt rest (commandWord op a).isLt, decodeCommand_commandWord command]

theorem decode_encode_first {i : Instr} (h : i.fitsPlace .first = true) (rest : List Bool) :
    decode .first (encode .first i ++ rest) = .ok (i, rest) := by
  cases i with
  | firstLit8 v | firstLit16 v =>
    simp [decode, decodeFirst, encode, encodeFields, takeField_of_lt, firstLiteralWidth, firstToken, v.isLt]
  | _ => cases h

/-- A code of 3 and above is a REF (R67). -/
theorem laterToken_of_three_le {k : Nat} (h : 3 ≤ k) (v : Nat) : laterToken k v = .ref k := by
  obtain ⟨j, rfl⟩ := Nat.exists_eq_add_of_le' h
  rfl

/-- The codes with a literal are 0 and 1 (R62). -/
theorem literalWidth_of_two_le {k : Nat} (h : 2 ≤ k) : literalWidth k = none := by
  obtain ⟨j, rfl⟩ := Nat.exists_eq_add_of_le' h
  rfl

theorem literalWidth_eq_some {k w : Nat} : literalWidth k = some w ↔ (k = 0 ∧ w = 8) ∨ (k = 1 ∧ w = 16) := by
  obtain _ | _ | k := k <;> simp [literalWidth, eq_comm]

theorem firstLiteralWidth_eq_some {p w : Nat} :
    firstLiteralWidth p = some w ↔ (p = 0 ∧ w = 8) ∨ (p = 1 ∧ w = 16) := by
  obtain _ | _ | p := p <;> simp [firstLiteralWidth, eq_comm]

theorem decode_encode_later {n : Nat} {i : Instr} (h : i.wellFormed (.later n) = true) (rest : List Bool) :
    decode (.later n) (encode (.later n) i ++ rest) = .ok (i, rest) := by
  obtain ⟨place, noControl, fits⟩ := Instr.wellFormed_iff.1 h
  have control : ∀ j < 3, 3 ≤ n → j < 2 ^ n := fun j hj hn =>
    hj.trans (Nat.lt_of_lt_of_le (by decide) (Nat.pow_le_pow_right (by decide) hn))
  cases i with
  | lit8 v | lit16 v =>
    have wide : 3 ≤ n := by simpa [Instr.fitsPlace] using place
    simp [decode, decodeLater, encode, encodeFields, FetchContext.numBits, takeField_of_lt, literalWidth, laterToken,
      v.isLt, control 0 (by decide) wide, control 1 (by decide) wide]
  | eos =>
    have wide : 3 ≤ n := by simpa [Instr.fitsPlace] using place
    simp [decode, decodeLater, encode, encodeFields, FetchContext.numBits, takeField_of_lt, literalWidth, laterToken,
      control 2 (by decide) wide]
  | ref k =>
    have three : 3 ≤ k := by simpa [Instr.codeIsNoControl] using noControl
    have fits : k < 2 ^ n := by simpa [Instr.codeFits] using fits
    simp [decode, decodeLater, encode, encodeFields, FetchContext.numBits, takeField_of_lt, fits,
      laterToken_of_three_le three, literalWidth_of_two_le (Nat.le_of_succ_le three)]
  | _ => cases place

/-- What reading a field from nothing consumed is the value's own bits. -/
theorem takeField_zero_eq_some {w v : Nat} {bits rest : List Bool} (h : takeField w 0 bits = some (v, rest)) :
    v < 2 ^ w ∧ bits = fieldBits v w ++ rest := by
  obtain ⟨x, bound, value, stream⟩ := takeField_eq_some w 0 h
  rw [zero_mul, zero_add] at value
  exact ⟨value ▸ bound, value ▸ stream⟩

theorem encode_of_decode_command {bits rest : List Bool} {i : Instr} (h : decode .command bits = .ok (i, rest)) :
    i.wellFormed .command = true ∧ bits = encode .command i ++ rest := by
  simp only [decode] at h
  split at h
  · cases h
  rename_i w rest' field
  split at h
  · cases h
  rename_i j decoded
  cases h
  obtain ⟨bound, rfl⟩ := takeField_zero_eq_some field
  obtain ⟨reserved, command⟩ := decodeCommand_eq_some.1 decoded
  have word := Machine.commandWord_of_fields reserved
  refine ⟨Instr.wellFormed_iff.2 ⟨fitsPlace_command.2 ⟨_, _, command⟩, ?_⟩, ?_⟩
  · cases i with
    | ref k => cases Machine.decodeCommand_isCommand decoded
    | _ => exact ⟨rfl, rfl⟩
  · rw [encode_command command, word, BitVec.toNat_ofNat, Nat.mod_eq_of_lt bound]

theorem encode_of_decode_first {bits rest : List Bool} {i : Instr} (h : decode .first bits = .ok (i, rest)) :
    i.wellFormed .first = true ∧ bits = encode .first i ++ rest := by
  simp only [decode, decodeFirst] at h
  split at h
  · cases h
  rename_i p rest₁ tagField
  split at h
  · cases h
  rename_i w width
  split at h
  · cases h
  rename_i v rest₂ literalField
  cases h
  obtain ⟨-, rfl⟩ := takeField_zero_eq_some tagField
  obtain ⟨bound, rfl⟩ := takeField_zero_eq_some literalField
  have value : (BitVec.ofNat w v).toNat = v := Nat.mod_eq_of_lt bound
  obtain ⟨rfl, rfl⟩ | ⟨rfl, rfl⟩ := firstLiteralWidth_eq_some.1 width
  all_goals exact ⟨rfl, by simp [firstToken, encode, encodeFields, value, -BitVec.toNat_ofNat]⟩

theorem encode_of_decode_later {n : Nat} (wide : 3 ≤ n) {bits rest : List Bool} {i : Instr}
    (h : decode (.later n) bits = .ok (i, rest)) :
    i.wellFormed (.later n) = true ∧ bits = encode (.later n) i ++ rest := by
  simp only [decode, decodeLater] at h
  split at h
  · cases h
  rename_i code rest₁ codeField
  obtain ⟨fits, rfl⟩ := takeField_zero_eq_some codeField
  split at h
  · rename_i noLiteral
    cases h
    obtain rfl | rfl | rfl | three : code = 0 ∨ code = 1 ∨ code = 2 ∨ 3 ≤ code := by omega
    · cases noLiteral
    · cases noLiteral
    · simp [laterToken, Instr.wellFormed_iff, Instr.fitsPlace, Instr.codeIsNoControl, Instr.codeFits, wide, encode,
        encodeFields, FetchContext.numBits]
    · simp [laterToken_of_three_le three, Instr.wellFormed_iff, Instr.fitsPlace, Instr.codeIsNoControl, Instr.codeFits,
        wide, three, fits, encode, encodeFields, FetchContext.numBits]
  · rename_i w width
    split at h
    · cases h
    rename_i v rest₂ literalField
    cases h
    obtain ⟨bound, rfl⟩ := takeField_zero_eq_some literalField
    have value : (BitVec.ofNat w v).toNat = v := Nat.mod_eq_of_lt bound
    obtain ⟨rfl, rfl⟩ | ⟨rfl, rfl⟩ := literalWidth_eq_some.1 width
    all_goals
      simp [laterToken, Instr.wellFormed_iff, Instr.fitsPlace, Instr.codeIsNoControl, Instr.codeFits, wide, encode,
        encodeFields, FetchContext.numBits, value, -BitVec.toNat_ofNat]

end Sys2Proof

namespace Sys2Proof.Machine

/-- Settles O1, by the place: a field read back is the value it was written from. -/
theorem decodeInvertsEncode : Obligations.DecodeInvertsEncode := by
  intro c i rest h
  have place := (Instr.wellFormed_iff.1 h).1
  cases c with
  | command => exact decode_encode_command place rest
  | first => exact decode_encode_first place rest
  | later n => exact decode_encode_later h rest

/-- Settles O2, by the place: each field that was read is the value's own bits. -/
theorem decodedBitsAreTheEncoding : Obligations.DecodedBitsAreTheEncoding := by
  intro c bits i rest wide h
  cases c with
  | command => exact encode_of_decode_command h
  | first => exact encode_of_decode_first h
  | later n => exact encode_of_decode_later (wide n rfl) h

/-- Settles O3: each written-out word is evaluated. -/
theorem specWordsDecode : Obligations.SpecWordsDecode := by
  unfold Obligations.SpecWordsDecode
  decide

/-- Settles O4. -/
theorem illegalWordsExactly : Obligations.IllegalWordsExactly := fun _ => decodeCommand_eq_none

end Sys2Proof.Machine
end

section
namespace Sys2Proof.Machine

/-! ### The start step on its three ends (R180, R185) -/

theorem startCommand_of_tooBig {op : Op} {s : State} (big : s.TooBig op) (a : Alphabet) :
    startCommand op a s = (s.latchCommand (commandWord op a) op a).raise .capacity := by
  obtain ⟨-, ends⟩ | ⟨fits, -⟩ | ⟨fits, -⟩ := startCommand_cases op a s
  · exact ends
  · exact absurd big fits
  · exact absurd big fits

theorem startCommand_of_empty {op : Op} {s : State} (fits : ¬s.TooBig op) (empty : s.regs.inLen = 0) (a : Alphabet) :
    startCommand op a s = (s.started op a (scrAtStart op s.regs.nkeys) s.phase).endOk := by
  obtain ⟨big, -⟩ | ⟨-, -, ends⟩ | ⟨-, input, -⟩ := startCommand_cases op a s
  · exact absurd big fits
  · exact ends
  · exact absurd empty input

theorem startCommand_of_input {op : Op} {s : State} (fits : ¬s.TooBig op) (input : s.regs.inLen ≠ 0) (a : Alphabet) :
    startCommand op a s =
      s.started op a (scrAtStart op s.regs.nkeys) (firstPhase op (scrAtStart op s.regs.nkeys)) := by
  obtain ⟨big, -⟩ | ⟨-, empty, -⟩ | ⟨-, -, ends⟩ := startCommand_cases op a s
  · exact absurd big fits
  · exact absurd empty input
  · exact ends

/-- Settles O7: a plain operation latches SCR_L = 0, whatever NKEYS is. -/
theorem plainCommandsStart : Obligations.PlainCommandsStart := fun a _ input =>
  ⟨fun fits => congrArg _ (startCommand_of_input fits input a),
    fun fits => congrArg _ (startCommand_of_input fits input a)⟩

/-- Settles O8: SCR_L, and with it DECOMPRESS_SCRAMBLED's first phase, says whether there is a key. -/
theorem scrambledCommandsStart : Obligations.ScrambledCommandsStart := by
  intro s input
  refine ⟨fun fits => congrArg _ (startCommand_of_input fits input .raw), fun fits keys => ?_, fun fits noKeys => ?_⟩
  · have keyed : scrAtStart .decompressScrambled s.regs.nkeys = true := scrAtStart_eq_true.2 ⟨rfl, keys⟩
    have starts := startCommand_of_input fits input .raw
    rw [keyed] at starts
    exact congrArg _ starts
  · have starts := startCommand_of_input fits input .raw
    rw [noKeys] at starts
    exact congrArg _ starts

/-- Settles O9: the empty input ends in END_OK from the started state. -/
theorem emptyInputEndsDone : Obligations.EmptyInputEndsDone := by
  intro i op a s command empty fits
  refine ⟨_, (exec_of_commandOf command s).trans (congrArg _ (startCommand_of_empty fits empty a)), ?_⟩
  simp [State.started]

/-! ### The host's turns, one step each -/

/-- A CMD write that is accepted is the start step. -/
theorem step_of_writeCmd {s : State} {c : Byte} {rest : List HostTurn} (turn : s.host = .writeCmd c :: rest)
    (free : s.regs.status ≠ .busy) : step s = commandStep c { s with host := rest } := by
  simp [step, State.nextTurn, turn, free]

/-- A CMD write while BUSY is dropped (R50). -/
theorem step_of_writeCmd_busy {s : State} {c : Byte} {rest : List HostTurn} (turn : s.host = .writeCmd c :: rest)
    (busy : s.regs.status = .busy) : step s = .next { s with host := rest } := by
  simp [step, State.nextTurn, turn, busy]

theorem step_of_write {s : State} {w : HostWrite} {rest : List HostTurn} (turn : s.host = .write w :: rest) :
    step s = .next (State.hostWrite { s with host := rest } w) := by
  simp [step, State.nextTurn, turn]

theorem step_of_read {s : State} {r : HostRead} {rest : List HostTurn} (turn : s.host = .read r :: rest) :
    step s = .next (State.hostRead { s with host := rest } r) := by
  simp [step, State.nextTurn, turn]

theorem step_of_reset {s : State} {rest : List HostTurn} (turn : s.host = .reset :: rest) :
    step s = .next (State.resetBlock { s with host := rest }) := by
  simp [step, State.nextTurn, turn]

theorem commandStep_of_decode {c : Byte} {i : Instr} (decoded : decodeCommand c = some i) (s : State) :
    commandStep c s = exec i s := by
  simp only [commandStep, decoded]

/-- Settles O5. -/
theorem stepRunsTheCommandWritten : Obligations.StepRunsTheCommandWritten := fun _ _ _ turn free =>
  ⟨step_of_writeCmd turn free,
    fun _ decoded => (step_of_writeCmd turn free).trans (commandStep_of_decode decoded _)⟩

/-- Settles O10: the start step of an illegal word latches it and raises. -/
theorem illegalCommandStartsNoUnit : Obligations.IllegalCommandStartsNoUnit := by
  intro s c rest turn free illegal
  refine ⟨_, (step_of_writeCmd turn free).trans (commandStep_of_illegal illegal _), ?_⟩
  simp [illegalCommand, State.EndedWith, Cause.isFormatError]

/-- Settles O45: ERRIDX gets RIDX for the four FormatError causes. -/
theorem raisingWritesTheReport : Obligations.RaisingWritesTheReport := by
  intro c s
  have causes : c.isFormatError = true ↔ c = .badFirst ∨ c = .truncated ∨ c = .badCode ∨ c = .badSymbol := by
    cases c <;> decide
  simp only [State.raise, causes]

/-! ### Host accesses and RESET -/

theorem State.hostWrite_of_busy {s : State} (busy : s.regs.status = .busy) (w : HostWrite) : s.hostWrite w = s :=
  if_pos busy

theorem State.hostWrite_of_free {s : State} (free : s.regs.status ≠ .busy) (w : HostWrite) :
    s.hostWrite w = s.acceptWrite w :=
  if_neg free

/-- Settles O12, by the location written: the sparse stores read back what was written and keep the rest. -/
theorem hostWritesReadBack : Obligations.HostWritesReadBack := by
  intro s w rest turn free canonical
  refine ⟨_, (step_of_write turn).trans (congrArg _ (State.hostWrite_of_free (s := { s with host := rest }) free w)), ?_⟩
  cases w with
  | inLen n => rfl
  | nkeys n => rfl
  | key i k =>
    refine ⟨fun outside => by simp [State.acceptWrite, outside], fun inside => ?_⟩
    simp only [State.acceptWrite, inside, if_true]
    exact ⟨trivial, KeyFile.read_write_same i k canonical, fun j other => KeyFile.read_write_other _ k other⟩
  | inBuf i u =>
    refine ⟨fun outside => by simp [State.acceptWrite, outside], fun inside => ?_⟩
    simp only [State.acceptWrite, inside, if_true]
    exact ⟨trivial, Memory.read_write_same _ i u, fun j other => Memory.read_write_other _ u other⟩
  | outBuf i u =>
    refine ⟨fun outside => by simp [State.acceptWrite, outside], fun inside => ?_⟩
    simp only [State.acceptWrite, inside, if_true]
    exact ⟨trivial, Memory.read_write_same _ i u, fun j other => Memory.read_write_other _ u other⟩
  | inert r => rfl

/-- A result register read: its value, or while BUSY a free one (R49 d). -/
theorem State.replyResult_eq (s : State) (v : HostValue) (free : Nat → HostValue) : ∃ x d,
    s.replyResult v free = { s with seen := s.seen ++ [x], draws := d } ∧ (x = v ∨ x = free s.draws) ∧
      (s.regs.status ≠ .busy → d = s.draws ∧ x = v) := by
  by_cases busy : s.regs.status = .busy
  · exact ⟨_, _, if_pos busy, .inr rfl, fun h => absurd busy h⟩
  · exact ⟨_, _, if_neg busy, .inl rfl, fun _ => ⟨rfl, rfl⟩⟩

theorem statusByte_toNat (r : RunState) : (statusByte r).toNat =
    match r with
    | .idle => 0
    | .busy => 1
    | .done => 2
    | .error => 3 := by
  cases r <;> rfl

theorem causeCode_toNat (c : Cause) : (causeCode c).toNat =
    match c with
    | .none => 0
    | .badFirst => 1
    | .truncated => 2
    | .badCode => 3
    | .badSymbol => 4
    | .capacity => 5
    | .illegalCmd => 6 := by
  cases c <;> rfl

/-- A register number past the seven named ones: reserved, or a KEY. -/
theorem State.readReg_of_seven_le {s : State} {n : Nat} (h : 7 ≤ n)
    (known : n < 16 ∨ within (n - 16) s.cfg.nkeysMax = true) :
    s.readReg n = s.reply (if n < 16 then .len 0 else .key (s.keys.read (n - 16))) := by
  obtain ⟨m, rfl⟩ := Nat.exists_eq_add_of_le' h
  by_cases reserved : m + 7 < 16
  · simp [State.readReg, reserved]
  · have inside := known.resolve_left reserved
    rw [if_neg reserved]
    exact (if_neg reserved).trans (if_pos inside)

/-- Settles O13, by the register's number. -/
theorem hostReadsReturnTheRegister : Obligations.HostReadsReturnTheRegister := by
  intro s n rest turn known
  have reads : step s = .next (State.readReg { s with host := rest } n) := step_of_read turn
  rw [reads]
  obtain rfl | rfl | rfl | rfl | rfl | rfl | rfl | seven :
      n = 0 ∨ n = 1 ∨ n = 2 ∨ n = 3 ∨ n = 4 ∨ n = 5 ∨ n = 6 ∨ 7 ≤ n := by omega
  · exact ⟨_, _, rfl, by simp⟩
  · refine ⟨_, _, rfl, by simp, fun _ => ⟨rfl, _, rfl, statusByte_toNat _⟩, by simp⟩
  · obtain ⟨x, d, value, byte, free⟩ := State.replyResult_eq { s with host := rest }
      (.byte (causeCode s.regs.errCode)) fun d => .byte (Config.freeByte d)
    refine ⟨x, d, congrArg _ value, by simp, by simp, fun _ => ?_, by simp⟩
    obtain rfl | rfl := byte
    · exact ⟨_, rfl, fun h => ⟨(free h).1, causeCode_toNat _⟩⟩
    · exact ⟨_, rfl, fun h => ⟨(free h).1,
        (congrArg BitVec.toNat (HostValue.byte.inj (free h).2)).trans (causeCode_toNat _)⟩⟩
  · obtain ⟨x, d, value, len, free⟩ := State.replyResult_eq { s with host := rest } (.len s.regs.errIdx)
      fun d => .len (Config.freeLen d)
    refine ⟨x, d, congrArg _ value, by simp, by simp, by simp, fun _ => ?_, by simp⟩
    obtain rfl | rfl := len
    · exact ⟨_, rfl, fun h => ⟨(free h).1, rfl⟩⟩
    · exact ⟨_, rfl, fun h => ⟨(free h).1, HostValue.len.inj (free h).2⟩⟩
  · exact ⟨_, _, rfl, by simp⟩
  · obtain ⟨x, d, value, len, free⟩ := State.replyResult_eq { s with host := rest } (.len s.regs.outLen)
      fun d => .len (Config.freeLen d)
    refine ⟨x, d, congrArg _ value, by simp, by simp, by simp, by simp, by simp, fun _ => ?_, by simp⟩
    obtain rfl | rfl := len
    · exact ⟨_, rfl, fun h => ⟨(free h).1, rfl⟩⟩
    · exact ⟨_, rfl, fun h => ⟨(free h).1, HostValue.len.inj (free h).2⟩⟩
  · exact ⟨_, _, rfl, by simp⟩
  · refine ⟨_, _, congrArg _ (State.readReg_of_seven_le (s := { s with host := rest }) seven known), ?_⟩
    by_cases reserved : n < 16
    · simp [reserved]
      omega
    · simp [reserved]
      omega

/-- A unit inside the capacity that was written reads as what it holds (R46). -/
theorem State.readUnit_of_written {s : State} {m : Memory} {cap : Option Nat} {i : Nat} {u : CodeUnit}
    (inside : within i cap = true) (written : m.read i = some u) : s.readUnit m cap i = s.reply (.unit u) := by
  simp [State.readUnit, inside, written]

/-- A state that only took a reply tells the value and the draws. -/
theorem State.reply_inj {s : State} {v w : HostValue} {d : Nat}
    (h : s.reply w = { s with seen := s.seen ++ [v], draws := d }) : v = w ∧ d = s.draws := by
  have seen : s.seen ++ [w] = s.seen ++ [v] := congrArg State.seen h
  exact ⟨(List.singleton_inj.1 (List.append_cancel_left seen)).symm, (congrArg State.draws h).symm⟩

/-- Settles O14: a read only replies; of a written unit it replies the unit. -/
theorem readsChangeNothing : Obligations.ReadsChangeNothing := by
  intro s r rest turn
  obtain ⟨v, d, value⟩ := State.hostRead_frame { s with host := rest } r
  refine ⟨v, d, (step_of_read turn).trans (congrArg _ value), fun i u h inside written => ?_,
    fun i u h free inside written => ?_⟩
  · subst h
    exact State.reply_inj (s := { s with host := rest })
      ((State.readUnit_of_written (s := { s with host := rest }) inside written).symm.trans value)
  · subst h
    have unit : State.hostRead { s with host := rest } (.outBuf i) = State.reply { s with host := rest } (.unit u) :=
      (if_neg free).trans (State.readUnit_of_written inside written)
    exact State.reply_inj (s := { s with host := rest }) (unit.symm.trans value)

theorem engineStep_of_idle {s : State} (idle : s.phase = .idle) : engineStep s = .next s := by
  simp [engineStep, State.engineMove, idle]

theorem engineStep_of_finished {s : State} (finished : s.phase = .finished) : engineStep s = .next s := by
  simp [engineStep, State.engineMove, finished]

/-- Settles O15. -/
theorem resetLeavesHostRegistersZero : Obligations.ResetLeavesHostRegistersZero :=
  ⟨fun _ _ turn => ⟨_, step_of_reset turn, rfl, rfl, rfl⟩,
    fun _ idle alone => (step_of_host_nil alone).trans (engineStep_of_idle idle)⟩

/-! ### What a whole step keeps -/

/-- An accepted CMD write is the illegal word's start step or a legal word's. -/
theorem commandStep_cases {c : Byte} {s t : State} (h : commandStep c s = .next t) :
    (IllegalWord c ∧ t = illegalCommand c s) ∨
      (¬IllegalWord c ∧ t = startCommand (opOf (opField c)) (alphaOf (alphaField c)) s) := by
  by_cases illegal : IllegalWord c
  · rw [commandStep_of_illegal illegal] at h
    exact .inl ⟨illegal, (Host.Outcome.next.inj h).symm⟩
  · rw [(commandStep_of_legal illegal s).1] at h
    exact .inr ⟨illegal, (Host.Outcome.next.inj h).symm⟩

/-- The start step writes no store and keeps what is not the block's. -/
theorem commandStep_frame {c : Byte} {s t : State} (h : commandStep c s = .next t) :
    t.keys = s.keys ∧ t.inBuf = s.inBuf ∧ t.outBuf = s.outBuf ∧ t.host = s.host ∧ t.cfg = s.cfg := by
  obtain ⟨-, rfl⟩ | ⟨-, rfl⟩ := commandStep_cases h
  · exact ⟨rfl, rfl, rfl, rfl, rfl⟩
  · obtain ⟨-, ends⟩ | ⟨-, -, ends⟩ | ⟨-, -, ends⟩ :=
      startCommand_cases (opOf (opField c)) (alphaOf (alphaField c)) s <;> rw [ends] <;>
      exact ⟨rfl, rfl, rfl, rfl, rfl⟩

/-- What an engine step leads to keeps the inputs, the latched configuration and OUT_BUF (R203). -/
theorem State.Leads.keeps {s t : State} (h : s.Leads t) :
    s.SameInputs t ∧ t.lat = s.lat ∧ t.outBuf = s.outBuf ∧ t.host = s.host := by
  obtain framed | ⟨u, c, framed, -, rfl⟩ := h
  · simp [State.SameInputs, framed.regs, framed.keys, framed.inBuf, framed.cfg, framed.lat, framed.outBuf, framed.host]
  · simp [State.SameInputs, framed.regs, framed.keys, framed.inBuf, framed.cfg, framed.lat, framed.outBuf, framed.host]

/-- The engine changes no input of the command and nothing it latched. -/
theorem engineStep_sameInputs {s t : State} (h : engineStep s = .next t) : s.SameInputs t ∧ t.lat = s.lat := by
  obtain leads | ⟨-, -, rfl⟩ := engineStep_cases h
  · exact ⟨leads.keeps.1, leads.keeps.2.1⟩
  · exact ⟨⟨rfl, rfl, rfl, rfl, rfl, rfl⟩, rfl⟩

/-- The engine keeps the stores' form: it writes OUT_BUF alone, by whole writes. -/
theorem engineStep_canonical {s t : State} (form : s.Canonical) (h : engineStep s = .next t) : t.Canonical := by
  obtain ⟨inBuf, outBuf, keys⟩ := form
  obtain leads | ⟨-, -, rfl⟩ := engineStep_cases h
  · obtain ⟨⟨sameKeys, sameIn, -⟩, -, sameOut, -⟩ := leads.keeps
    exact ⟨sameIn ▸ inBuf, sameOut ▸ outBuf, sameKeys ▸ keys⟩
  · exact ⟨inBuf, Memory.writeFrom_wf _ 0 outBuf, keys⟩

/-- What moves while BUSY: RESET, a turn that is dropped or only replies, or the engine. -/
theorem step_cases_of_busy {s t : State} (busy : s.regs.status = .busy) (noReset : s.host.head? ≠ some .reset)
    (h : step s = .next t) :
    (∃ l v d, t = { s with host := l, seen := v, draws := d }) ∨
      ∃ l, engineStep { s with host := l } = .next t := by
  obtain ⟨c, rest, -, free, -⟩ | ⟨rest, turn, -⟩ | ⟨w, rest, -, rfl⟩ | ⟨r, rest, -, rfl⟩ | ⟨c, rest, -, -, rfl⟩ |
    ⟨rest, -, free, -⟩ | ⟨l, -, -, moves⟩ := step_cases h
  · exact absurd busy free
  · exact absurd (by rw [turn]; rfl) noReset
  · exact .inl ⟨rest, _, _, State.hostWrite_of_busy (s := { s with host := rest }) busy w⟩
  · obtain ⟨v, d, value⟩ := State.hostRead_frame { s with host := rest } r
    exact .inl ⟨rest, _, _, value⟩
  · exact .inl ⟨rest, _, _, rfl⟩
  · exact absurd busy free
  · exact .inr ⟨l, moves⟩

/-- Settles O11: while BUSY a host turn is dropped or replies, and the engine keeps the inputs. -/
theorem writesWhileBusyAreDropped : Obligations.WritesWhileBusyAreDropped := by
  intro s busy
  refine ⟨fun w rest turn => ?_, fun c rest turn => step_of_writeCmd_busy turn busy, fun t h noReset => ?_⟩
  · rw [step_of_write turn, State.hostWrite_of_busy (s := { s with host := rest }) busy]
  · obtain ⟨l, v, d, rfl⟩ | ⟨l, moves⟩ := step_cases_of_busy busy noReset h
    · exact ⟨⟨rfl, rfl, rfl, rfl, rfl, rfl⟩, rfl⟩
    · exact engineStep_sameInputs (s := { s with host := l }) moves

/-- Settles O52, by the step's kind: every write of a store keeps its form. -/
theorem stepKeepsStoresCanonical : Obligations.StepKeepsStoresCanonical := by
  intro s t form h
  obtain ⟨inBuf, outBuf, keys⟩ := form
  obtain ⟨c, rest, -, -, starts⟩ | ⟨rest, -, rfl⟩ | ⟨w, rest, -, rfl⟩ | ⟨r, rest, -, rfl⟩ | ⟨c, rest, -, -, rfl⟩ |
    ⟨rest, -, -, rfl⟩ | ⟨l, -, -, moves⟩ := step_cases h
  · obtain ⟨sameKeys, sameIn, sameOut, -, -⟩ := commandStep_frame starts
    exact ⟨sameIn ▸ inBuf, sameOut ▸ outBuf, sameKeys ▸ keys⟩
  · exact ⟨.nil, .nil, .nil, fun _ h => absurd h List.not_mem_nil⟩
  · obtain ⟨-, keepsKeys, keepsIn, keepsOut⟩ := State.hostWrite_frame { s with host := rest } w
    exact ⟨keepsIn inBuf, keepsOut outBuf, keepsKeys keys⟩
  · obtain ⟨v, d, value⟩ := State.hostRead_frame { s with host := rest } r
    rw [value]
    exact ⟨inBuf, outBuf, keys⟩
  · exact ⟨inBuf, outBuf, keys⟩
  · exact ⟨inBuf, outBuf, keys⟩
  · exact engineStep_canonical (s := { s with host := l }) ⟨inBuf, outBuf, keys⟩ moves

/-- Settles O53, by the step's kind. -/
theorem parametersNeverChange : Obligations.ParametersNeverChange := by
  intro s t h
  obtain ⟨c, rest, -, -, starts⟩ | ⟨rest, -, rfl⟩ | ⟨w, rest, -, rfl⟩ | ⟨r, rest, -, rfl⟩ | ⟨c, rest, -, -, rfl⟩ |
    ⟨rest, -, -, rfl⟩ | ⟨l, -, -, moves⟩ := step_cases h
  · exact (commandStep_frame starts).2.2.2.2
  · rfl
  · rw [(State.hostWrite_frame { s with host := rest } w).1]
  · obtain ⟨v, d, value⟩ := State.hostRead_frame { s with host := rest } r
    rw [value]
  · rfl
  · rfl
  · obtain ⟨⟨-, -, -, -, -, sameCfg⟩, -⟩ := engineStep_sameInputs moves
    exact sameCfg

/-! ### TICKs counted (R104, R108) -/

/-- Settles O17, by induction on T: the counter runs out exactly where T + 3 is a power of two. -/
theorem tickClosedForm : Obligations.TickClosedForm := by
  intro T
  induction T with
  | zero => decide
  | succ T ih =>
    intro c
    set b := Nat.iterate Codec.tick T Codec.start with hb
    have hc : c = b.tick := Function.iterate_succ_apply' Codec.tick T Codec.start
    obtain ⟨low, high, counter, size, w, dict⟩ := ih
    rw [hc]
    simp only [Codec.tick_dictSize, Codec.tick_w, Codec.tick_dict]
    have double : 2 ^ (b.numBits + 1) = 2 * 2 ^ b.numBits := by ring
    by_cases out : b.enlargeIn = 1
    · rw [Codec.tick_of_enlargeIn_eq_one out]
      simp only [Nat.add_sub_cancel]
      exact ⟨by omega, by omega, by omega, size, w, dict⟩
    · rw [Codec.tick_of_two_le_enlargeIn (by omega)]
      exact ⟨by dsimp only; omega, by dsimp only; omega, by dsimp only; omega, size, w, dict⟩

end Sys2Proof.Machine
end

section
namespace Sys2Proof.Machine

/-! ### The alphabet adapters: MAP's values, and UNMAP its inverse where it is defined (R140 to R146) -/

section
variable {e62 e63 : CodeUnit} {r : Nat}

theorem letterTable_upper (h : r < 26) : (letterTable e62 e63 r).toNat = 0x41 + r := by
  rw [letterTable, if_pos h, BitVec.toNat_ofNat]
  omega

theorem letterTable_lower (low : 26 ≤ r) (high : r < 52) : (letterTable e62 e63 r).toNat = 0x61 + (r - 26) := by
  rw [letterTable, if_neg (by omega), if_pos high, BitVec.toNat_ofNat]
  omega

theorem letterTable_digit (low : 52 ≤ r) (high : r < 62) : (letterTable e62 e63 r).toNat = 0x30 + (r - 52) := by
  rw [letterTable, if_neg (by omega), if_neg (by omega), if_pos high, BitVec.toNat_ofNat]
  omega

theorem letterTable_62 : letterTable e62 e63 62 = e62 := rfl

theorem letterTable_63 : letterTable e62 e63 63 = e63 := rfl

end

/-- The two 6-bit adapters map by one table but for its last entry (R145, R146). -/
theorem mapSymbol_table {a : Adapter} (h : a = .base64 ∨ a = .uriSafe) : ∃ e63 : CodeUnit,
    (e63 = 0x2F ∨ e63 = 0x2D) ∧ bpcOf a = 6 ∧ ∀ r, mapSymbol a r = letterTable 0x2B e63 r.toNat := by
  obtain rfl | rfl := h
  · exact ⟨0x2F, .inl rfl, rfl, fun _ => rfl⟩
  · exact ⟨0x2D, .inr rfl, rfl, fun _ => rfl⟩

theorem toNat_add_32 {r : Symbol} (fits : r.toNat < 2 ^ 15) : (r + 32).toNat = r.toNat + 32 := by bv_omega

/-- The two 15-bit adapters map by an offset of 32 (R143). -/
theorem mapSymbol_offset {a : Adapter} (h : a = .utf16 ∨ a = .scr15) {r : Symbol} (fits : r.toNat < 2 ^ 15) :
    (mapSymbol a r).toNat = r.toNat + 32 := by
  have offset : mapSymbol a r = r + 32 := by obtain rfl | rfl := h <;> rfl
  rw [offset, toNat_add_32 fits]

/-- Settles O35: the two tables are one but for entry 63. -/
theorem mapGivesTheTables : Obligations.MapGivesTheTables := by
  refine ⟨fun alpha => by cases alpha <;> rfl, rfl, fun r => ⟨rfl, fun fits a h => mapSymbol_offset h fits, fun a h => ?_,
    fun last => ?_⟩⟩
  · obtain ⟨e63, -, -, table⟩ := mapSymbol_table h
    rw [table]
    exact ⟨letterTable_upper, letterTable_lower, letterTable_digit, fun h62 => by rw [h62, letterTable_62]⟩
  · have base64 : mapSymbol (adapterOf .base64 false) r = letterTable 0x2B 0x2F r.toNat := rfl
    have uri : mapSymbol (adapterOf .uriSafe false) r = letterTable 0x2B 0x2D r.toNat := rfl
    rw [base64, uri, last]
    exact ⟨letterTable_63, letterTable_63⟩

/-- Settles O37, range by range of the table. -/
theorem outputUnitsAreSafe : Obligations.OutputUnitsAreSafe := by
  intro a r fits
  refine ⟨fun h => ?_, fun h => ?_⟩
  · have bpc : bpcOf a = 15 := by obtain rfl | rfl := h <;> rfl
    rw [bpc] at fits
    rw [mapSymbol_offset h fits]
    omega
  · obtain ⟨e63, last, bpc, table⟩ := mapSymbol_table h
    rw [bpc] at fits
    have padding : letterTable 0x2B e63 r.toNat = 0x3D → (letterTable 0x2B e63 r.toNat).toNat = 0x3D := by
      rintro h; rw [h]; rfl
    rw [table]
    obtain upper | lower | digit | h62 | h63 : r.toNat < 26 ∨ (26 ≤ r.toNat ∧ r.toNat < 52) ∨
        (52 ≤ r.toNat ∧ r.toNat < 62) ∨ r.toNat = 62 ∨ r.toNat = 63 := by omega
    · have value : (letterTable 0x2B e63 r.toNat).toNat = 0x41 + r.toNat := letterTable_upper upper
      exact ⟨by omega, by omega, fun h => by have := padding h; omega⟩
    · have value : (letterTable 0x2B e63 r.toNat).toNat = 0x61 + (r.toNat - 26) :=
        letterTable_lower lower.1 lower.2
      exact ⟨by omega, by omega, fun h => by have := padding h; omega⟩
    · have value : (letterTable 0x2B e63 r.toNat).toNat = 0x30 + (r.toNat - 52) :=
        letterTable_digit digit.1 digit.2
      exact ⟨by omega, by omega, fun h => by have := padding h; omega⟩
    · rw [h62, letterTable_62]
      decide
    · rw [h63, letterTable_63]
      obtain rfl | rfl := last <;> decide

/-- Every entry of the two tables is found at its own place, and no earlier. -/
theorem tableIndex_letterTable {e63 : CodeUnit} (last : e63 = 0x2F ∨ e63 = 0x2D) :
    ∀ r < 64, tableIndex (letterTable 0x2B e63) (letterTable 0x2B e63 r) = some (BitVec.ofNat 16 r) := by
  obtain rfl | rfl := last <;> decide

/-- The index found for a unit is one whose entry is the unit. -/
theorem tableIndex_eq_some {table : Nat → CodeUnit} {u : CodeUnit} {r : Symbol} (h : tableIndex table u = some r) :
    r.toNat < 64 ∧ table r.toNat = u := by
  obtain ⟨i, found, rfl⟩ := Option.map_eq_some_iff.1 h
  have bound : i < 64 := List.mem_range.1 (List.mem_of_find?_eq_some found)
  have entry : table i = u := by simpa using List.find?_some found
  have value : (BitVec.ofNat 16 i).toNat = i := by
    rw [BitVec.toNat_ofNat]
    omega
  rw [value]
  exact ⟨bound, entry⟩

theorem tableIndex_iff {e63 u : CodeUnit} {r : Symbol} (last : e63 = 0x2F ∨ e63 = 0x2D) :
    tableIndex (letterTable 0x2B e63) u = some r ↔ r.toNat < 64 ∧ letterTable 0x2B e63 r.toNat = u := by
  refine ⟨tableIndex_eq_some, fun ⟨bound, entry⟩ => ?_⟩
  rw [← entry, tableIndex_letterTable last _ bound, BitVec.ofNat_toNat, BitVec.setWidth_eq]

theorem unbias_iff {u : CodeUnit} {r : Symbol} : unbias u = some r ↔ r.toNat < 2 ^ 15 ∧ r + 32 = u := by
  unfold unbias
  split
  · rename_i range
    rw [Option.some.injEq]
    constructor
    · rintro rfl
      constructor <;> bv_omega
    · rintro ⟨-, rfl⟩
      bv_omega
  · rename_i range
    simp only [reduceCtorEq, false_iff, not_and]
    rintro fits rfl
    have value := toNat_add_32 fits
    exact range (by omega)

/-- Settles O36, adapter by adapter. -/
theorem unmapInvertsMap : Obligations.UnmapInvertsMap := by
  intro a u r
  cases a with
  | raw =>
    have wide : r.toNat < 2 ^ bpcOf .raw := r.isLt
    simp [unmapUnit, mapSymbol, wide, eq_comm]
  | utf16 => exact unbias_iff
  | scr15 => exact unbias_iff
  | base64 => exact tableIndex_iff (.inl rfl)
  | uriSafe => exact tableIndex_iff (.inr rfl)

/-! ### OUTPUT (R147) -/

theorem engineStep_of_output {s : State} (output : s.phase = .output) : engineStep s = s.outputMove.outcome := by
  simp [engineStep, State.engineMove, output]

theorem State.outputMove_of_within {s : State}
    (fits : (isCompress s.lat.op && exceeds s.outputUnits.length s.cfg.outMax) = false) :
    s.outputMove.outcome = .next s.outputDone := by
  obtain ⟨beyond, -⟩ | ⟨-, done⟩ := State.outputMove_cases s
  · rw [fits] at beyond
    cases beyond
  · rw [done]
    rfl

theorem State.outputMove_of_beyond {s : State}
    (beyond : (isCompress s.lat.op && exceeds s.outputUnits.length s.cfg.outMax) = true) :
    s.outputMove.outcome = .next (s.raise .capacity) := by
  obtain ⟨-, raised⟩ | ⟨fits, -⟩ := State.outputMove_cases s
  · rw [raised]
    rfl
  · rw [beyond] at fits
    cases fits

/-- What OUT_BUF holds once the result is copied: the result, and past it what it held. -/
theorem State.outputDone_read (s : State) (i : Nat) : s.outputDone.outBuf.read i =
    if i < s.outputUnits.length then s.outputUnits[i]? else s.outBuf.read i := by
  simp [State.outputDone, Memory.read_writeFrom]

theorem State.outputUnits_of_compress {s : State} (compresses : isCompress s.lat.op = true) :
    s.outputUnits = s.pack.sym.map (mapSymbol s.adapter) ++ postUnits s.adapter s.pack.sym.length :=
  if_pos compresses

theorem State.outputUnits_of_decompress {s : State} (decompresses : isCompress s.lat.op = false) :
    s.outputUnits = s.dec.res := by
  simp [State.outputUnits, decompresses]

/-- Settles O38: POST is what `postUnits` says, and the copy reads back. -/
theorem outputCopiesTheResult : Obligations.OutputCopiesTheResult := by
  intro s output alone n
  have steps : step s = s.outputMove.outcome := (step_of_host_nil alone).trans (engineStep_of_output output)
  refine ⟨fun compresses => ?_, fun decompresses => ?_⟩
  · have units := State.outputUnits_of_compress compresses
    have length : s.outputUnits.length = n + (postUnits s.adapter n).length := by simp [units, n]
    refine ⟨postUnits s.adapter n, ?_, ?_, ?_, ?_, fun beyond => ?_, fun fits => ?_⟩
    · rintro (h | h) <;> rw [h] <;> rfl
    · intro h; rw [h]; rfl
    · intro h; rw [h]; rfl
    · intro h
      rw [h]
      simp only [postUnits, List.length_replicate]
      exact ⟨fun u hu => List.eq_of_mem_replicate hu, by omega, by omega⟩
    · exact ⟨_, steps.trans (State.outputMove_of_beyond (by rw [compresses, length, beyond]; rfl)),
        ⟨rfl, rfl, rfl, rfl, rfl⟩, rfl⟩
    · refine ⟨_, steps.trans (State.outputMove_of_within (by rw [compresses, length, fits]; rfl)), rfl, rfl, length,
        fun i r held => ?_, fun i u held => ?_, fun i past => ?_, rfl, rfl, rfl, rfl, rfl, rfl⟩
      · have below : i < n := (List.getElem?_eq_some_iff.1 held).1
        rw [State.outputDone_read, if_pos (by omega), units, List.getElem?_append_left (by simpa using below),
          List.getElem?_map, held]
        rfl
      · have below := (List.getElem?_eq_some_iff.1 held).1
        rw [State.outputDone_read, if_pos (by omega), units, List.getElem?_append_right (by simp [n])]
        simpa [n] using held
      · rw [State.outputDone_read, if_neg (by omega)]
  · have units := State.outputUnits_of_decompress decompresses
    refine ⟨_, steps.trans (State.outputMove_of_within (by rw [decompresses]; rfl)), rfl, rfl,
      congrArg List.length units, fun i u held => ?_, fun i past => ?_, rfl, rfl, rfl, rfl, rfl, rfl⟩
    · have below := (List.getElem?_eq_some_iff.1 held).1
      rw [State.outputDone_read, units, if_pos below, held]
    · rw [State.outputDone_read, units, if_neg (by omega)]

end Sys2Proof.Machine
end

section
namespace Sys2Proof.Machine

/-! ### The keystream: both walks XOR the same slice into each symbol (R164 to R169) -/

/-- Slice `i mod 4` of MIX at the state block floor(i / 4) is mixed at, `s0` the state at block 0 less one increment. -/
def walkSlice (m : MixChoice) (s0 d : Word64) (i : Nat) : Symbol :=
  sliceOf (mixFn m (s0 + BitVec.ofNat 64 (i / 4 + 1) * d)) (i % 4)

/-- A key's keystream is the walk's slices from KEYSETUP's state and increment (R163). -/
theorem keystream_eq_walkSlice (m : MixChoice) (k : Word64) (i : Nat) :
    keystream m k i = walkSlice m (mixFn m k) (keyIncrement m k) i := rfl

theorem ofNat_succ_mul (n : Nat) (d : Word64) : BitVec.ofNat 64 (n + 1) * d = BitVec.ofNat 64 n * d + d := by
  rw [BitVec.ofNat_add, add_mul, BitVec.one_mul]

/-- One block's slices, XORed in at the state of block `b`. -/
theorem xorSlices_block (m : MixChoice) (s0 d : Word64) (b count : Nat) (few : count ≤ 4) (sym : List Symbol) (i : Nat) :
    (xorSlices (mixFn m (s0 + BitVec.ofNat 64 (b + 1) * d)) (4 * b) count sym)[i]? =
      if 4 * b ≤ i ∧ i < 4 * b + count then sym[i]?.map (· ^^^ walkSlice m s0 d i) else sym[i]? := by
  rw [xorSlices_getElem?]
  split
  · rename_i range
    have block : i / 4 = b := by omega
    have place : i - 4 * b = i % 4 := by omega
    rw [walkSlice, block, place]
  · rfl

/-- The forward walk from block `b`, symbol by symbol, and the state it leaves (R164). -/
theorem scrambleBlocks_walk (m : MixChoice) (s0 : Word64) (i : Nat) : ∀ (n b : Nat) (x : Scrambler) (sym : List Symbol),
    x.sstate = s0 + BitVec.ofNat 64 b * x.sinc →
      (scrambleBlocks m n b x sym).1.sstate = s0 + BitVec.ofNat 64 (b + n) * x.sinc ∧
      (scrambleBlocks m n b x sym).2[i]? =
        if 4 * b ≤ i ∧ i < 4 * (b + n) then sym[i]?.map (· ^^^ walkSlice m s0 x.sinc i) else sym[i]?
  | 0, b, x, sym, start => by
    have none : ¬(4 * b ≤ i ∧ i < 4 * (b + 0)) := by omega
    rw [if_neg none]
    exact ⟨start, rfl⟩
  | n + 1, b, x, sym, start => by
    have next : x.sstate + x.sinc = s0 + BitVec.ofNat 64 (b + 1) * x.sinc := by
      rw [start, ofNat_succ_mul, add_assoc]
    obtain ⟨final, symbols⟩ := scrambleBlocks_walk m s0 i n (b + 1) { x with sstate := x.sstate + x.sinc, sblk := b }
      (xorSlices (mixFn m (x.sstate + x.sinc)) (4 * b) 4 sym) next
    have blocks : b + 1 + n = b + (n + 1) := by omega
    rw [blocks] at final symbols
    refine ⟨final, symbols.trans ?_⟩
    rw [next, xorSlices_block m s0 x.sinc b 4 le_rfl]
    by_cases later : 4 * (b + 1) ≤ i ∧ i < 4 * (b + (n + 1))
    · rw [if_pos later, if_neg (by omega), if_pos (by omega)]
    · rw [if_neg later]
      exact if_congr (by omega) rfl rfl

/-- The backward walk over blocks `n` - 1 to 0, symbol by symbol (R167). -/
theorem unscrambleBlocks_walk (m : MixChoice) (s0 : Word64) (i : Nat) : ∀ (n : Nat) (x : Scrambler) (sym : List Symbol),
    x.sstate = s0 + BitVec.ofNat 64 (n + 1) * x.sinc →
      (unscrambleBlocks m n x sym).2[i]? =
        if i < 4 * n then sym[i]?.map (· ^^^ walkSlice m s0 x.sinc i) else sym[i]?
  | 0, x, sym, start => rfl
  | n + 1, x, sym, start => by
    have back : x.sstate - x.sinc = s0 + BitVec.ofNat 64 (n + 1) * x.sinc := by
      rw [start, ofNat_succ_mul (n + 1), ← add_assoc, add_sub_cancel_right]
    refine (unscrambleBlocks_walk m s0 i n { x with sstate := x.sstate - x.sinc, sblk := n }
      (xorSlices (mixFn m (x.sstate - x.sinc)) (4 * n) 4 sym) back).trans ?_
    rw [back, xorSlices_block m s0 x.sinc n 4 le_rfl]
    by_cases earlier : i < 4 * n
    · rw [if_pos earlier, if_neg (by omega), if_pos (by omega)]
    · rw [if_neg earlier]
      exact if_congr (by omega) rfl rfl

theorem maskSymbols_getElem? (m : MixChoice) (k : Word64) (sym : List Symbol) (i : Nat) :
    (maskSymbols m k sym)[i]? = sym[i]?.map (· ^^^ keystream m k i) := by
  simp [maskSymbols, List.getElem?_mapIdx]

/-- Past the last symbol it is no matter whether a slice is XORed in. -/
theorem map_of_length_le {sym : List Symbol} {i : Nat} (past : sym.length ≤ i) (f : Symbol → Symbol) :
    sym[i]? = sym[i]?.map f := by
  rw [List.getElem?_eq_none past, Option.map_none]

/-- SCRAMBLE_PASS: the blocks by the forward walk, the tail at the state after them (R164, R165). -/
theorem scramblePass_symbols (m : MixChoice) (k : Word64) (x : Scrambler) (sym : List Symbol) :
    (scramblePass m k x sym).2 = maskSymbols m k sym := by
  refine List.ext_getElem? fun i => ?_
  have setup : (x.keySetup m k).sstate = mixFn m k + BitVec.ofNat 64 0 * (x.keySetup m k).sinc := by
    simp [Scrambler.keySetup]
  obtain ⟨final, symbols⟩ := scrambleBlocks_walk m (mixFn m k) i (sym.length / 4) 0 (x.keySetup m k) sym setup
  obtain ⟨sinc, length, -⟩ := scrambleBlocks_keeps m (sym.length / 4) 0 (x.keySetup m k) sym
  have tail : (scrambleBlocks m (sym.length / 4) 0 (x.keySetup m k) sym).1.sstate +
      (scrambleBlocks m (sym.length / 4) 0 (x.keySetup m k) sym).1.sinc =
        mixFn m k + BitVec.ofNat 64 (sym.length / 4 + 1) * keyIncrement m k := by
    rw [final, sinc, ofNat_succ_mul, zero_add, add_assoc]
    rfl
  simp only [scramblePass, tail, length]
  rw [xorSlices_block m _ _ _ _ (by omega), symbols, maskSymbols_getElem?, keystream_eq_walkSlice]
  simp only [zero_add, Nat.mul_zero, Nat.zero_le, true_and]
  by_cases inTail : 4 * (sym.length / 4) ≤ i ∧ i < 4 * (sym.length / 4) + sym.length % 4
  · rw [if_pos inTail, if_neg (by omega)]
  · rw [if_neg inTail]
    split
    · rfl
    · exact map_of_length_le (by omega) _

/-- UNSCRAMBLE_PASS: the tail first, at the state advanced past the blocks, then the backward walk (R167). -/
theorem unscramblePass_symbols (m : MixChoice) (k : Word64) (x : Scrambler) (sym : List Symbol) :
    (unscramblePass m k x sym).2 = maskSymbols m k sym := by
  refine List.ext_getElem? fun i => ?_
  simp only [unscramblePass, Nat.add_comm 1]
  refine (unscrambleBlocks_walk m (mixFn m k) i (sym.length / 4) _ _ rfl).trans ?_
  show (if i < _ then Option.map _ (xorSlices (mixFn m (mixFn m k + BitVec.ofNat 64 _ * keyIncrement m k)) _ _ sym)[i]?
    else (xorSlices (mixFn m (mixFn m k + BitVec.ofNat 64 _ * keyIncrement m k)) _ _ sym)[i]?) = _
  rw [xorSlices_block m _ _ _ _ (by omega), maskSymbols_getElem?, keystream_eq_walkSlice]
  by_cases inBlocks : i < 4 * (sym.length / 4)
  · rw [if_pos inBlocks, if_neg (by omega)]
    rfl
  · rw [if_neg inBlocks]
    split
    · rfl
    · exact map_of_length_le (by omega) _

/-- Settles O39: each pass is its walk's slices, symbol by symbol. -/
theorem passesXorTheKeystream : Obligations.PassesXorTheKeystream := fun m k x sym =>
  ⟨scramblePass_symbols m k x sym, unscramblePass_symbols m k x sym⟩

/-- A keystream XORed in twice is gone. -/
theorem maskSymbols_twice (m : MixChoice) (k : Word64) (sym : List Symbol) :
    maskSymbols m k (maskSymbols m k sym) = sym := by
  refine List.ext_getElem? fun i => ?_
  simp [maskSymbols_getElem?, Function.comp_def]

/-- The order of two keystreams is immaterial. -/
theorem maskSymbols_comm (m : MixChoice) (j k : Word64) (sym : List Symbol) :
    maskSymbols m j (maskSymbols m k sym) = maskSymbols m k (maskSymbols m j sym) := by
  refine List.ext_getElem? fun i => ?_
  simp only [maskSymbols_getElem?, Option.map_map, Function.comp_def, BitVec.xor_assoc,
    BitVec.xor_comm (keystream m j i)]

/-- All keys' passes, as the keystreams they XOR in. -/
theorem foldl_scramblePass (m : MixChoice) (x : Scrambler) (ks : List Word64) (sym : List Symbol) :
    ks.foldl (fun l k => (scramblePass m k x l).2) sym = ks.foldl (fun l k => maskSymbols m k l) sym := by
  simp only [scramblePass_symbols]

theorem foldl_unscramblePass (m : MixChoice) (x : Scrambler) (ks : List Word64) (sym : List Symbol) :
    ks.foldl (fun l k => (unscramblePass m k x l).2) sym = ks.foldl (fun l k => maskSymbols m k l) sym := by
  simp only [unscramblePass_symbols]

/-- Keystreams XORed in once in each order are gone. -/
theorem foldl_maskSymbols_reverse (m : MixChoice) : ∀ (ks : List Word64) (sym : List Symbol),
    ks.reverse.foldl (fun l k => maskSymbols m k l) (ks.foldl (fun l k => maskSymbols m k l) sym) = sym
  | [], _ => rfl
  | k :: ks, sym => by
    rw [List.foldl_cons, List.reverse_cons, List.foldl_append, foldl_maskSymbols_reverse m ks]
    exact maskSymbols_twice m k sym

/-- Settles O40: the passes XOR keystreams in, and the same keystreams in reverse order take them out. -/
theorem descramblingInvertsScrambling : Obligations.DescramblingInvertsScrambling := by
  intro m ks x y sym
  rw [foldl_scramblePass, foldl_unscramblePass, foldl_maskSymbols_reverse]

/-- Settles O41: keystreams commute, and one XORed in twice is gone. -/
theorem keyOrderIsImmaterial : Obligations.KeyOrderIsImmaterial := by
  intro m ks ls k x sym
  simp only [foldl_scramblePass]
  refine ⟨fun perm => perm.foldl_eq' (fun _ _ _ _ _ => maskSymbols_comm ..) sym, ?_⟩
  rw [List.foldl_cons, List.foldl_cons, maskSymbols_twice]

/-! ### The steps of SCRAMBLE and UNSCRAMBLE -/

theorem engineStep_of_scramble {s : State} (scramble : s.phase = .scramble) : engineStep s = .next s.scrambleMove := by
  simp [engineStep, State.engineMove, scramble]

theorem engineStep_of_unscramble {s : State} (unscramble : s.phase = .unscramble) :
    engineStep s = s.unscrambleMove.outcome := by
  simp [engineStep, State.engineMove, unscramble]

/-- The packer after a key's pass. -/
theorem State.scrambleMove_pack (s : State) : s.scrambleMove.pack =
    { s.pack with sym := maskSymbols s.cfg.mix (s.keys.read s.scr.skey) s.pack.sym } := by
  rw [← scramblePass_symbols _ _ s.scr]
  rfl

theorem State.scrambleMove_sinc (s : State) :
    s.scrambleMove.scr.sinc = keyIncrement s.cfg.mix (s.keys.read s.scr.skey) :=
  (scramblePass_keeps _ _ s.scr s.pack.sym).1

theorem State.unscrambleKey_pack (s : State) : s.unscrambleKey.pack =
    { s.pack with sym := maskSymbols s.cfg.mix (s.keys.read s.scr.skey) s.pack.sym } := by
  rw [← unscramblePass_symbols _ _ s.scr]
  rfl

theorem State.unscrambleKey_sinc (s : State) :
    s.unscrambleKey.scr.sinc = keyIncrement s.cfg.mix (s.keys.read s.scr.skey) :=
  (unscramblePass_keeps _ _ s.scr s.pack.sym).1

/-- Settles O42. -/
theorem scrambleStep : Obligations.ScrambleStep := fun s scramble alone =>
  ⟨_, (step_of_host_nil alone).trans (engineStep_of_scramble scramble), s.scrambleMove_pack, rfl, s.scrambleMove_sinc,
    by rw [s.scrambleMove_sinc, keyIncrement_odd], rfl, rfl⟩

/-- A written unit is loaded by UNMAP, and is a bad symbol where that has no value (R142). -/
theorem loadInput_of_unmap {a : Adapter} {m : Memory} {i : Nat} {u : CodeUnit} {r : Symbol} (written : m.read i = some u)
    (unmaps : unmapUnit a u = some r) : loadInput a m i = .symbol r := by
  simp [loadInput, written, unmaps]

theorem loadInput_of_bad {a : Adapter} {m : Memory} {i : Nat} {u : CodeUnit} (written : m.read i = some u)
    (bad : unmapUnit a u = none) : loadInput a m i = .badSymbol := by
  simp [loadInput, written, bad]

/-- The state after converting a unit to `r`: the last one returns RIDX to 0 and sets SKEY to the last key (R184). -/
def State.converted (s : State) (r : Symbol) : State :=
  if s.pack.sym.length + 1 < s.lat.nL then
    { s with pack := { s.pack with sym := s.pack.sym ++ [r] }, read := { s.read with ridx := s.read.ridx + 1 } }
  else
    { s with
      pack := { s.pack with sym := s.pack.sym ++ [r] }
      read := { s.read with ridx := 0 }
      scr := { s.scr with skey := s.lat.kL - 1 } }

theorem State.converted_pack (s : State) (r : Symbol) :
    (s.converted r).pack = { s.pack with sym := s.pack.sym ++ [r] } := by
  unfold State.converted
  split <;> rfl

/-- What the up-front conversion of a unit answers, by what is loaded (R184). -/
theorem State.convertUnit_eq (s : State) : s.convertUnit =
    match loadInput s.adapter s.inBuf s.read.ridx with
    | .unwritten i => .refused (.unwrittenInput i)
    | .missing i => .fault (.missingSymbol i)
    | .badSymbol => .raise .badSymbol s
    | .symbol r => .ok () (s.converted r) := by
  unfold State.convertUnit
  split <;> simp only [*]
  simp only [List.length_append, List.length_singleton, State.converted]
  split <;> rfl

theorem State.unscrambleMove_of_short {s : State} (short : s.pack.sym.length < s.lat.nL) :
    s.unscrambleMove = s.convertUnit := if_pos short

theorem State.unscrambleMove_of_full {s : State} (full : s.lat.nL ≤ s.pack.sym.length) :
    s.unscrambleMove = .ok () s.unscrambleKey := if_neg (Nat.not_lt.2 full)

theorem State.adapter_of_scr {s : State} (scr : s.lat.scr = true) : s.adapter = .scr15 := by
  simp [State.adapter, adapterOf, scr]

/-- Settles O43: a unit outside the range raises, one inside it is converted, and then come the passes. -/
theorem unscrambleSteps : Obligations.UnscrambleSteps := by
  intro s unscramble alone scr
  have steps : step s = s.unscrambleMove.outcome :=
    (step_of_host_nil alone).trans (engineStep_of_unscramble unscramble)
  have adapter := State.adapter_of_scr scr
  refine ⟨fun u short written outside => ?_, fun u short written low high => ?_, fun full => ?_⟩
  · have bad : unmapUnit s.adapter u = none := by
      rw [adapter]
      exact if_neg (by omega)
    rw [steps, State.unscrambleMove_of_short short, State.convertUnit_eq, loadInput_of_bad written bad]
    exact ⟨_, rfl, ⟨rfl, rfl, rfl, rfl, rfl⟩, rfl⟩
  · have symbol : unmapUnit s.adapter u = some (BitVec.ofNat 16 (u.toNat - 32)) := by
      rw [adapter]
      refine (if_pos ⟨low, by omega⟩).trans (congrArg some ?_)
      bv_omega
    rw [steps, State.unscrambleMove_of_short short, State.convertUnit_eq, loadInput_of_unmap written symbol]
    refine ⟨_, rfl, State.converted_pack .., fun more => ?_, fun last => ?_⟩
    · rw [State.converted_pack, State.converted, if_pos more]
    · rw [State.converted_pack, State.converted, if_neg (by omega)]
  · rw [steps, State.unscrambleMove_of_full full]
    exact ⟨_, rfl, s.unscrambleKey_pack, rfl, rfl, rfl⟩

/-- Settles O44: the values are evaluated. -/
theorem defaultMixValues : Obligations.DefaultMixValues := by
  unfold Obligations.DefaultMixValues
  decide

end Sys2Proof.Machine
end

section
namespace Sys2Proof.Machine

/-! ### Packing: the bits appended, and where CAPACITY comes (R80 to R84) -/

/-- `q` is the packer `p` with `bs` packed: they are the last of the stream, the symbols they complete are emitted. -/
structure Packer.Packed (bpc : Nat) (p : Packer) (bs : List Bool) (q : Packer) : Prop where
  sound   : q.Sound bpc
  bits    : q.bits bpc = p.bits bpc ++ bs
  ppos    : q.ppos = (p.ppos + bs.length) % bpc
  length  : q.sym.length = p.symbolsAfter bpc bs.length
  symbols : p.sym <+: q.sym
  range   : (∀ r ∈ p.sym, r.toNat < 2 ^ bpc) → ∀ r ∈ q.sym, r.toNat < 2 ^ bpc

/-- `x` packs `bits` onto `p`, or raises CAPACITY exactly where a symbol they complete is beyond OUT_MAX (R83). -/
def Packer.Packs (bpc : Nat) (cap : Option Nat) (bits : List Bool) (p : Packer) (x : Eff Packer Unit) : Prop :=
  (p.overflows bpc cap bits.length = false ∧ ∃ q, x = .ok () q ∧ p.Packed bpc bits q) ∨
    (p.overflows bpc cap bits.length = true ∧ ∃ q, x = .raise .capacity q ∧ p.sym <+: q.sym ∧
      exceeds (q.sym.length + 1) cap = true)

section
variable {bpc : Nat} {cap : Option Nat}

theorem Packer.overflows_iff (hb : 1 ≤ bpc) (p : Packer) (w : Nat) : p.overflows bpc cap w = true ↔
    1 ≤ (p.ppos + w) / bpc ∧ exceeds (p.sym.length + (p.ppos + w) / bpc) cap = true := by
  simp [Packer.overflows, Packer.symbolsAfter, Nat.div_pos_iff, Nat.succ_le_iff, Nat.lt_of_lt_of_le Nat.zero_lt_one hb]

theorem Packer.Packed.symbolsAfter_add {p q : Packer} {bits : List Bool} (h : p.Packed bpc bits q) (w : Nat) :
    q.symbolsAfter bpc w = p.symbolsAfter bpc (bits.length + w) := by
  have split : (p.ppos + bits.length + w) / bpc =
      (p.ppos + bits.length) / bpc + ((p.ppos + bits.length) % bpc + w) / bpc := by
    conv_lhs => rw [← Nat.div_add_mod (p.ppos + bits.length) bpc, Nat.add_assoc, Nat.add_comm]
    rw [Nat.add_mul_div_left _ _ (Nat.lt_of_le_of_lt (Nat.zero_le _) h.sound.1), Nat.add_comm]
  rw [Packer.symbolsAfter, h.length, h.ppos, Packer.symbolsAfter, Packer.symbolsAfter, ← Nat.add_assoc p.ppos, split,
    Nat.add_assoc]

/-- More bits overflow where the first ones do, or the others do after them. -/
theorem Packer.Packed.overflows_add {p q : Packer} {bits : List Bool} (h : p.Packed bpc bits q)
    (fits : p.overflows bpc cap bits.length = false) (w : Nat) :
    q.overflows bpc cap w = p.overflows bpc cap (bits.length + w) := by
  have hb : 1 ≤ bpc := Nat.lt_of_le_of_lt (Nat.zero_le _) h.sound.1
  have after := h.symbolsAfter_add w
  have length := h.length
  have mono : (p.ppos + bits.length) / bpc ≤ (p.ppos + (bits.length + w)) / bpc := Nat.div_le_div_right (by omega)
  unfold Packer.symbolsAfter at after length
  rw [Bool.eq_iff_iff, Packer.overflows_iff hb, Packer.overflows_iff hb, after]
  have first := Nat.zero_le ((p.ppos + bits.length) / bpc)
  refine ⟨fun ⟨completes, beyond⟩ => ⟨by omega, beyond⟩, fun ⟨completes, beyond⟩ => ⟨?_, beyond⟩⟩
  by_contra none
  have same : (p.ppos + (bits.length + w)) / bpc = (p.ppos + bits.length) / bpc := by omega
  rw [same] at completes beyond
  rw [(Packer.overflows_iff hb p bits.length).2 ⟨completes, beyond⟩] at fits
  cases fits

theorem Packer.Packed.trans {p q r : Packer} {as bs : List Bool} (h : p.Packed bpc as q) (k : q.Packed bpc bs r) :
    p.Packed bpc (as ++ bs) r where
  sound := k.sound
  bits := by rw [k.bits, h.bits, List.append_assoc]
  ppos := by rw [k.ppos, h.ppos, Nat.mod_add_mod, List.length_append, Nat.add_assoc]
  length := by rw [k.length, h.symbolsAfter_add, List.length_append]
  symbols := h.symbols.trans k.symbols
  range := k.range ∘ h.range

theorem Packer.overflows_mono (hb : 1 ≤ bpc) {p : Packer} {v w : Nat} (more : v ≤ w)
    (h : p.overflows bpc cap v = true) : p.overflows bpc cap w = true := by
  rw [Packer.overflows_iff hb] at h ⊢
  obtain ⟨completes, beyond⟩ := h
  have mono : (p.ppos + v) / bpc ≤ (p.ppos + w) / bpc := Nat.div_le_div_right (by omega)
  refine ⟨by omega, ?_⟩
  by_contra fits
  rw [exceeds_mono (Nat.add_le_add_left mono _) (Bool.not_eq_true _ ▸ fits)] at beyond
  cases beyond

/-- Packing nothing. -/
theorem Packer.Packs.nil {p : Packer} (h : p.Sound bpc) : Packer.Packs bpc cap [] p (.ok () p) := by
  have none : p.ppos / bpc = 0 := Nat.div_eq_of_lt h.1
  refine .inl ⟨?_, p, rfl, h, (List.append_nil _).symm, (Nat.mod_eq_of_lt h.1).symm, ?_, List.prefix_refl _, id⟩
  · have short : ¬bpc ≤ p.ppos := Nat.not_le.2 h.1
    simp [Packer.overflows, short]
  · simp [Packer.symbolsAfter, none]

/-- Packing one run of bits and then another. -/
theorem Packer.Packs.bind (hb : 1 ≤ bpc) {as bs : List Bool} {p : Packer} {x : Eff Packer Unit}
    {k : Unit → Packer → Eff Packer Unit} (hx : Packer.Packs bpc cap as p x)
    (hk : ∀ q, q.Sound bpc → Packer.Packs bpc cap bs q (k () q)) : Packer.Packs bpc cap (as ++ bs) p (x.bind k) := by
  obtain ⟨fits, q, rfl, packed⟩ | ⟨beyond, q, rfl, keeps, full⟩ := hx
  · have sum := packed.overflows_add fits bs.length
    rw [← List.length_append] at sum
    obtain ⟨fits', r, done, packed'⟩ | ⟨beyond, r, raised, keeps, full⟩ := hk q packed.sound
    · exact .inl ⟨sum ▸ fits', r, done, packed.trans packed'⟩
    · exact .inr ⟨sum ▸ beyond, r, raised, packed.symbols.trans keeps, full⟩
  · exact .inr ⟨Packer.overflows_mono hb (by simp) beyond, q, rfl, keeps, full⟩

variable (hb : 1 ≤ bpc) (hb2 : bpc ≤ 16)
include hb hb2

theorem Packer.packBit_packs {p : Packer} (h : p.Sound bpc) (b : Bool) :
    Packer.Packs bpc cap [b] p (p.packBit bpc cap b) := by
  obtain ⟨fits, q, done, ppos, length, keeps⟩ | ⟨beyond, full, q, raised, same⟩ := Packer.packBit_capacity hb h cap b
  · obtain ⟨sound, bits, range⟩ := Packer.packBit_ok hb hb2 h done
    exact .inl ⟨fits, q, done, sound, bits, ppos, length, keeps, range⟩
  · exact .inr ⟨beyond, q, raised, same ▸ List.prefix_refl _, same ▸ full⟩

/-- PACK packs the field's bits (R81), by induction on its width. -/
theorem Packer.pack_packs (code : Nat) : ∀ (w : Nat) {p : Packer}, p.Sound bpc →
    Packer.Packs bpc cap (fieldBits code w) p (p.pack bpc cap code w)
  | 0, _, h => .nil h
  | w + 1, _, h => (Packer.packBit_packs hb hb2 h _).bind hb (bs := fieldBits code w) fun _ sound =>
      Packer.pack_packs code w sound

/-- Several fields in order. -/
theorem Packer.packFields_packs : ∀ (fs : List (Nat × Nat)) {p : Packer}, p.Sound bpc →
    Packer.Packs bpc cap (fs.flatMap fun f => fieldBits f.1 f.2) p (p.packFields bpc cap fs)
  | [], _, h => .nil h
  | f :: fs, _, h => (Packer.pack_packs hb hb2 f.1 f.2 h).bind hb fun _ sound => Packer.packFields_packs fs sound

end

/-- FLUSH: one symbol, the bits held and then zeros (R84). -/
theorem Packer.flush_of_within {bpc : Nat} {cap : Option Nat} (hb2 : bpc ≤ 16) {p : Packer} (h : p.Sound bpc)
    (room : exceeds (p.sym.length + 1) cap = false) :
    ∃ r, p.flush bpc cap = .ok () { pval := 0, ppos := 0, sym := p.sym ++ [r] } ∧ r.toNat < 2 ^ bpc ∧
      fieldBits r.toNat bpc = fieldBits p.pval.toNat p.ppos ++ List.replicate (bpc - p.ppos) false ∧
      (p.ppos = 0 → r = 0) := by
  obtain ⟨value, bound⟩ := Packer.flush_symbol hb2 h
  obtain ⟨inside, held⟩ := h
  refine ⟨p.pval <<< (bpc - p.ppos), by simp [Packer.flush, Packer.emitSym, room], by rw [value]; exact bound, ?_,
    fun none => ?_⟩
  · have zeros := fieldBits_mul_pow p.pval.toNat p.ppos (bpc - p.ppos)
    rw [Nat.add_sub_cancel' inside.le] at zeros
    rw [value, zeros]
  · rw [none, pow_zero, Nat.lt_one_iff] at held
    rw [BitVec.eq_of_toNat_eq (y := 0#16) held, BitVec.zero_shiftLeft]
    rfl

theorem Packer.flush_of_beyond {bpc : Nat} {cap : Option Nat} {p : Packer} (full : exceeds (p.sym.length + 1) cap = true) :
    p.flush bpc cap = .raise .capacity p := by
  simp [Packer.flush, Packer.emitSym, full]

/-- Settles O24. -/
theorem packAppendsTheField : Obligations.PackAppendsTheField := by
  intro bpc code w cap p hb hb2 h
  have packs := Packer.pack_packs (cap := cap) hb hb2 code w h
  rw [Packer.Packs, fieldBits_length] at packs
  obtain ⟨fits, q, done, packed⟩ | ⟨beyond, q, raised, keeps, full⟩ := packs
  · refine ⟨fun _ => ⟨q, done, packed.sound, packed.bits, ?_⟩, fun beyond => ?_⟩
    · rw [packed.length, fieldBits_length]
    · rw [fits] at beyond
      cases beyond
  · refine ⟨fun fits => ?_, fun _ => ⟨q, raised, keeps, full⟩⟩
    rw [beyond] at fits
    cases fits

/-- Settles O25. -/
theorem flushAddsOneSymbol : Obligations.FlushAddsOneSymbol := fun _ _ _ _ hb2 h =>
  ⟨Packer.flush_of_within hb2 h, Packer.flush_of_beyond⟩

/-! ### Reading what was packed (R85 to R88) -/

/-- Settles O27. -/
theorem readerStopsAtTheEnd : Obligations.ReaderStopsAtTheEnd := by
  intro bpc nL w src r
  refine ⟨rfl, fun empty past => ?_, fun empty inside bad => ?_⟩
  · simp [Reader.unpack, Reader.unpackBit, empty, past]
  · simp [Reader.unpack, Reader.unpackBit, empty, Nat.not_le.2 inside, bad]

/-- The stream from index `i` of symbols that all load is their bits. -/
theorem streamFrom_of_symbols {bpc : Nat} {src : Nat → Load} {sym : List Symbol}
    (loads : ∀ i r, sym[i]? = some r → src i = .symbol r) : ∀ n i, i + n = sym.length →
      streamFrom bpc src n i = (sym.drop i).flatMap fun r => fieldBits r.toNat bpc
  | 0, i, end_ => by rw [List.drop_eq_nil_of_le (by omega)]; rfl
  | n + 1, i, more => by
    have inside : i < sym.length := by omega
    rw [List.drop_eq_getElem_cons inside, List.flatMap_cons, streamFrom, loads i _ (List.getElem?_eq_getElem inside)]
    exact congrArg _ (streamFrom_of_symbols loads n (i + 1) (by omega))

theorem Reader.start_legal (bpc nL : Nat) : Reader.start.Legal bpc nL := ⟨Nat.zero_le _, .inl rfl⟩

/-- A reader at the start of symbols that all load has their bits to read. -/
theorem Reader.start_stream {bpc : Nat} {src : Nat → Load} {sym : List Symbol}
    (loads : ∀ i r, sym[i]? = some r → src i = .symbol r) :
    Reader.start.stream bpc sym.length src = sym.flatMap fun r => fieldBits r.toNat bpc :=
  streamFrom_of_symbols loads sym.length 0 (Nat.zero_add _)

/-- Fields at the head of the stream are read one by one: there is a reader before and after each. -/
theorem Reader.unpack_fields {bpc nL : Nat} {src : Nat → Load} (hb : 1 ≤ bpc) (hb2 : bpc ≤ 16) (rest : List Bool) :
    ∀ (fs : List (Nat × Nat)) {q : Reader}, (∀ f ∈ fs, f.1 < 2 ^ f.2) → q.Legal bpc nL →
      q.stream bpc nL src = (fs.flatMap fun f => fieldBits f.1 f.2) ++ rest →
      ∃ r : List Reader, r.length = fs.length + 1 ∧ r[0]? = some q ∧
        ∀ i f r0 r1, fs[i]? = some f → r[i]? = some r0 → r[i + 1]? = some r1 →
          r0.unpack bpc nL src f.2 0 = .ok f.1 r1
  | [], q, _, _, _ => ⟨[q], rfl, rfl, fun _ _ _ _ none => absurd none (by simp)⟩
  | f :: fs, q, fit, legal, stream => by
    rw [List.flatMap_cons, List.append_assoc] at stream
    have field := takeField_of_lt ((fs.flatMap fun f => fieldBits f.1 f.2) ++ rest) (fit f List.mem_cons_self)
    rw [← stream] at field
    obtain ⟨q', reads, legal', stream'⟩ := Reader.unpack_stream hb hb2 f.2 0 legal field
    obtain ⟨r, length, first, steps⟩ :=
      Reader.unpack_fields hb hb2 rest fs (fun g hg => fit g (List.mem_cons_of_mem _ hg)) legal' stream'
    refine ⟨q :: r, by rw [List.length_cons, length, List.length_cons], rfl, fun i g r0 r1 hf h0 h1 => ?_⟩
    cases i with
    | zero =>
      obtain rfl : f = g := Option.some.inj hf
      obtain rfl : q = r0 := Option.some.inj h0
      obtain rfl : q' = r1 := Option.some.inj (first.symm.trans h1)
      exact reads
    | succ i => exact steps i g r0 r1 hf h0 h1

theorem Packer.start_sound {bpc : Nat} (hb : 1 ≤ bpc) : Packer.start.Sound bpc := ⟨hb, Nat.zero_lt_one⟩

theorem sum_widths (fs : List (Nat × Nat)) :
    (fs.flatMap fun f => fieldBits f.1 f.2).length = (fs.map Prod.snd).sum := by
  simp [List.length_flatMap]

/-- Settles O26: the flushed symbols' bits begin with the fields, and the reader takes them off one by one. -/
theorem unpackInvertsPack : Obligations.UnpackInvertsPack := by
  intro bpc fs hb hb2 fit
  obtain ⟨-, p, packs, packed⟩ | ⟨-, q, -, -, full⟩ :=
    Packer.packFields_packs (cap := none) hb hb2 fs (Packer.start_sound hb)
  · obtain ⟨r, flushes, -, last, -⟩ := Packer.flush_of_within (cap := none) hb2 packed.sound rfl
    refine ⟨p, _, packs, flushes, ?_, ?_⟩
    · rw [List.length_append, packed.length, Packer.symbolsAfter, sum_widths]
      simp [Packer.start]
    · refine Reader.unpack_fields hb hb2 (List.replicate (bpc - p.ppos) false) fs fit (Reader.start_legal ..) ?_
      rw [Reader.start_stream (sym := p.sym ++ [r]) fun i x hx => by simp only [hx]]
      have bits := packed.bits
      rw [Packer.bits, Packer.start, Packer.bits] at bits
      rw [List.flatMap_append, List.flatMap_singleton, last, ← List.append_assoc, bits]
      rfl
  · cases full

end Sys2Proof.Machine
end

section
namespace Sys2Proof.Machine

/-! ### The tokens within the capacities (R121 to R127) -/

/-- Two TICKs of a codec that has another's NUMBITS and ENLARGEIN. -/
theorem Codec.tick_tick_of_widths (c : Codec) {d : Codec} (h1 : d.numBits = c.numBits) (h2 : d.enlargeIn = c.enlargeIn) :
    d.tick.tick = { d with numBits := c.tick.tick.numBits, enlargeIn := c.tick.tick.enlargeIn } := by
  have once := Codec.tick_of_widths c h1 h2
  rw [Codec.tick_of_widths c.tick (d := d.tick) (by rw [once]) (by rw [once]), once]

/-- A unit's first literal, within the capacities (R121). -/
theorem State.firstLiteral_of_within {s : State} {u : CodeUnit} (room : exceeds (s.codec.dictSize + 1) s.cfg.dictMax = false)
    (fits : exceeds 1 s.cfg.outMax = false) : s.firstLiteral u = .ok () { s with
      codec := { s.codec with w := [u], dictSize := s.codec.dictSize + 1, numBits := s.codec.tick.tick.numBits,
                              enlargeIn := s.codec.tick.tick.enlargeIn }
      dec := { s.dec with dlist := s.dec.dlist ++ [[u]], res := [u] }
      phase := .decode } := by
  simp only [State.firstLiteral, room, fits, Bool.or_self, Bool.false_eq_true, if_false, State.appendEntry]
  rw [Codec.tick_tick_of_widths s.codec (d := { s.codec with dictSize := s.codec.dictSize + 1 }) rfl rfl]

/-- A later literal, within the capacities (R123, R124). -/
theorem State.literal_of_within {s : State} {u : CodeUnit} (room : exceeds (s.codec.dictSize + 2) s.cfg.dictMax = false)
    (fits : exceeds (s.dec.res.length + 1) s.cfg.outMax = false) : s.literal u = .ok () { s with
      codec := { s.codec with w := [u], dictSize := s.codec.dictSize + 2, numBits := s.codec.tick.tick.numBits,
                              enlargeIn := s.codec.tick.tick.enlargeIn }
      dec := { dlist := s.dec.dlist ++ [[u]] ++ [s.codec.w ++ [u]], cc := s.codec.dictSize, entry := [u],
               res := s.dec.res ++ [u] } } := by
  simp only [State.literal, exceeds_mono (Nat.le_succ _) room, Bool.false_eq_true, if_false, State.appendEntry]
  rw [State.commonTail_of_within (x := u) rfl (by simpa using room) fits]
  simp only [Codec.tick_w, Codec.tick_dictSize, Nat.add_sub_cancel]
  rw [Codec.tick_tick_of_widths s.codec (d := { s.codec with dictSize := s.codec.dictSize + 1 }) rfl rfl]

/-- Settles O30. -/
theorem firstLiteralsComplete : Obligations.FirstLiteralsComplete := by
  intro s v8 v16 room fits after
  have completes : ∀ u, (s.firstLiteral u).outcome = .next (after u) := fun u =>
    congrArg Eff.outcome (State.firstLiteral_of_within room fits)
  exact ⟨literal8_eq v8 ▸ completes (literal8 v8), completes v16⟩

/-- Settles O31. -/
theorem literalsComplete : Obligations.LiteralsComplete := by
  intro s v8 v16 room fits after
  have completes : ∀ u, (s.literal u).outcome = .next (after u) := fun u =>
    congrArg Eff.outcome (State.literal_of_within room fits)
  exact ⟨literal8_eq v8 ▸ completes (literal8 v8), completes v16⟩

/-! ### The tokens beyond a capacity, and what else they raise (R202) -/

/-- An operation that raises CAPACITY ends the command with it and writes no output (R203, R204). -/
theorem Framing.ends_of_capacity {α : Type} {s : State} {x : Eff State α} (frame : Framing s x)
    (raises : ∃ u, x = .raise .capacity u) :
    ∃ t, x.outcome = .next t ∧ t.EndedWith .capacity 0 ∧ t.outBuf = s.outBuf := by
  obtain ⟨u, rfl⟩ := raises
  exact ⟨_, rfl, ⟨rfl, rfl, rfl, rfl, rfl⟩, (frame.raise _ _ rfl).1.outBuf⟩

/-- What a running operation ends in ERROR with is its raise. -/
theorem Framing.raise_of_error {α : Type} {s t : State} {x : Eff State α} (frame : Framing s x)
    (busy : s.regs.status = .busy) (h : x.outcome = .next t) (error : t.regs.status = .error) :
    ∃ c u, x = .raise c u ∧ t = u.raise c := by
  obtain ⟨a, done⟩ | ⟨c, u, raised, rfl⟩ := Eff.outcome_eq_next.1 h
  · rw [(frame.ok a t done).regs, busy] at error
    cases error
  · exact ⟨c, u, raised, rfl⟩

theorem State.commonTail_of_beyond {s : State} (entry : s.dec.entry ≠ [])
    (beyond : exceeds (s.codec.dictSize + 1) s.cfg.dictMax = true ∨
      exceeds (s.dec.res.length + s.dec.entry.length) s.cfg.outMax = true) :
    ∃ u, s.commonTail = .raise .capacity u := by
  cases h : s.commonTail with
  | raise c u => exact ⟨u, by rw [State.commonTail_raise h]⟩
  | fault f => exact absurd (State.commonTail_fault h) entry
  | refused r =>
    unfold State.commonTail at h
    split at h
    · cases h
    · dsimp only at h
      split at h
      · cases h
      · split at h <;> cases h
  | ok a t =>
    unfold State.commonTail at h
    split at h
    · cases h
    · rename_i fits
      dsimp only at h
      split at h
      · cases h
      · split at h
        · cases h
        · rename_i room
          exact absurd beyond (not_or.2 ⟨room, fits⟩)

theorem State.literal_of_beyond {s : State} (v : CodeUnit)
    (beyond : exceeds (s.codec.dictSize + 2) s.cfg.dictMax = true ∨ exceeds (s.dec.res.length + 1) s.cfg.outMax = true) :
    ∃ u, s.literal v = .raise .capacity u := by
  unfold State.literal
  split
  · exact ⟨s, rfl⟩
  · exact State.commonTail_of_beyond (by simp) (by simpa [State.appendEntry] using beyond)

theorem State.firstLiteral_of_beyond {s : State} (v : CodeUnit)
    (beyond : exceeds (s.codec.dictSize + 1) s.cfg.dictMax = true ∨ exceeds 1 s.cfg.outMax = true) :
    ∃ u, s.firstLiteral v = .raise .capacity u :=
  ⟨s, if_pos (by simpa using beyond)⟩

theorem State.reference_of_beyond {s : State} {k : Nat} {e : Str}
    (named : (k < s.codec.dictSize ∧ s.dec.dlist[k]? = some e) ∨
      (k = s.codec.dictSize ∧ ∃ y, s.codec.w.head? = some y ∧ e = s.codec.w ++ [y])) (entry : e ≠ [])
    (beyond : exceeds (s.codec.dictSize + 1) s.cfg.dictMax = true ∨
      exceeds (s.dec.res.length + e.length) s.cfg.outMax = true) :
    ∃ u, s.reference k = .raise .capacity u := by
  rw [State.reference, State.resolveRef_of_named named]
  exact State.commonTail_of_beyond (s := { s with dec := { s.dec with entry := e } }) entry beyond

/-- Settles O34. -/
theorem tokensBeyondCapacity : Obligations.TokensBeyondCapacity := by
  intro s v8 v16 k e
  refine ⟨fun beyond i first => ?_, fun beyond i literal => ?_, fun named beyond => ?_⟩
  · obtain rfl | rfl := first
    · exact (State.firstLiteral_framing s _).ends_of_capacity (State.firstLiteral_of_beyond _ beyond)
    · exact (State.firstLiteral_framing s _).ends_of_capacity (State.firstLiteral_of_beyond _ beyond)
  · obtain rfl | rfl := literal
    · exact (State.literal_framing s _).ends_of_capacity (State.literal_of_beyond _ beyond)
    · exact (State.literal_framing s _).ends_of_capacity (State.literal_of_beyond _ beyond)
  · refine (State.reference_framing s k).ends_of_capacity ?_
    obtain ⟨below, listed, entry⟩ | ⟨rfl, y, first, rfl⟩ := named
    · exact State.reference_of_beyond (.inl ⟨below, listed⟩) entry beyond
    · exact State.reference_of_beyond (.inr ⟨rfl, y, first, rfl⟩) (by simp) beyond

theorem State.firstLiteral_raise {s u : State} {v : CodeUnit} {c : Cause} (h : s.firstLiteral v = .raise c u) :
    c = .capacity := by
  unfold State.firstLiteral at h
  split at h <;> cases h
  rfl

theorem State.literal_raise {s u : State} {v : CodeUnit} {c : Cause} (h : s.literal v = .raise c u) : c = .capacity := by
  unfold State.literal at h
  split at h
  · cases h
    rfl
  · exact State.commonTail_raise h

/-- A REF raises CAPACITY, or BAD_CODE beyond DICTSIZE, the reader as it was (R126). -/
theorem State.reference_raise {s u : State} {k : Nat} {c : Cause} (h : s.reference k = .raise c u) :
    c = .capacity ∨ (c = .badCode ∧ u = s ∧ s.codec.dictSize < k) := by
  obtain unresolved | ⟨e, t, -, tail⟩ := Eff.bind_eq_raise.1 h
  · obtain ⟨same, cause, beyond⟩ := State.resolveRef_raise unresolved
    exact .inr ⟨cause, same, beyond⟩
  · exact .inl (State.commonTail_raise tail)

theorem State.raise_capacity_ended (u : State) : (u.raise .capacity).EndedWith .capacity 0 := ⟨rfl, rfl, rfl, rfl, rfl⟩

/-- Settles O47, token by token. -/
theorem causesOfTokens : Obligations.CausesOfTokens := by
  intro i s t token busy h error
  have literal : ∀ v, (s.literal v).outcome = .next t → t.EndedWith .capacity 0 := by
    intro v h
    obtain ⟨c, u, raised, rfl⟩ := (State.literal_framing s v).raise_of_error busy h error
    rw [State.literal_raise raised]
    exact u.raise_capacity_ended
  have first : ∀ v, (s.firstLiteral v).outcome = .next t → t.EndedWith .capacity 0 := by
    intro v h
    obtain ⟨c, u, raised, rfl⟩ := (State.firstLiteral_framing s v).raise_of_error busy h error
    rw [State.firstLiteral_raise raised]
    exact u.raise_capacity_ended
  cases i with
  | compress | decompress | compressScrambled | decompressScrambled => simp [Instr.fitsPlace] at token
  | firstLit8 v | firstLit16 v => exact ⟨by simp, .inl (first _ h)⟩
  | lit8 v | lit16 v => exact ⟨by simp, .inl (literal _ h)⟩
  | eos =>
    cases h
    rw [busy] at error
    cases error
  | ref k =>
    obtain ⟨c, u, raised, rfl⟩ := (State.reference_framing s k).raise_of_error busy h error
    refine ⟨by simp, ?_⟩
    obtain rfl | ⟨rfl, rfl, beyond⟩ := State.reference_raise raised
    · exact .inl u.raise_capacity_ended
    · exact .inr ⟨k, rfl, beyond, rfl, rfl, rfl, rfl, rfl⟩

/-! ### Fetching: the reader agrees with the decoder of bits (R121, R122) -/

/-- The reader of a state whose cursor is inside the input and whose mask is legal. -/
theorem State.read_legal {s : State} (mask : s.MaskLegal) (inside : s.read.ridx ≤ s.lat.nL) :
    s.read.Legal (bpcOf s.adapter) s.lat.nL := ⟨inside, mask⟩

/-- UNPACK of the running command reads the field at the head of the unread bits. -/
theorem State.unpack_of_takeField {s : State} (legal : s.read.Legal (bpcOf s.adapter) s.lat.nL) {w x : Nat}
    {rest : List Bool} (field : takeField w 0 s.unreadBits = some (x, rest)) : ∃ r : Reader,
      s.unpack w = .ok x { s with read := r } ∧ r.Legal (bpcOf s.adapter) s.lat.nL ∧
        State.unreadBits { s with read := r } = rest := by
  obtain ⟨r, reads, legal', stream⟩ :=
    Reader.unpack_stream (bpcOf_range s.adapter).1 (bpcOf_range s.adapter).2 w 0 legal field
  exact ⟨r, by rw [State.unpack, reads]; rfl, legal', stream⟩

/-- The first token the decoder reads is the one fetched, and its bits are consumed. -/
theorem State.fetchFirst_of_decode {s : State} (legal : s.read.Legal (bpcOf s.adapter) s.lat.nL) {i : Instr}
    {rest : List Bool} (h : decode .first s.unreadBits = .ok (i, rest)) : ∃ r : Reader,
      s.fetchFirst = .ok i { s with read := r } ∧ r.Legal (bpcOf s.adapter) s.lat.nL ∧
        State.unreadBits { s with read := r } = rest := by
  simp only [decode, decodeFirst] at h
  split at h
  · cases h
  rename_i p rest₁ field
  obtain ⟨r₁, reads₁, legal₁, rfl⟩ := State.unpack_of_takeField legal field
  split at h
  · cases h
  rename_i w width
  split at h
  · cases h
  rename_i v rest₂ literal
  obtain ⟨r₂, reads₂, legal₂, stream₂⟩ := State.unpack_of_takeField (s := { s with read := r₁ }) legal₁ literal
  cases h
  refine ⟨r₂, ?_, legal₂, stream₂⟩
  simp only [State.fetchFirst, reads₁, Eff.bind_ok_left, width]
  rw [reads₂]
  rfl

/-- The state a later token's fetch leaves: the reader moved, CC the code. -/
def State.fetched (s : State) (r : Reader) (code : Nat) : State :=
  { s with read := r, dec := { s.dec with cc := code } }

/-- The code field of a token read for `code` is `code`. -/
theorem encodeFields_laterToken (n code v : Nat) : (encodeFields n (laterToken code v)).head?.map Prod.fst = some code := by
  obtain _ | _ | _ | code := code <;> rfl

/-- The later token the decoder reads is the one fetched; its bits are consumed and CC is its code. -/
theorem State.fetchLater_of_decode {s : State} (legal : s.read.Legal (bpcOf s.adapter) s.lat.nL) {i : Instr}
    {rest : List Bool} (h : decode (.later s.codec.numBits) s.unreadBits = .ok (i, rest)) : ∃ (r : Reader) (code : Nat),
      s.fetchLater = .ok i (s.fetched r code) ∧ r.Legal (bpcOf s.adapter) s.lat.nL ∧
        (s.fetched r code).unreadBits = rest ∧ (encodeFields s.codec.numBits i).head?.map Prod.fst = some code := by
  simp only [decode, decodeLater] at h
  split at h
  · cases h
  rename_i code rest₁ field
  obtain ⟨r₁, reads₁, legal₁, stream₁⟩ := State.unpack_of_takeField legal field
  split at h
  · rename_i width
    cases h
    refine ⟨r₁, code, ?_, legal₁, stream₁, encodeFields_laterToken ..⟩
    simp only [State.fetchLater, reads₁, Eff.bind_ok_left, width, State.fetched]
  · rename_i w width
    split at h
    · cases h
    rename_i v rest₂ literal
    obtain ⟨r₂, reads₂, legal₂, stream₂⟩ := State.unpack_of_takeField (s := s.fetched r₁ code) legal₁
      (by rw [← literal, ← stream₁]; rfl)
    cases h
    refine ⟨r₂, code, ?_, legal₂, stream₂, encodeFields_laterToken ..⟩
    simp only [State.fetchLater, reads₁, Eff.bind_ok_left, width]
    exact congrArg (fun x => Eff.bind x _) reads₂

/-- The outcome of a move: a fetched token's execution, or the move's own. -/
def Move.run (m : Move) : Host.Outcome State Fault Refusal :=
  match m with
  | .token i t => exec i t
  | .outcome o => o

theorem engineStep_eq_run (s : State) : engineStep s = s.engineMove.run := rfl

theorem engineStep_of_decodeFirst {s : State} (first : s.phase = .decodeFirst) :
    engineStep s = s.fetchFirst.move.run := by
  simp only [engineStep_eq_run, State.engineMove, first]

theorem engineStep_of_decode {s : State} (later : s.phase = .decode) : engineStep s = s.fetchLater.move.run := by
  simp only [engineStep_eq_run, State.engineMove, later]

/-- Settles O28. -/
theorem stepRunsTheDecodedToken : Obligations.StepRunsTheDecodedToken := by
  intro s i rest alone mask inside
  have legal := State.read_legal mask inside
  refine ⟨fun first h => ?_, fun later h => ?_⟩
  · obtain ⟨r, fetch, -, stream⟩ := State.fetchFirst_of_decode legal h
    refine ⟨{ s with read := r }, ?_, rfl, stream⟩
    rw [step_of_host_nil alone, engineStep_of_decodeFirst first, fetch]
    rfl
  · obtain ⟨r, code, fetch, -, stream, field⟩ := State.fetchLater_of_decode legal h
    refine ⟨s.fetched r code, ?_, rfl, stream, field⟩
    rw [step_of_host_nil alone, engineStep_of_decode later, fetch]
    rfl

/-! ### A stream cut short (R86, R128) -/

/-- The fetch `x` stops at the cursor of `q`: the end of the input, or a symbol that cannot be loaded. -/
def State.StopsAt {α : Type} (s : State) (q : Reader) (x : Eff State α) : Prop :=
  (q.ridx = s.lat.nL ∧ ∃ u, x = .raise .truncated u ∧ u.read = q) ∨
    (q.ridx < s.lat.nL ∧
      ((s.nextSym q.ridx = .badSymbol ∧ ∃ u, x = .raise .badSymbol u ∧ u.read = q) ∨
        (∃ i, s.nextSym q.ridx = .unwritten i ∧ x = .refused (.unwrittenInput i)) ∨
        (∃ i, s.nextSym q.ridx = .missing i ∧ x = .fault (.missingSymbol i))))

theorem State.StopsAt.bind {α β : Type} {s : State} {q : Reader} {x : Eff State α} (h : s.StopsAt q x)
    (k : α → State → Eff State β) : s.StopsAt q (x.bind k) := by
  obtain ⟨end_, u, rfl, read⟩ | ⟨inside, ⟨load, u, rfl, read⟩ | ⟨i, load, rfl⟩ | ⟨i, load, rfl⟩⟩ := h
  · exact .inl ⟨end_, u, rfl, read⟩
  · exact .inr ⟨inside, .inl ⟨load, u, rfl, read⟩⟩
  · exact .inr ⟨inside, .inr (.inl ⟨i, load, rfl⟩)⟩
  · exact .inr ⟨inside, .inr (.inr ⟨i, load, rfl⟩)⟩

/-- UNPACK of a field the unread bits are too few for. -/
theorem State.unpack_of_short {s : State} (legal : s.read.Legal (bpcOf s.adapter) s.lat.nL) {w : Nat}
    (short : takeField w 0 s.unreadBits = none) :
    ∃ q : Reader, s.read.LoadedTo s.nextSym q ∧ s.StopsAt q (s.unpack w) := by
  obtain ⟨q, -, loaded, ⟨end_, h⟩ | ⟨inside, ⟨load, h⟩ | ⟨i, load, h⟩ | ⟨i, load, h⟩⟩⟩ :=
    Reader.unpack_short (bpcOf_range s.adapter).1 (bpcOf_range s.adapter).2 w 0 legal short <;>
    refine ⟨q, loaded, ?_⟩ <;> rw [State.unpack, h]
  · exact .inl ⟨end_, _, rfl, rfl⟩
  · exact .inr ⟨inside, .inl ⟨load, _, rfl, rfl⟩⟩
  · exact .inr ⟨inside, .inr (.inl ⟨i, load, rfl⟩)⟩
  · exact .inr ⟨inside, .inr (.inr ⟨i, load, rfl⟩)⟩

/-- UNPACK of a field that is there, with what it loaded. -/
theorem State.unpack_loadedTo {s : State} (legal : s.read.Legal (bpcOf s.adapter) s.lat.nL) {w x : Nat} {r : Reader}
    (h : s.unpack w = .ok x { s with read := r }) : s.read.LoadedTo s.nextSym r := by
  obtain ⟨r', reads, same⟩ := Eff.lift_eq_ok.1 h
  obtain rfl : r' = r := congrArg State.read same
  exact (Reader.unpack_ok (bpcOf_range s.adapter).1 (bpcOf_range s.adapter).2 w 0 legal reads).2

/-- A first token the stream cannot complete. -/
theorem State.fetchFirst_of_short {s : State} (legal : s.read.Legal (bpcOf s.adapter) s.lat.nL)
    (h : decode .first s.unreadBits = .error .truncated) :
    ∃ q : Reader, s.read.LoadedTo s.nextSym q ∧ s.StopsAt q s.fetchFirst := by
  simp only [decode, decodeFirst] at h
  split at h
  · rename_i short
    obtain ⟨q, loaded, stops⟩ := State.unpack_of_short legal short
    exact ⟨q, loaded, stops.bind _⟩
  rename_i p rest₁ field
  obtain ⟨r₁, reads₁, legal₁, rfl⟩ := State.unpack_of_takeField legal field
  split at h
  · cases h
  rename_i w width
  split at h
  · rename_i short
    obtain ⟨q, loaded, stops⟩ := State.unpack_of_short (s := { s with read := r₁ }) legal₁ short
    refine ⟨q, (State.unpack_loadedTo legal reads₁).trans loaded, ?_⟩
    simp only [State.fetchFirst, reads₁, Eff.bind_ok_left, width]
    exact stops.bind _
  · cases h

/-- A later token the stream cannot complete. -/
theorem State.fetchLater_of_short {s : State} (legal : s.read.Legal (bpcOf s.adapter) s.lat.nL)
    (h : decode (.later s.codec.numBits) s.unreadBits = .error .truncated) :
    ∃ q : Reader, s.read.LoadedTo s.nextSym q ∧ s.StopsAt q s.fetchLater := by
  simp only [decode, decodeLater] at h
  split at h
  · rename_i short
    obtain ⟨q, loaded, stops⟩ := State.unpack_of_short legal short
    exact ⟨q, loaded, stops.bind _⟩
  rename_i code rest₁ field
  obtain ⟨r₁, reads₁, legal₁, stream₁⟩ := State.unpack_of_takeField legal field
  split at h
  · cases h
  rename_i w width
  split at h
  · rename_i short
    obtain ⟨q, loaded, stops⟩ := State.unpack_of_short (s := s.fetched r₁ code) legal₁
      (by rw [← short, ← stream₁]; rfl)
    refine ⟨q, (State.unpack_loadedTo legal reads₁).trans loaded, ?_⟩
    simp only [State.fetchLater, reads₁, Eff.bind_ok_left, width]
    exact stops.bind _
  · cases h

/-- A first token tag of 2 or 3 raises BAD_FIRST once it is read; it loads a symbol where it needs one (R121). -/
theorem State.fetchFirst_of_badFirst {s : State} (legal : s.read.Legal (bpcOf s.adapter) s.lat.nL)
    (h : decode .first s.unreadBits = .error .badFirst) : ∃ r : Reader,
      s.fetchFirst = .raise .badFirst { s with read := r } ∧
        r.ridx = s.read.ridx + if s.read.bitsLeft < 2 then 1 else 0 := by
  simp only [decode, decodeFirst] at h
  split at h
  · cases h
  rename_i p rest₁ field
  split at h
  · rename_i width
    obtain ⟨r, reads, -⟩ := State.unpack_of_takeField legal field
    refine ⟨r, by simp only [State.fetchFirst, reads, Eff.bind_ok_left, width], ?_⟩
    obtain ⟨r', two, same⟩ := Eff.lift_eq_ok.1 reads
    obtain rfl : r' = r := congrArg State.read same
    have wide : 6 ≤ bpcOf s.adapter := by cases s.adapter <;> decide
    have hb2 := (bpcOf_range s.adapter).2
    obtain ⟨b, q, one, rest⟩ := Eff.bind_eq_ok.1 two
    obtain ⟨c, q', other, done⟩ := Eff.bind_eq_ok.1 rest
    cases done
    obtain ⟨legal', -, first⟩ := Reader.unpackBit_ok (by omega) hb2 legal one
    obtain ⟨-, -, second⟩ := Reader.unpackBit_ok (by omega) hb2 legal' other
    split <;> omega
  · split at h <;> cases h

/-- A fetch that raises ends the command with its report, OUT_BUF untouched. -/
theorem Framing.fetch_ends {s u : State} {x : Eff State Instr} {c : Cause} (frame : Framing s x)
    (raised : x = .raise c u) (format : c.isFormatError = true) :
    ∃ t, x.move.run = .next t ∧ t.EndedWith c u.read.ridx ∧ t.outBuf = s.outBuf := by
  subst raised
  exact ⟨u.raise c, rfl, ⟨rfl, rfl, if_pos format, rfl, rfl⟩, (frame.raise _ _ rfl).1.outBuf⟩

/-- Settles O29: a fetch cut short stops at the first symbol that is not there. -/
theorem badStreamsAreReported : Obligations.BadStreamsAreReported := by
  intro s alone mask inside endsWith cutShort
  have legal := State.read_legal mask inside
  have fetch : cutShort → ∃ x : Eff State Instr, Framing s x ∧ step s = x.move.run ∧
      ∃ q : Reader, s.read.LoadedTo s.nextSym q ∧ s.StopsAt q x := by
    rintro (⟨first, short⟩ | ⟨later, short⟩)
    · exact ⟨_, s.fetchFirst_framing, (step_of_host_nil alone).trans (engineStep_of_decodeFirst first),
        State.fetchFirst_of_short legal short⟩
    · exact ⟨_, s.fetchLater_framing, (step_of_host_nil alone).trans (engineStep_of_decode later),
        State.fetchLater_of_short legal short⟩
  refine ⟨fun first bad => ?_, fun short loads => ?_, fun j u short plain low high before written bad => ?_⟩
  · obtain ⟨r, raised, ridx⟩ := State.fetchFirst_of_badFirst legal bad
    obtain ⟨t, moves, ended, same⟩ := s.fetchFirst_framing.fetch_ends raised rfl
    exact ⟨t, ((step_of_host_nil alone).trans (engineStep_of_decodeFirst first)).trans moves, ridx ▸ ended, same⟩
  · obtain ⟨x, frame, steps, q, loaded, ⟨end_, u, raised, read⟩ | ⟨within, stop⟩⟩ := fetch short
    · obtain ⟨t, moves, ended, same⟩ := frame.fetch_ends raised rfl
      exact ⟨t, steps.trans moves, by rwa [read, end_] at ended, same⟩
    · obtain ⟨r, load⟩ := loads q.ridx loaded.1 within
      rw [load] at stop
      simp at stop
  · have load : s.nextSym j = .badSymbol := by
      rw [State.nextSym, if_neg (by simp [plain]), loadInput_of_bad written bad]
    obtain ⟨x, frame, steps, q, loaded, stop⟩ := fetch short
    have reached : q.ridx ≤ j := by
      by_contra past
      obtain ⟨r, symbol⟩ := loaded.2 j low (by omega)
      rw [load] at symbol
      cases symbol
    obtain ⟨end_, -⟩ | ⟨within, stop⟩ := stop
    · omega
    · obtain earlier | rfl := Nat.lt_or_eq_of_le reached
      · obtain ⟨r, symbol⟩ := before q.ridx loaded.1 earlier
        rw [symbol] at stop
        simp at stop
      · obtain ⟨-, u, raised, read⟩ | ⟨i, other, -⟩ | ⟨i, other, -⟩ := stop
        · obtain ⟨t, moves, ended, same⟩ := frame.fetch_ends raised rfl
          exact ⟨t, steps.trans moves, read ▸ ended, same⟩
        · rw [load] at other
          cases other
        · rw [load] at other
          cases other

end Sys2Proof.Machine
end

section
namespace Sys2Proof.Machine

/-! ### What only grows while the engine runs (R108, R109) -/

/-- From `c` to `d` the widths and the dictionary only grow, and sound width registers stay sound (R104, R109). -/
structure Codec.Grows (c d : Codec) : Prop where
  numBits  : c.numBits ≤ d.numBits
  dictSize : c.dictSize ≤ d.dictSize
  dict     : c.dict <+: d.dict
  widths   : c.WidthsSound → d.WidthsSound

theorem Codec.Grows.trans {c d e : Codec} (h : c.Grows d) (k : d.Grows e) : c.Grows e where
  numBits := h.numBits.trans k.numBits
  dictSize := h.dictSize.trans k.dictSize
  dict := h.dict.trans k.dict
  widths := k.widths ∘ h.widths

/-- Writing the other registers of the codec. -/
theorem Codec.Grows.of_same (c : Codec) (w : Str) (u : CodeUnit) (pend : List CodeUnit) (idx : Nat) :
    c.Grows { c with w := w, c := u, pend := pend, idx := idx } where
  numBits := le_rfl
  dictSize := le_rfl
  dict := List.prefix_refl _
  widths := fun ⟨numBits, counter, bound, size⟩ => ⟨numBits, counter, bound, size⟩

theorem Codec.Grows.refl (c : Codec) : c.Grows c := .of_same c _ _ _ _

/-- One more code, with or without an entry of DICT. -/
theorem Codec.Grows.of_entry (c : Codec) (es : List (Str × Nat)) :
    c.Grows { c with dict := c.dict ++ es, dictSize := c.dictSize + 1 } where
  numBits := le_rfl
  dictSize := Nat.le_succ _
  dict := List.prefix_append _ _
  widths := fun ⟨numBits, counter, bound, size⟩ => ⟨numBits, counter, bound, by dsimp only; omega⟩

theorem Codec.Grows.of_code (c : Codec) : c.Grows { c with dictSize := c.dictSize + 1 } := by
  simpa using Codec.Grows.of_entry c []

/-- A TICK keeps both counters in range: a counter that runs out is reset to the bound of the new width (R104). -/
theorem Codec.WidthsSound.tick {c : Codec} (h : c.WidthsSound) : c.tick.WidthsSound := by
  obtain ⟨numBits, counter, bound, size⟩ := h
  by_cases out : c.enlargeIn = 1
  · rw [Codec.tick_of_enlargeIn_eq_one out]
    exact ⟨by dsimp only; omega, Nat.one_le_two_pow, le_rfl, size⟩
  · rw [Codec.tick_of_two_le_enlargeIn (by omega)]
    exact ⟨numBits, by dsimp only; omega, by dsimp only; omega, size⟩

theorem Codec.Grows.tick (c : Codec) : c.Grows c.tick where
  numBits := c.numBits_le_tick
  dictSize := by rw [Codec.tick_dictSize]
  dict := by rw [Codec.tick_dict]
  widths := Codec.WidthsSound.tick

/-- From `s` to `t` the widths and both dictionaries only grow, and an odd SINC stays odd (R19). -/
structure State.Grows (s t : State) : Prop where
  codec     : s.codec.Grows t.codec
  dlist     : s.dec.dlist <+: t.dec.dlist
  increment : s.scr.sinc.getLsbD 0 = true → t.scr.sinc.getLsbD 0 = true

theorem State.Grows.refl (s : State) : s.Grows s := ⟨.refl _, List.prefix_refl _, id⟩

theorem State.Grows.trans {s t u : State} (h : s.Grows t) (k : t.Grows u) : s.Grows u :=
  ⟨h.codec.trans k.codec, h.dlist.trans k.dlist, k.increment ∘ h.increment⟩

theorem State.Grows.of_pack (s : State) (p : Packer) : s.Grows { s with pack := p } := ⟨.refl _, List.prefix_refl _, id⟩

theorem State.Grows.of_read (s : State) (r : Reader) : s.Grows { s with read := r } := ⟨.refl _, List.prefix_refl _, id⟩

/-- An operation that changes the codec alone of these. -/
theorem State.Grows.of_codec {s t : State} (codec : s.codec.Grows t.codec) (dec : t.dec.dlist = s.dec.dlist)
    (scr : t.scr = s.scr) : s.Grows t :=
  ⟨codec, dec ▸ List.prefix_refl _, fun odd => scr ▸ odd⟩

/-- Every state `x` completes or raises in has grown from `s`. -/
structure Growing {α : Type} (s : State) (x : Eff State α) : Prop where
  ok    : ∀ a t, x = .ok a t → s.Grows t
  raise : ∀ c t, x = .raise c t → s.Grows t

namespace Growing

variable {α β : Type} {s t : State}

theorem of_ok {a : α} (h : s.Grows t) : Growing s (.ok a t) :=
  ⟨fun _ _ e => by cases e; exact h, fun _ _ e => (nomatch e)⟩

theorem of_raise {c : Cause} (h : s.Grows t) : Growing s (.raise c t : Eff State α) :=
  ⟨fun _ _ e => (nomatch e), fun _ _ e => by cases e; exact h⟩

theorem of_fault {f : Fault} : Growing s (.fault f : Eff State α) :=
  ⟨fun _ _ e => (nomatch e), fun _ _ e => (nomatch e)⟩

theorem of_refused {r : Refusal} : Growing s (.refused r : Eff State α) :=
  ⟨fun _ _ e => (nomatch e), fun _ _ e => (nomatch e)⟩

theorem bind {x : Eff State α} {k : α → State → Eff State β} (hx : Growing s x) (hk : ∀ a t, Growing t (k a t)) :
    Growing s (x.bind k) := by
  constructor
  · intro b t h
    obtain ⟨a, u, first, second⟩ := Eff.bind_eq_ok.1 h
    exact (hx.ok a u first).trans ((hk a u).ok b t second)
  · intro c t h
    obtain first | ⟨a, u, first, second⟩ := Eff.bind_eq_raise.1 h
    · exact hx.raise c t first
    · exact (hx.ok a u first).trans ((hk a u).raise c t second)

/-- A part of the engine that holds none of what grows. -/
theorem of_lift {σ : Type} {put : σ → State} (same : ∀ p, s.Grows (put p)) (x : Eff σ α) : Growing s (x.lift put) := by
  constructor
  · intro a t h
    obtain ⟨p, -, rfl⟩ := Eff.lift_eq_ok.1 h
    exact same p
  · intro c t h
    obtain ⟨p, -, rfl⟩ := Eff.lift_eq_raise.1 h
    exact same p

end Growing

theorem State.Grows.growing {α : Type} {s t : State} {x : Eff State α} (h : s.Grows t) (hx : Growing t x) : Growing s x :=
  ⟨fun a u e => h.trans (hx.ok a u e), fun c u e => h.trans (hx.raise c u e)⟩

/-! ### The encoder -/

theorem State.packToken_growing (s : State) (i : Instr) : Growing s (s.packToken i) :=
  .of_lift (State.Grows.of_pack s) _

theorem State.emit_growing (s : State) : Growing s s.emit := by
  unfold State.emit
  split
  · refine (s.packToken_growing _).bind fun _ t => .of_ok (.of_codec ?_ rfl rfl)
    exact ((Codec.Grows.tick t.codec).trans (.of_same _ _ _ _ _)).trans (.tick _)
  · split
    · exact .of_fault
    · exact (s.packToken_growing _).bind fun _ t => .of_ok (.of_codec (.tick _) rfl rfl)

theorem State.insertEntry_growing (s : State) (e : Str) : Growing s (s.insertEntry e) := by
  unfold State.insertEntry
  split
  · exact .of_raise (.refl s)
  · exact .of_ok (.of_codec (.of_entry _ _) rfl rfl)

theorem State.insertUnit_growing (s : State) (u : CodeUnit) : Growing s (s.insertUnit u) := by
  unfold State.insertUnit
  split
  · exact .of_ok (.refl s)
  · exact (s.insertEntry_growing _).bind fun _ t => .of_ok (.of_codec (.of_same _ _ _ _ _) rfl rfl)

theorem State.extendOrEmit_growing (s : State) (u : CodeUnit) : Growing s (s.extendOrEmit u) := by
  unfold State.extendOrEmit
  dsimp only
  split
  · exact .of_ok (.of_codec (.of_same _ _ _ _ _) rfl rfl)
  · exact s.emit_growing.bind fun _ t => (t.insertEntry_growing _).bind fun _ v =>
      .of_ok (.of_codec (.of_same _ _ _ _ _) rfl rfl)

theorem State.encStep_growing (s : State) : Growing s s.encStep := by
  unfold State.encStep
  split
  · exact .of_refused
  · rename_i u _
    have unit : s.Grows { s with codec := { s.codec with c := u } } := .of_codec (.of_same _ _ _ _ _) rfl rfl
    exact unit.growing ((State.insertUnit_growing _ _).bind fun _ t =>
      (t.extendOrEmit_growing _).bind fun _ v => .of_ok (.of_codec (.of_same _ _ _ _ _) rfl rfl))

theorem State.encFinish_growing (s : State) : Growing s s.encFinish :=
  s.emit_growing.bind fun _ t => (t.packToken_growing _).bind fun _ u =>
    (Growing.of_lift (State.Grows.of_pack u) _).bind fun _ _ => .of_ok (.of_codec (.refl _) rfl rfl)

theorem State.encodeMove_growing (s : State) : Growing s s.encodeMove := by
  unfold State.encodeMove
  split
  · exact s.encStep_growing
  · exact s.encFinish_growing

/-! ### The scrambler -/

theorem State.scrambleMove_grows (s : State) : s.Grows s.scrambleMove :=
  ⟨.refl _, List.prefix_refl _, fun _ => by rw [s.scrambleMove_sinc, keyIncrement_odd]⟩

theorem State.unscrambleKey_grows (s : State) : s.Grows s.unscrambleKey :=
  ⟨.refl _, List.prefix_refl _, fun _ => by rw [s.unscrambleKey_sinc, keyIncrement_odd]⟩

theorem State.converted_grows (s : State) (r : Symbol) : s.Grows (s.converted r) := by
  unfold State.converted
  split
  · exact .of_codec (.refl _) rfl rfl
  · exact ⟨.refl _, List.prefix_refl _, id⟩

theorem State.unscrambleMove_growing (s : State) : Growing s s.unscrambleMove := by
  unfold State.unscrambleMove
  split
  · rw [State.convertUnit_eq]
    split
    · exact .of_refused
    · exact .of_fault
    · exact .of_raise (.refl s)
    · exact .of_ok (s.converted_grows _)
  · exact .of_ok s.unscrambleKey_grows

/-! ### The decoder -/

theorem State.unpack_growing (s : State) (w : Nat) : Growing s (s.unpack w) :=
  .of_lift (State.Grows.of_read s) _

theorem State.fetchFirst_growing (s : State) : Growing s s.fetchFirst := by
  refine (s.unpack_growing 2).bind fun p t => ?_
  split
  · exact .of_raise (.refl t)
  · exact (t.unpack_growing _).bind fun _ u => .of_ok (.refl u)

theorem State.fetchLater_growing (s : State) : Growing s s.fetchLater := by
  refine (s.unpack_growing _).bind fun code t => ?_
  have cc : t.Grows { t with dec := { t.dec with cc := code } } := .of_codec (.refl _) rfl rfl
  dsimp only
  split
  · exact .of_ok cc
  · exact cc.growing ((State.unpack_growing _ _).bind fun _ u => .of_ok (.refl u))

/-- A string registered in DLIST (R127). -/
theorem State.appendEntry_grows (s : State) (e : Str) : s.Grows (s.appendEntry e) :=
  ⟨.of_code _, List.prefix_append _ _, id⟩

theorem State.firstLiteral_growing (s : State) (v : CodeUnit) : Growing s (s.firstLiteral v) := by
  unfold State.firstLiteral
  split
  · exact .of_raise (.refl s)
  · refine (s.appendEntry_grows [v]).growing (.of_ok (.of_codec ?_ rfl rfl))
    exact ((Codec.Grows.tick _).trans (.tick _)).trans (.of_same _ _ _ _ _)

theorem State.commonTail_growing (s : State) : Growing s s.commonTail := by
  unfold State.commonTail
  split
  · exact .of_raise (.refl s)
  · dsimp only
    split
    · exact .of_fault
    · split
      · exact .of_raise (.of_codec (.refl _) rfl rfl)
      · refine (s.appendEntry_grows _).growing (.of_ok (.of_codec ?_ rfl rfl))
        exact (Codec.Grows.tick _).trans (.of_same _ _ _ _ _)

theorem State.literal_growing (s : State) (v : CodeUnit) : Growing s (s.literal v) := by
  unfold State.literal
  split
  · exact .of_raise (.refl s)
  · refine State.Grows.growing ?_ (State.commonTail_growing _)
    exact (s.appendEntry_grows [v]).trans (.of_codec (.tick _) rfl rfl)

theorem State.reference_growing (s : State) (k : Nat) : Growing s (s.reference k) := by
  have resolves : Growing s (s.resolveRef k) := by
    constructor
    · intro e t h
      rw [(State.resolveRef_ok h).1]
      exact .refl s
    · intro c t h
      rw [(State.resolveRef_raise h).1]
      exact .refl s
  refine resolves.bind fun e t => State.Grows.growing ?_ (State.commonTail_growing _)
  exact .of_codec (.refl _) rfl rfl

/-! ### A whole step of the engine -/

theorem Growing.outcome {α : Type} {s t : State} {x : Eff State α} (h : Growing s x) (next : x.outcome = .next t) :
    s.Grows t := by
  obtain ⟨a, done⟩ | ⟨c, u, raised, rfl⟩ := Eff.outcome_eq_next.1 next
  · exact h.ok a t done
  · exact (h.raise c u raised).trans (.of_codec (.refl _) rfl rfl)

theorem exec_token_grows {i : Instr} {s t : State} (token : isToken i = true) (h : exec i s = .next t) : s.Grows t := by
  cases i with
  | compress | decompress | compressScrambled | decompressScrambled => cases token
  | firstLit8 v | firstLit16 v => exact (s.firstLiteral_growing _).outcome h
  | lit8 v | lit16 v => exact (s.literal_growing _).outcome h
  | eos =>
    cases h
    exact .of_codec (.refl _) rfl rfl
  | ref k => exact (s.reference_growing k).outcome h

theorem Growing.move {s t : State} {x : Eff State Instr} (h : Growing s x)
    (token : ∀ i u, x = .ok i u → isToken i = true) (next : x.move.run = .next t) : s.Grows t := by
  cases x with
  | ok i u => exact (h.ok i u rfl).trans (exec_token_grows (token i u rfl) next)
  | raise c u =>
    cases next
    exact (h.raise c u rfl).trans (.of_codec (.refl _) rfl rfl)
  | fault f => cases next
  | refused r => cases next

theorem State.fetchFirst_isToken {s t : State} {i : Instr} (h : s.fetchFirst = .ok i t) : isToken i = true := by
  obtain ⟨p, v, rfl⟩ := State.fetchFirst_token h
  exact isToken_firstToken p v

theorem State.fetchLater_isToken {s t : State} {i : Instr} (h : s.fetchLater = .ok i t) : isToken i = true := by
  obtain ⟨code, v, rfl⟩ := State.fetchLater_token h
  exact isToken_laterToken code v

theorem engineStep_of_encode {s : State} (encode : s.phase = .encode) : engineStep s = s.encodeMove.outcome := by
  simp only [engineStep_eq_run, State.engineMove, encode]
  rfl

/-- Every step of the engine grows, phase by phase. -/
theorem engineStep_grows {s t : State} (h : engineStep s = .next t) : s.Grows t := by
  cases phase : s.phase with
  | idle =>
    cases (engineStep_of_idle phase).symm.trans h
    exact .refl s
  | finished =>
    cases (engineStep_of_finished phase).symm.trans h
    exact .refl s
  | encode => exact s.encodeMove_growing.outcome ((engineStep_of_encode phase).symm.trans h)
  | scramble =>
    cases (engineStep_of_scramble phase).symm.trans h
    exact s.scrambleMove_grows
  | unscramble => exact s.unscrambleMove_growing.outcome ((engineStep_of_unscramble phase).symm.trans h)
  | decodeFirst =>
    exact s.fetchFirst_growing.move (fun _ _ => State.fetchFirst_isToken) ((engineStep_of_decodeFirst phase).symm.trans h)
  | decode =>
    exact s.fetchLater_growing.move (fun _ _ => State.fetchLater_isToken) ((engineStep_of_decode phase).symm.trans h)
  | output =>
    rw [engineStep_of_output phase] at h
    obtain ⟨-, raised⟩ | ⟨-, done⟩ := State.outputMove_cases s
    · rw [raised] at h
      cases h
      exact .of_codec (.refl _) rfl rfl
    · rw [done] at h
      cases h
      exact .of_codec (.refl _) rfl rfl

/-- Settles O23. -/
theorem widthsAndDictionaryOnlyGrow : Obligations.WidthsAndDictionaryOnlyGrow := by
  intro s t busy h noReset
  obtain ⟨l, v, d, rfl⟩ | ⟨l, moves⟩ := step_cases_of_busy busy noReset h
  · exact ⟨le_rfl, le_rfl, List.prefix_refl _, List.prefix_refl _⟩
  · obtain ⟨⟨numBits, dictSize, dict, -⟩, dlist, -⟩ := engineStep_grows moves
    exact ⟨numBits, dictSize, dict, dlist⟩

/-- Settles O46: all the engine does but OUTPUT's END_OK leads to a framed state or a raise from one. -/
theorem noOutputOnError : Obligations.NoOutputOnError := by
  intro s t busy h noReset
  obtain ⟨l, v, d, rfl⟩ | ⟨l, moves⟩ := step_cases_of_busy busy noReset h
  · exact ⟨fun _ => rfl, fun error => absurd (busy.symm.trans error) (by decide)⟩
  · obtain leads | ⟨output, -, rfl⟩ := engineStep_cases moves
    · refine ⟨fun _ => leads.keeps.2.2.1, fun error => ⟨leads.keeps.2.2.1, ?_⟩⟩
      obtain framed | ⟨u, c, -, -, rfl⟩ := leads
      · rw [framed.regs] at error
        exact absurd (busy.symm.trans error) (by decide)
      · rfl
    · exact ⟨fun elsewhere => absurd output elsewhere, fun error => nomatch error⟩

end Sys2Proof.Machine
end

section
namespace Sys2Proof.Machine

/-! ### The encoder's step, by its cases (R101 to R106) -/

theorem dictLookup_append (d e : List (Str × Nat)) (s : Str) :
    dictLookup (d ++ e) s = (dictLookup d s).or (dictLookup e s) := by
  induction d with
  | nil => rfl
  | cons x d ih =>
    obtain ⟨t, k⟩ := x
    by_cases same : s = t <;> simp [dictLookup, same, ih]

/-- The entry ENC_STEP's part 1 makes: a unit seen for the first time (R101). -/
def Codec.unitEntry (c : Codec) (u : CodeUnit) : List (Str × Nat) :=
  if dictLookup c.dict [u] = none then [([u], c.dictSize)] else []

/-- The codec after part 1 of ENC_STEP (R101). -/
def Codec.register (c : Codec) (u : CodeUnit) : Codec :=
  if dictLookup c.dict [u] = none then { c.insert [u] with c := u, pend := c.pend ++ [u] } else { c with c := u }

section
variable (c : Codec) (u : CodeUnit)

theorem Codec.register_of_new (new : dictLookup c.dict [u] = none) : c.register u =
    { c.insert [u] with c := u, pend := c.pend ++ [u] } := if_pos new

theorem Codec.register_of_known (known : dictLookup c.dict [u] ≠ none) : c.register u = { c with c := u } := if_neg known

/-- A unit is registered by one entry, and is pending, if it is new. -/
theorem Codec.register_eq : c.register u = { c with
    c := u, dict := c.dict ++ c.unitEntry u, dictSize := c.dictSize + (c.unitEntry u).length
    pend := (c.register u).pend } := by
  by_cases new : dictLookup c.dict [u] = none
  · simp [Codec.register, Codec.unitEntry, new, Codec.insert]
  · simp [Codec.register, Codec.unitEntry, new]

@[simp] theorem Codec.register_w : (c.register u).w = c.w := by rw [Codec.register_eq]
@[simp] theorem Codec.register_numBits : (c.register u).numBits = c.numBits := by rw [Codec.register_eq]
@[simp] theorem Codec.register_enlargeIn : (c.register u).enlargeIn = c.enlargeIn := by rw [Codec.register_eq]
@[simp] theorem Codec.register_idx : (c.register u).idx = c.idx := by rw [Codec.register_eq]
@[simp] theorem Codec.register_c : (c.register u).c = u := by rw [Codec.register_eq]
@[simp] theorem Codec.register_dict : (c.register u).dict = c.dict ++ c.unitEntry u := by rw [Codec.register_eq]
@[simp] theorem Codec.register_dictSize : (c.register u).dictSize = c.dictSize + (c.unitEntry u).length := by
  rw [Codec.register_eq]

theorem Codec.mem_register_pend (v : CodeUnit) :
    v ∈ (c.register u).pend ↔ v ∈ c.pend ∨ (v = u ∧ dictLookup c.dict [u] = none) := by
  by_cases new : dictLookup c.dict [u] = none <;> simp [Codec.register, new]

end

/-- The state after part 1 of ENC_STEP. -/
def State.registered (s : State) (u : CodeUnit) : State := { s with codec := s.codec.register u }

@[simp] theorem State.registered_codec (s : State) (u : CodeUnit) : (s.registered u).codec = s.codec.register u := rfl

/-- A unit never written is refused (R239; log 7). -/
theorem State.encStep_of_unwritten {s : State} (unwritten : s.inBuf.read s.codec.idx = none) :
    s.encStep = .refused (.unwrittenInput s.codec.idx) := by
  simp only [State.encStep, unwritten]

/-- A new unit with no code below DICT_MAX. -/
theorem State.encStep_of_full {s : State} {u : CodeUnit} (input : s.inBuf.read s.codec.idx = some u)
    (new : dictLookup s.codec.dict [u] = none) (full : exceeds (s.codec.dictSize + 1) s.cfg.dictMax = true) :
    ∃ t, s.encStep = .raise .capacity t := by
  simp only [State.encStep, input, State.insertUnit, new, State.insertEntry, full, if_true, Eff.bind_raise_left]
  exact ⟨_, rfl⟩

/-- Part 1 done, ENC_STEP goes on with the parts 2 and 3. -/
theorem State.encStep_of_input {s : State} {u : CodeUnit} (input : s.inBuf.read s.codec.idx = some u)
    (room : dictLookup s.codec.dict [u] = none → exceeds (s.codec.dictSize + 1) s.cfg.dictMax = false) :
    s.encStep = ((s.registered u).extendOrEmit u).bind fun _ t => .ok () t.advanceIdx := by
  have registers : State.insertUnit { s with codec := { s.codec with c := u } } u = .ok () (s.registered u) := by
    by_cases new : dictLookup s.codec.dict [u] = none
    · simp [State.insertUnit, new, State.insertEntry, room new, State.registered, Codec.register_of_new,
        Codec.insert, setPending]
    · obtain ⟨k, known⟩ := Option.ne_none_iff_exists'.1 new
      simp [State.insertUnit, known, State.registered, Codec.register_of_known]
  simp only [State.encStep, input, registers, Eff.bind_ok_left]

/-- Part 2: `W ++ <C>` is an entry (R102). -/
theorem State.encStep_of_match {s : State} {u : CodeUnit} (input : s.inBuf.read s.codec.idx = some u)
    (room : dictLookup s.codec.dict [u] = none → exceeds (s.codec.dictSize + 1) s.cfg.dictMax = false)
    (matched : dictLookup (s.codec.register u).dict (s.codec.w ++ [u]) ≠ none) :
    s.encStep = .ok () { s with
      codec := { s.codec.register u with w := s.codec.w ++ [u], idx := s.codec.idx + 1 } } := by
  obtain ⟨k, found⟩ := Option.ne_none_iff_exists'.1 matched
  rw [State.encStep_of_input input room]
  simp only [State.registered, State.extendOrEmit, Codec.register_w, found, Eff.bind_ok_left, State.advanceIdx,
    Codec.register_idx]

theorem engineStep_of_encStep {s : State} (encode : s.phase = .encode) (more : s.codec.idx < s.lat.nL) :
    engineStep s = s.encStep.outcome := by
  rw [engineStep_of_encode encode, State.encodeMove, if_pos more]

theorem engineStep_of_encFinish {s : State} (encode : s.phase = .encode) (all : s.lat.nL ≤ s.codec.idx) :
    engineStep s = s.encFinish.outcome := by
  rw [engineStep_of_encode encode, State.encodeMove, if_neg (Nat.not_lt.2 all)]

/-- Settles O18: a known unit is registered by nothing, the first unit of a pass by its own entry. -/
theorem encoderExtendsTheMatch : Obligations.EncoderExtendsTheMatch := by
  intro s u encode alone more input
  refine ⟨fun j k known found => ?_, fun new empty room => ?_⟩ <;>
    rw [step_of_host_nil alone, engineStep_of_encStep encode more]
  · have registered := s.codec.register_of_known u (by simp [known])
    rw [State.encStep_of_match input (by simp [known]) (by simp [registered, found]), registered]
    rfl
  · have registered := s.codec.register_of_new u new
    have found : dictLookup (s.codec.register u).dict (s.codec.w ++ [u]) ≠ none := by
      simp [empty, Codec.unitEntry, new, dictLookup_append, dictLookup]
    rw [State.encStep_of_match input (fun _ => room) found, registered, empty]
    rfl

/-! ### Part 3: a mismatch (R103, R105, R106) -/

theorem State.packToken_packs {s : State} (sound : s.pack.Sound (bpcOf s.adapter)) (i : Instr) :
    (s.pack.overflows (bpcOf s.adapter) s.cfg.outMax (encode (.later s.codec.numBits) i).length = false ∧
        ∃ q, s.packToken i = .ok () { s with pack := q } ∧
          s.pack.Packed (bpcOf s.adapter) (encode (.later s.codec.numBits) i) q) ∨
      (s.pack.overflows (bpcOf s.adapter) s.cfg.outMax (encode (.later s.codec.numBits) i).length = true ∧
        ∃ q, s.packToken i = .raise .capacity { s with pack := q }) := by
  obtain ⟨fits, q, packs, packed⟩ | ⟨beyond, q, raised, -⟩ := Packer.packFields_packs (cap := s.cfg.outMax)
    (bpcOf_range s.adapter).1 (bpcOf_range s.adapter).2 (encodeFields s.codec.numBits i) sound
  · exact .inl ⟨fits, q, by rw [State.packToken, packs]; rfl, packed⟩
  · exact .inr ⟨beyond, q, by rw [State.packToken, raised]; rfl⟩

/-- The TICKs of two codecs that have the same NUMBITS and ENLARGEIN. -/
theorem Codec.iterate_tick_congr : ∀ (n : Nat) {c d : Codec}, c.numBits = d.numBits → c.enlargeIn = d.enlargeIn →
    (Nat.iterate Codec.tick n c).numBits = (Nat.iterate Codec.tick n d).numBits ∧
      (Nat.iterate Codec.tick n c).enlargeIn = (Nat.iterate Codec.tick n d).enlargeIn
  | 0, _, _, h1, h2 => ⟨h1, h2⟩
  | n + 1, _, _, h1, h2 =>
    Codec.iterate_tick_congr n (Codec.tick_numBits_congr h1 h2) (Codec.tick_enlargeIn_congr h1 h2)

/-- A key of DICT has a token. -/
theorem State.exists_emits {s : State} (key : dictLookup s.codec.dict s.codec.w ≠ none) : ∃ tok, s.Emits tok := by
  obtain ⟨k, found⟩ := Option.ne_none_iff_exists'.1 key
  by_cases pending : ∃ v, s.codec.w = [v] ∧ v ∈ s.codec.pend
  · obtain ⟨v, single, member⟩ := pending
    exact ⟨_, k, found, .inl ⟨v, single, member, rfl⟩⟩
  · exact ⟨_, k, found, .inr ⟨pending, rfl⟩⟩

/-- Registering a unit leaves W's token as it is: a unit that is new is not W. -/
theorem State.registered_emits {s : State} {tok : Instr} (h : s.Emits tok) (u : CodeUnit) :
    (s.registered u).Emits tok := by
  obtain ⟨k, found, token⟩ := h
  have pending : ∀ v, s.codec.w = [v] → (v ∈ (s.codec.register u).pend ↔ v ∈ s.codec.pend) := by
    intro v single
    rw [Codec.mem_register_pend]
    refine or_iff_left fun ⟨same, new⟩ => ?_
    rw [single, same, new] at found
    cases found
  refine ⟨k, by simp [State.registered, dictLookup_append, found], ?_⟩
  simp only [State.registered, Codec.register_w]
  obtain ⟨v, single, member, rfl⟩ | ⟨none, rfl⟩ := token
  · exact .inl ⟨v, single, (pending v single).2 member, rfl⟩
  · exact .inr ⟨fun ⟨v, single, member⟩ => none ⟨v, single, (pending v single).1 member⟩, rfl⟩

/-- The codec `c` after `b` emitted the token `tok` of its W: its TICKs done, W's unit pending no more (R105, R106). -/
structure Codec.Emitted (b : Codec) (tok : Instr) (c : Codec) : Prop where
  pend : ∀ v, v ∈ c.pend ↔ v ∈ b.pend ∧ b.w ≠ [v]
  rest : c = { b with
    pend := c.pend, numBits := (Nat.iterate Codec.tick (tokenTicks tok) b).numBits
    enlargeIn := (Nat.iterate Codec.tick (tokenTicks tok) b).enlargeIn }

/-- The entries a mismatch at `u` makes (R101, R103). -/
def Codec.mismatchEntries (c : Codec) (u : CodeUnit) : List (Str × Nat) :=
  c.unitEntry u ++ [(c.w ++ [u], c.dictSize + (c.unitEntry u).length)]

/-- The codec `c` after a mismatch of `b` at `u` (R103): W's token emitted, the entries made, W started again at `u`. -/
structure Codec.Restarted (b : Codec) (tok : Instr) (u : CodeUnit) (c : Codec) : Prop where
  pend : ∀ v, v ∈ c.pend ↔ (v ∈ b.pend ∧ b.w ≠ [v]) ∨ (v = u ∧ dictLookup b.dict [u] = none)
  rest : c = { b with
    w := [u], c := u, idx := b.idx + 1, pend := c.pend, dict := b.dict ++ b.mismatchEntries u
    dictSize := b.dictSize + (b.mismatchEntries u).length
    numBits := (Nat.iterate Codec.tick (tokenTicks tok) b).numBits
    enlargeIn := (Nat.iterate Codec.tick (tokenTicks tok) b).enlargeIn }

theorem Codec.length_mismatchEntries (c : Codec) (u : CodeUnit) :
    (c.mismatchEntries u).length = (c.unitEntry u).length + 1 := by
  rw [Codec.mismatchEntries, List.length_append, List.length_singleton]

/-- Registering `u`, emitting W's token and inserting `W ++ <u>` is a mismatch at `u`. -/
theorem Codec.Emitted.restarted {b c : Codec} {tok : Instr} {u : CodeUnit} (h : (b.register u).Emitted tok c)
    (key : dictLookup b.dict b.w ≠ none) :
    b.Restarted tok u { c.insert (b.w ++ [u]) with w := [u], idx := b.idx + 1 } where
  pend v := by
    simp only [Codec.insert_pend, h.pend, Codec.mem_register_pend, Codec.register_w]
    constructor
    · rintro ⟨old | new, other⟩
      · exact .inl ⟨old, other⟩
      · exact .inr new
    · rintro (⟨old, other⟩ | ⟨rfl, new⟩)
      · exact ⟨.inl old, other⟩
      · refine ⟨.inr ⟨rfl, new⟩, fun single => key ?_⟩
        rw [single, new]
  rest := by
    obtain ⟨numBits, enlargeIn⟩ :=
      Codec.iterate_tick_congr (tokenTicks tok) (b.register_numBits u) (b.register_enlargeIn u)
    rw [h.rest]
    simp [Codec.insert, Codec.mismatchEntries, numBits, enlargeIn, Nat.add_assoc]

/-- W is a key where it has a token. -/
theorem State.Emits.key {s : State} {tok : Instr} (h : s.Emits tok) : dictLookup s.codec.dict s.codec.w ≠ none := by
  obtain ⟨k, found, -⟩ := h
  simp [found]

/-- EMIT (R106) packs W's token, and then the codec has emitted it. -/
theorem State.Emits.emit {s : State} {tok : Instr} (h : s.Emits tok) : ∃ c, s.codec.Emitted tok c ∧
    s.emit = (s.packToken tok).bind fun _ t => .ok () { t with codec := c } := by
  obtain ⟨c, emits, pend, rest⟩ := State.emit_of_emits h
  exact ⟨c, ⟨pend, rest⟩, emits⟩

/-- ENC_STEP on a mismatch: within the capacities it completes, and else raises CAPACITY. -/
theorem State.encStep_of_mismatch {s : State} {u : CodeUnit} {tok : Instr} (input : s.inBuf.read s.codec.idx = some u)
    (mismatch : dictLookup s.codec.dict (s.codec.w ++ [u]) = none) (started : s.codec.w ≠ []) (emits : s.Emits tok)
    (sound : s.pack.Sound (bpcOf s.adapter)) :
    (s.pack.overflows (bpcOf s.adapter) s.cfg.outMax (encode (.later s.codec.numBits) tok).length = false ∧
        exceeds (s.codec.dictSize + (s.codec.mismatchEntries u).length) s.cfg.dictMax = false ∧
        ∃ c q, s.codec.Restarted tok u c ∧
          s.pack.Packed (bpcOf s.adapter) (encode (.later s.codec.numBits) tok) q ∧
          s.encStep = .ok () { s with codec := c, pack := q }) ∨
      ((s.pack.overflows (bpcOf s.adapter) s.cfg.outMax (encode (.later s.codec.numBits) tok).length = true ∨
          exceeds (s.codec.dictSize + (s.codec.mismatchEntries u).length) s.cfg.dictMax = true) ∧
        ∃ t, s.encStep = .raise .capacity t) := by
  rw [Codec.length_mismatchEntries]
  by_cases room : dictLookup s.codec.dict [u] = none → exceeds (s.codec.dictSize + 1) s.cfg.dictMax = false
  swap
  · obtain ⟨new, full⟩ := Classical.not_imp.1 room
    rw [Bool.not_eq_false] at full
    refine .inr ⟨.inr ?_, State.encStep_of_full input new full⟩
    by_contra fits
    rw [Codec.unitEntry, if_pos new] at fits
    rw [exceeds_mono (Nat.le_succ _) (Bool.not_eq_true _ ▸ fits)] at full
    cases full
  have unmatched : dictLookup (s.codec.register u).dict (s.codec.w ++ [u]) = none := by
    have other : s.codec.w ++ [u] ≠ [u] := by simp [started]
    rw [Codec.register_dict, dictLookup_append, mismatch, Codec.unitEntry]
    split <;> simp [dictLookup, other]
  obtain ⟨c, emitted, emit⟩ := (State.registered_emits emits u).emit
  have steps : s.encStep = ((s.registered u).packToken tok).bind fun _ t =>
      (State.insertEntry { t with codec := c } (s.codec.w ++ [u])).bind fun _ t =>
        .ok () { t with codec := { t.codec with w := [u], idx := t.codec.idx + 1 } } := by
    rw [State.encStep_of_input input room]
    simp only [State.extendOrEmit, emit]
    simp only [State.registered, Codec.register_w, unmatched]
    cases (State.packToken { s with codec := s.codec.register u } tok) with
    | ok a t =>
      simp only [Eff.bind_ok_left]
      cases (State.insertEntry { t with codec := c } (s.codec.w ++ [u])) <;> rfl
    | _ => rfl
  have size : c.dictSize = s.codec.dictSize + (s.codec.unitEntry u).length := by rw [emitted.rest]; simp
  have idx : c.idx = s.codec.idx := by rw [emitted.rest]; simp
  obtain ⟨fits, q, packs, packed⟩ | ⟨beyond, q, raised⟩ :=
    State.packToken_packs (s := s.registered u) sound tok
  · simp only [State.registered, Codec.register_numBits] at fits packed
    rw [packs, Eff.bind_ok_left, State.insertEntry] at steps
    cases full : exceeds (s.codec.dictSize + ((s.codec.unitEntry u).length + 1)) s.cfg.dictMax with
    | true =>
      rw [if_pos (by rw [size]; exact full)] at steps
      exact .inr ⟨.inr rfl, _, steps⟩
    | false =>
      rw [if_neg (by rw [size]; exact Bool.eq_false_iff.1 full)] at steps
      refine .inl ⟨fits, rfl, _, q, emitted.restarted emits.key, packed, ?_⟩
      rw [steps, ← idx]
      rfl
  · simp only [State.registered, Codec.register_numBits] at beyond
    rw [raised] at steps
    exact .inr ⟨.inl beyond, _, steps⟩

/-- The entries a mismatch makes, as their number and the statements name them. -/
theorem Codec.mismatchEntries_eq (c : Codec) (u : CodeUnit) : c.mismatchEntries u =
    if dictLookup c.dict [u] = none then [([u], c.dictSize), (c.w ++ [u], c.dictSize + 1)]
    else [(c.w ++ [u], c.dictSize)] := by
  unfold Codec.mismatchEntries Codec.unitEntry
  split <;> rfl

/-- Settles O19: within the capacities the mismatch completes. -/
theorem encoderEmitsOnMismatch : Obligations.EncoderEmitsOnMismatch := by
  intro s u tok encode alone more input mismatch started emits sound bits ticked entries fits room
  have same : s.codec.mismatchEntries u = entries := Codec.mismatchEntries_eq ..
  obtain ⟨-, -, c, q, restarted, packed, done⟩ | ⟨beyond, -⟩ :=
    State.encStep_of_mismatch input mismatch started emits sound
  · refine ⟨{ s with codec := c, pack := q }, ?_, packed.sound, packed.bits, restarted.pend, same ▸ restarted.rest, rfl⟩
    rw [step_of_host_nil alone, engineStep_of_encStep encode more, done]
    rfl
  · rw [same, fits, room] at beyond
    simp at beyond

/-! ### ENC_FINISH (R107) -/

/-- ENC_FINISH within OUT_MAX completes, and else raises CAPACITY. -/
theorem State.encFinish_of_emits {s : State} {tok : Instr} (emits : s.Emits tok)
    (sound : s.pack.Sound (bpcOf s.adapter)) :
    let bits := encode (.later s.codec.numBits) tok ++
      encode (.later (Nat.iterate Codec.tick (tokenTicks tok) s.codec).numBits) .eos
    (exceeds (s.pack.symbolsAfter (bpcOf s.adapter) bits.length + 1) s.cfg.outMax = false ∧
        ∃ c p r, s.codec.Emitted tok c ∧ s.pack.Packed (bpcOf s.adapter) bits p ∧ r.toNat < 2 ^ bpcOf s.adapter ∧
          fieldBits r.toNat (bpcOf s.adapter) =
            fieldBits p.pval.toNat p.ppos ++ List.replicate (bpcOf s.adapter - p.ppos) false ∧
          s.encFinish = .ok () { s with
            codec := c, pack := { pval := 0, ppos := 0, sym := p.sym ++ [r] }
            phase := if s.lat.scr then .scramble else .output }) ∨
      (exceeds (s.pack.symbolsAfter (bpcOf s.adapter) bits.length + 1) s.cfg.outMax = true ∧
        ∃ t, s.encFinish = .raise .capacity t) := by
  intro bits
  have hb := (bpcOf_range s.adapter).1
  obtain ⟨c, emitted, emit⟩ := emits.emit
  have width : c.numBits = (Nat.iterate Codec.tick (tokenTicks tok) s.codec).numBits := by rw [emitted.rest]
  have beyondOf : s.pack.overflows (bpcOf s.adapter) s.cfg.outMax bits.length = true →
      exceeds (s.pack.symbolsAfter (bpcOf s.adapter) bits.length + 1) s.cfg.outMax = true := by
    intro overflow
    by_contra fits
    have within := exceeds_mono (Nat.le_succ _) (Bool.not_eq_true _ ▸ fits)
    rw [Packer.overflows_iff hb] at overflow
    rw [Packer.symbolsAfter, overflow.2] at within
    cases within
  obtain ⟨fits₁, q₁, packs₁, packed₁⟩ | ⟨beyond, q, raised⟩ := State.packToken_packs sound tok
  swap
  · refine .inr ⟨beyondOf (Packer.overflows_mono hb (by simp [bits]) beyond), { s with pack := q }, ?_⟩
    simp only [State.encFinish, emit, raised, Eff.bind_raise_left]
  obtain ⟨fits₂, q₂, packs₂, packed₂⟩ | ⟨beyond, q, raised⟩ :=
    State.packToken_packs (s := { s with pack := q₁, codec := c }) packed₁.sound .eos
  swap
  · refine .inr ⟨beyondOf ?_, { s with pack := q, codec := c }, ?_⟩
    · simp only [width] at beyond
      rw [List.length_append, ← packed₁.overflows_add fits₁]
      exact beyond
    · simp only [State.encFinish, emit, packs₁, Eff.bind_ok_left]
      exact congrArg (fun x => Eff.bind x _) raised
  simp only [width] at packed₂
  have packed := packed₁.trans packed₂
  have finish : s.encFinish =
      ((Packer.flush (bpcOf s.adapter) s.cfg.outMax q₂).lift fun p => { s with pack := p, codec := c }).bind fun _ s =>
        .ok () { s with phase := if s.lat.scr then .scramble else .output } := by
    simp only [State.encFinish, emit, packs₁, Eff.bind_ok_left]
    exact congrArg (fun x => Eff.bind x _) packs₂
  cases full : exceeds (s.pack.symbolsAfter (bpcOf s.adapter) bits.length + 1) s.cfg.outMax with
  | true =>
    rw [Packer.flush_of_beyond (by rw [packed.length]; exact full)] at finish
    exact .inr ⟨rfl, _, finish⟩
  | false =>
    obtain ⟨r, flushes, bound, last, -⟩ := Packer.flush_of_within (bpcOf_range s.adapter).2 packed.sound
      (cap := s.cfg.outMax) (by rw [packed.length]; exact full)
    rw [flushes] at finish
    exact .inl ⟨rfl, c, q₂, r, emitted, packed, bound, last, finish⟩

/-- The bits packed, once the packer `p` is flushed by the symbol `r`. -/
theorem Packer.bits_flushed {bpc : Nat} {p : Packer} {r : Symbol} {zeros : List Bool}
    (last : fieldBits r.toNat bpc = fieldBits p.pval.toNat p.ppos ++ zeros) :
    Packer.bits bpc { pval := 0, ppos := 0, sym := p.sym ++ [r] } = p.bits bpc ++ zeros := by
  simp [Packer.bits, last, fieldBits]

/-- Settles O20. -/
theorem encoderFinishesThePass : Obligations.EncoderFinishesThePass := by
  intro s tok encode alone all emits sound bpc ticked bits fits
  obtain ⟨-, c, p, r, emitted, packed, -, last, done⟩ | ⟨beyond, -⟩ := State.encFinish_of_emits emits sound
  · refine ⟨{ s with
      codec := c, pack := { pval := 0, ppos := 0, sym := p.sym ++ [r] }
      phase := if s.lat.scr then .scramble else .output }, ?_, rfl, rfl, ?_, ?_, emitted.pend, emitted.rest, rfl, rfl⟩
    · rw [step_of_host_nil alone, engineStep_of_encFinish encode all, done]
      rfl
    · rw [List.length_append, packed.length]
      rfl
    · rw [Packer.bits_flushed last, packed.bits, packed.ppos]
  · exact absurd (beyond.symm.trans fits) (by decide)

/-- Settles O21. -/
theorem encoderRaisesCapacity : Obligations.EncoderRaisesCapacity := by
  intro s encode alone bpc refuses
  have steps : ∀ more : s.codec.idx < s.lat.nL, (∃ t, s.encStep = .raise .capacity t) → refuses := by
    intro more raised
    have ends := s.encStep_framing.ends_of_capacity raised
    rwa [← engineStep_of_encStep encode more, ← step_of_host_nil alone] at ends
  refine ⟨fun u more input new full => steps more (State.encStep_of_full input new full),
    fun u tok more input mismatch started emits sound beyond => steps more ?_, fun tok all emits sound beyond => ?_⟩
  · obtain ⟨fits, room, -⟩ | ⟨-, raised⟩ := State.encStep_of_mismatch input mismatch started emits sound
    · rw [Codec.mismatchEntries_eq] at room
      obtain overflow | overflow := beyond
      · exact absurd (overflow.symm.trans fits) (by decide)
      · have count : (if dictLookup s.codec.dict [u] = none then 2 else 1) = (s.codec.mismatchEntries u).length := by
          rw [Codec.mismatchEntries_eq]
          split <;> rfl
        rw [count, Codec.mismatchEntries_eq, room] at overflow
        cases overflow
    · exact raised
  · obtain ⟨fits, -⟩ | ⟨-, raised⟩ := State.encFinish_of_emits emits sound
    · exact absurd (beyond.symm.trans fits) (by decide)
    · have ends := s.encFinish_framing.ends_of_capacity raised
      rwa [← engineStep_of_encFinish encode all, ← step_of_host_nil alone] at ends

/-! ### Only CAPACITY (R100, R202) -/

theorem State.packToken_raise {s t : State} {i : Instr} {c : Cause} (h : s.packToken i = .raise c t) : c = .capacity := by
  obtain ⟨q, packs⟩ | ⟨q, raised⟩ := s.packToken_cases i
  · rw [packs] at h
    cases h
  · rw [raised] at h
    cases h
    rfl

theorem State.insertUnit_raise {s t : State} {u : CodeUnit} {c : Cause} (h : s.insertUnit u = .raise c t) :
    c = .capacity := by
  unfold State.insertUnit at h
  split at h
  · cases h
  · obtain inserts | ⟨_, _, -, done⟩ := Eff.bind_eq_raise.1 h
    · exact (State.insertEntry_raise inserts).1
    · cases done

theorem State.extendOrEmit_raise {s t : State} {u : CodeUnit} {c : Cause} (h : s.extendOrEmit u = .raise c t) :
    c = .capacity := by
  unfold State.extendOrEmit at h
  dsimp only at h
  split at h
  · cases h
  · obtain emits | ⟨_, _, -, h⟩ := Eff.bind_eq_raise.1 h
    · exact State.emit_raise emits
    · obtain inserts | ⟨_, _, -, done⟩ := Eff.bind_eq_raise.1 h
      · exact (State.insertEntry_raise inserts).1
      · cases done

theorem State.encodeMove_raise {s t : State} {c : Cause} (h : s.encodeMove = .raise c t) : c = .capacity := by
  unfold State.encodeMove at h
  split at h
  · unfold State.encStep at h
    split at h
    · cases h
    · obtain registers | ⟨_, _, -, h⟩ := Eff.bind_eq_raise.1 h
      · exact State.insertUnit_raise registers
      · obtain steps | ⟨_, _, -, done⟩ := Eff.bind_eq_raise.1 h
        · exact State.extendOrEmit_raise steps
        · cases done
  · obtain emits | ⟨_, t, -, h⟩ := Eff.bind_eq_raise.1 h
    · exact State.emit_raise emits
    · obtain packs | ⟨_, u, -, h⟩ := Eff.bind_eq_raise.1 h
      · exact State.packToken_raise packs
      · obtain flushes | ⟨_, _, -, done⟩ := Eff.bind_eq_raise.1 h
        · obtain ⟨p, flushes, -⟩ := Eff.lift_eq_raise.1 flushes
          obtain ⟨q, done⟩ | ⟨q, raised⟩ := Packer.flush_answers (bpcOf u.adapter) u.cfg.outMax u.pack
          · rw [done] at flushes
            cases flushes
          · rw [raised] at flushes
            cases flushes
            rfl
        · cases done

/-- Settles O22, phase by phase: ENCODE raises CAPACITY only, SCRAMBLE nothing, OUTPUT CAPACITY only. -/
theorem encoderRaisesOnlyCapacity : Obligations.EncoderRaisesOnlyCapacity := by
  intro s t busy phases h error
  by_cases reset : s.host.head? = some .reset
  · obtain ⟨rest, turn⟩ := List.head?_eq_some_iff.1 reset
    cases (step_of_reset turn).symm.trans h
    cases error
  obtain ⟨l, v, d, rfl⟩ | ⟨l, moves⟩ := step_cases_of_busy busy reset h
  · exact absurd (busy.symm.trans error) (by decide)
  obtain encode | scramble | output := phases
  · rw [engineStep_of_encode (s := { s with host := l }) encode] at moves
    obtain ⟨c, u, raised, rfl⟩ := (State.encodeMove_framing { s with host := l }).raise_of_error busy moves error
    rw [State.encodeMove_raise raised]
    exact u.raise_capacity_ended
  · rw [engineStep_of_scramble (s := { s with host := l }) scramble] at moves
    cases moves
    exact absurd (busy.symm.trans error) (by decide)
  · rw [engineStep_of_output (s := { s with host := l }) output] at moves
    obtain ⟨-, raised⟩ | ⟨-, done⟩ := State.outputMove_cases { s with host := l }
    · rw [raised] at moves
      cases moves
      exact State.raise_capacity_ended _
    · rw [done] at moves
      cases moves
      cases error

end Sys2Proof.Machine
end

section
namespace Sys2Proof.Machine

/-! ### The invariant of a run, less what the engine does not need of it -/

/-- The part of `State.Inv` that every engine step keeps by itself: it speaks of the running command alone, and holds of
the started state whatever the block held before. -/
structure State.Sound (s : State) : Prop where
  widths     : s.codec.WidthsSound
  latch      : s.phase.isRunning = true → s.LatchSound
  packer     : s.phase.isRunning = true → s.PackerSound
  encoder    : s.phase = .encode → s.EncoderSound
  scramble   : s.phase = .scramble → s.scr.skey < s.lat.kL
  unscramble : s.phase = .unscramble → s.UnscrambleSound
  reader     : s.phase = .decodeFirst ∨ s.phase = .decode → s.ReaderSound
  decoder    : s.phase = .decodeFirst ∨ s.phase = .decode → s.DecoderSound
  result     : s.phase = .output → isCompress s.lat.op = false → s.dec.res ≠ []

/-- The invariant is its part for the running command, the stores' form, the report, and an odd SINC. -/
theorem State.inv_iff {s : State} :
    s.Inv ↔ s.Canonical ∧ s.Reported ∧ s.scr.sinc.getLsbD 0 = true ∧ s.Sound := by
  constructor
  · rintro ⟨canonical, reported, widths, increment, latch, packer, encoder, scramble, unscramble, reader, decoder, result⟩
    exact ⟨canonical, reported, increment, widths, latch, packer, encoder, scramble, unscramble, reader, decoder, result⟩
  · rintro ⟨canonical, reported, increment, widths, latch, packer, encoder, scramble, unscramble, reader, decoder, result⟩
    exact ⟨canonical, reported, widths, increment, latch, packer, encoder, scramble, unscramble, reader, decoder, result⟩

/-- Where no command runs only the widths matter. -/
theorem State.Sound.of_stopped {s : State} (stopped : s.phase.isRunning = false) (widths : s.codec.WidthsSound) :
    s.Sound where
  widths := widths
  latch h := absurd (h.symm.trans stopped) (by decide)
  packer h := absurd (h.symm.trans stopped) (by decide)
  encoder h := absurd (h ▸ stopped) (by decide)
  scramble h := absurd (h ▸ stopped) (by decide)
  unscramble h := absurd (h ▸ stopped) (by decide)
  reader h := by obtain h | h := h <;> exact absurd (h ▸ stopped) (by decide)
  decoder h := by obtain h | h := h <;> exact absurd (h ▸ stopped) (by decide)
  result h := absurd (h ▸ stopped) (by decide)

/-- A step's outcome is a sound state, or the refusal of an input unit never written. -/
def State.Proceeds (s : State) (o : Host.Outcome State Fault Refusal) : Prop :=
  (∃ t, o = .next t ∧ t.Sound) ∨ ∃ i < s.lat.nL, o = .refused (.unwrittenInput i) ∧ s.inBuf.read i = none

theorem State.proceeds_of_next {s t : State} {o : Host.Outcome State Fault Refusal} (h : o = .next t) (sound : t.Sound) :
    s.Proceeds o := .inl ⟨t, h, sound⟩

/-- An operation that raises ends in a stopped state. -/
theorem Growing.proceeds_of_raise {α : Type} {s u : State} {x : Eff State α} {c : Cause} (grows : Growing s x)
    (widths : s.codec.WidthsSound) (raised : x = .raise c u) : s.Proceeds x.outcome :=
  State.proceeds_of_next (t := u.raise c) (by rw [raised]; rfl)
    (.of_stopped rfl ((grows.raise c u raised).codec.widths widths))

/-! ### The encoder's dictionary (R15, R109) -/

/-- The dictionary's own facts: codes from 3 in order of insertion, no key twice, closed under units and truncation. -/
structure DictSound (d : List (Str × Nat)) (n : Nat) : Prop where
  size   : n = d.length + 3
  codes  : d.map Prod.snd = List.range' 3 d.length
  nodup  : (d.map Prod.fst).Nodup
  units  : ∀ t ∈ d.map Prod.fst, ∀ u ∈ t, [u] ∈ d.map Prod.fst
  closed : ∀ t ∈ d.map Prod.fst, t ≠ [] ∧ (2 ≤ t.length → t.dropLast ∈ d.map Prod.fst)

theorem State.EncoderSound.dictSound {s : State} (h : s.EncoderSound) : DictSound s.codec.dict s.codec.dictSize :=
  ⟨h.size, h.codes, h.nodup, h.units, h.closed⟩

/-- One more key, whose units are keys or itself, and whose truncation is a key. -/
theorem DictSound.insert {d : List (Str × Nat)} {n : Nat} {s : Str} (h : DictSound d n) (new : s ∉ d.map Prod.fst)
    (nonempty : s ≠ []) (units : ∀ u ∈ s, [u] ∈ d.map Prod.fst ∨ [u] = s)
    (closed : 2 ≤ s.length → s.dropLast ∈ d.map Prod.fst) : DictSound (d ++ [(s, n)]) (n + 1) := by
  have keys : (d ++ [(s, n)]).map Prod.fst = d.map Prod.fst ++ [s] := by simp
  constructor
  · rw [h.size, List.length_append, List.length_singleton]
  · rw [List.map_append, h.codes, List.length_append, List.length_singleton, List.range'_concat, h.size]
    simp [Nat.add_comm]
  · rw [keys]
    exact h.nodup.append (List.nodup_singleton s) (by simpa using new)
  · intro t member u hu
    rw [keys, List.mem_append, List.mem_singleton] at member ⊢
    obtain old | rfl := member
    · exact .inl (h.units t old u hu)
    · exact units u hu
  · intro t member
    rw [keys, List.mem_append, List.mem_singleton] at member
    obtain old | rfl := member
    · exact ⟨(h.closed t old).1, fun long => by rw [keys]; exact List.mem_append_left _ ((h.closed t old).2 long)⟩
    · exact ⟨nonempty, fun long => by rw [keys]; exact List.mem_append_left _ (closed long)⟩

/-- After part 1 of ENC_STEP the dictionary is sound and the unit a key. -/
theorem DictSound.register {c : Codec} (h : DictSound c.dict c.dictSize) (u : CodeUnit) :
    DictSound (c.register u).dict (c.register u).dictSize ∧ [u] ∈ (c.register u).dict.map Prod.fst := by
  rw [Codec.register_dict, Codec.register_dictSize]
  by_cases new : dictLookup c.dict [u] = none
  · rw [Codec.unitEntry, if_pos new]
    exact ⟨h.insert (dictLookup_eq_none.1 new) (List.cons_ne_nil _ _) (by simp) (by simp), by simp⟩
  · rw [Codec.unitEntry, if_neg new, List.append_nil]
    exact ⟨h, by_contra fun absent => new (dictLookup_eq_none.2 absent)⟩

/-- The keys after a mismatch. -/
theorem DictSound.mismatch {c : Codec} (h : DictSound c.dict c.dictSize) {u : CodeUnit}
    (mismatch : dictLookup c.dict (c.w ++ [u]) = none) (key : c.w ∈ c.dict.map Prod.fst) :
    DictSound (c.dict ++ c.mismatchEntries u) (c.dictSize + (c.mismatchEntries u).length) := by
  obtain ⟨registered, unit⟩ := h.register u
  have started : c.w ≠ [] := (h.closed _ key).1
  have old : ∀ t ∈ c.dict.map Prod.fst, t ∈ (c.register u).dict.map Prod.fst := by
    intro t member
    rw [Codec.register_dict, List.map_append]
    exact List.mem_append_left _ member
  have new : c.w ++ [u] ∉ (c.register u).dict.map Prod.fst := by
    rw [← dictLookup_eq_none, Codec.register_dict, dictLookup_append, mismatch, Codec.unitEntry]
    split <;> simp [dictLookup, started]
  have entries := registered.insert new (by simp)
    (fun v member => by
      rw [List.mem_append, List.mem_singleton] at member
      obtain inW | rfl := member
      · exact .inl (old _ (h.units _ key v inW))
      · exact .inl unit)
    (fun _ => by rw [List.dropLast_concat]; exact old _ key)
  rw [Codec.register_dict, Codec.register_dictSize, List.append_assoc, Nat.add_assoc] at entries
  rw [Codec.length_mismatchEntries]
  exact entries

/-- While W can be extended nothing is pending: a pending W is a unit with no longer entry (R106, R110). -/
theorem State.EncoderSound.pend_eq_nil {s : State} (h : s.EncoderSound) {u : CodeUnit}
    (matched : s.codec.w ++ [u] ∈ s.codec.dict.map Prod.fst) :
    s.codec.pend = [] := by
  refine List.eq_nil_iff_forall_not_mem.2 fun v member => ?_
  have single := h.pending v member
  rw [single] at matched
  exact h.emitted _ matched (by simp) v member (by simp)

/-- Part 2 of ENC_STEP keeps the encoder's facts. -/
theorem State.EncoderSound.extended {s : State} (h : s.EncoderSound) {u : CodeUnit} (more : s.codec.idx < s.lat.nL)
    (matched : dictLookup (s.codec.register u).dict (s.codec.w ++ [u]) ≠ none) : State.EncoderSound { s with
      codec := { s.codec.register u with w := s.codec.w ++ [u], idx := s.codec.idx + 1 } } := by
  obtain ⟨dict, unit⟩ := h.dictSound.register u
  have key : s.codec.w ++ [u] ∈ (s.codec.register u).dict.map Prod.fst :=
    by_contra fun absent => matched (dictLookup_eq_none.2 absent)
  have pends : ∀ v ∈ (s.codec.register u).pend, s.codec.w ++ [u] = [v] ∧
      ∀ t ∈ (s.codec.register u).dict.map Prod.fst, 2 ≤ t.length → t.head? ≠ some v := by
    intro v member
    by_cases new : dictLookup s.codec.dict [u] = none
    · have absent := dictLookup_eq_none.1 new
      rw [Codec.register_dict, Codec.unitEntry, if_pos new, List.map_append, List.mem_append] at key
      have empty : s.codec.w = [] := by
        obtain old | same := key
        · exact absurd (h.units _ old u (by simp)) absent
        · simpa using same
      obtain old | ⟨rfl, -⟩ := (Codec.mem_register_pend ..).1 member
      · rw [h.pending v old] at empty
        cases empty
      · refine ⟨by rw [empty]; rfl, fun t key long first => absent ?_⟩
        rw [Codec.register_dict, Codec.unitEntry, if_pos new, List.map_append, List.mem_append] at key
        obtain old | same := key
        · exact h.units t old v (List.mem_of_mem_head? first)
        · rw [List.mem_singleton.1 same] at long
          simp at long
    · rw [Codec.register_of_known _ _ new] at member key
      have none := h.pend_eq_nil key
      rw [none] at member
      cases member
  refine ⟨more, dict.size, dict.codes, dict.nodup, .inr ⟨Nat.succ_pos _, key⟩, dict.units, dict.closed,
    fun v member => (pends v member).1, fun t key long v member => (pends v member).2 t key long, h.skey⟩

/-- A mismatch keeps the encoder's facts: what is pending then is the new unit, which no other key begins with. -/
theorem State.EncoderSound.restarted {s : State} (h : s.EncoderSound) {u : CodeUnit} {tok : Instr} {c : Codec}
    (more : s.codec.idx < s.lat.nL) (mismatch : dictLookup s.codec.dict (s.codec.w ++ [u]) = none)
    (key : s.codec.w ∈ s.codec.dict.map Prod.fst) (restarted : s.codec.Restarted tok u c) (q : Packer) :
    State.EncoderSound { s with codec := c, pack := q } := by
  obtain ⟨pend, rest⟩ := restarted
  have dict := h.dictSound.mismatch mismatch key
  have unit : [u] ∈ (s.codec.dict ++ s.codec.mismatchEntries u).map Prod.fst := by
    have registered := (h.dictSound.register u).2
    rw [Codec.register_dict] at registered
    rw [Codec.mismatchEntries, ← List.append_assoc, List.map_append]
    exact List.mem_append_left _ registered
  have pends : ∀ v ∈ c.pend, v = u ∧ [u] ∉ s.codec.dict.map Prod.fst := by
    intro v member
    obtain ⟨old, other⟩ | ⟨same, new⟩ := (pend v).1 member
    · exact absurd (h.pending v old) other
    · exact ⟨same, dictLookup_eq_none.1 new⟩
  have first : ∀ t ∈ (s.codec.dict ++ s.codec.mismatchEntries u).map Prod.fst, 2 ≤ t.length → t.head? = some u →
      [u] ∈ s.codec.dict.map Prod.fst := by
    intro t member long head
    rw [List.map_append, List.mem_append, Codec.mismatchEntries, List.map_append, List.mem_append] at member
    obtain old | new | same := member
    · exact h.units t old u (List.mem_of_mem_head? head)
    · rw [Codec.unitEntry] at new
      split at new
      · rw [List.mem_singleton.1 new] at long
        simp at long
      · cases new
    · have wc : t = s.codec.w ++ [u] := List.mem_singleton.1 same
      rw [wc, List.head?_append_of_ne_nil _ (h.closed _ key).1] at head
      exact h.units _ key u (List.mem_of_mem_head? head)
  rw [rest]
  refine ⟨more, dict.size, dict.codes, dict.nodup, .inr ⟨Nat.succ_pos _, unit⟩, dict.units, dict.closed,
    fun v member => ?_, fun t key long v member head => ?_, h.skey⟩
  · rw [(pends v member).1]
  · obtain ⟨rfl, new⟩ := pends v member
    exact new (first t key long head)

/-! ### The phase ENCODE (R100) -/

theorem State.EncoderSound.key {s : State} (h : s.EncoderSound) (started : s.codec.w ≠ []) :
    s.codec.w ∈ s.codec.dict.map Prod.fst := by
  obtain ⟨-, empty⟩ | ⟨-, key⟩ := h.current
  · exact absurd empty started
  · exact key

/-- What ENC_STEP on a written unit does: it raises CAPACITY, or extends the match, or emits W's token and starts again. -/
theorem State.EncoderSound.encStep_cases {s : State} (h : s.EncoderSound) (sound : s.pack.Sound (bpcOf s.adapter))
    {u : CodeUnit} (input : s.inBuf.read s.codec.idx = some u) :
    ((s.cfg.outMax ≠ none ∨ s.cfg.dictMax ≠ none) ∧ ∃ t, s.encStep = .raise .capacity t) ∨
      (dictLookup (s.codec.register u).dict (s.codec.w ++ [u]) ≠ none ∧ s.encStep = .ok () { s with
        codec := { s.codec.register u with w := s.codec.w ++ [u], idx := s.codec.idx + 1 } }) ∨
      (dictLookup s.codec.dict (s.codec.w ++ [u]) = none ∧ s.codec.w ∈ s.codec.dict.map Prod.fst ∧
        ∃ tok c q, s.Emits tok ∧ s.codec.Restarted tok u c ∧
          s.pack.Packed (bpcOf s.adapter) (encode (.later s.codec.numBits) tok) q ∧
          s.encStep = .ok () { s with codec := c, pack := q }) := by
  have bounded : ∀ {n : Nat} {cap : Option Nat}, exceeds n cap = true → cap ≠ none := by
    rintro n cap beyond rfl
    cases beyond
  by_cases room : dictLookup s.codec.dict [u] = none → exceeds (s.codec.dictSize + 1) s.cfg.dictMax = false
  swap
  · obtain ⟨new, full⟩ := Classical.not_imp.1 room
    rw [Bool.not_eq_false] at full
    exact .inl ⟨.inr (bounded full), State.encStep_of_full input new full⟩
  by_cases matched : dictLookup (s.codec.register u).dict (s.codec.w ++ [u]) = none
  swap
  · exact .inr (.inl ⟨matched, State.encStep_of_match input room matched⟩)
  have mismatch : dictLookup s.codec.dict (s.codec.w ++ [u]) = none := by
    rw [Codec.register_dict, dictLookup_append, Option.or_eq_none_iff] at matched
    exact matched.1
  have started : s.codec.w ≠ [] := by
    intro empty
    rw [empty] at matched
    exact dictLookup_eq_none.1 matched (h.dictSound.register u).2
  have key := h.key started
  obtain ⟨tok, emits⟩ := State.exists_emits fun absent => dictLookup_eq_none.1 absent key
  obtain ⟨-, -, c, q, restarted, packed, done⟩ | ⟨beyond, raised⟩ :=
    State.encStep_of_mismatch input mismatch started emits sound
  · exact .inr (.inr ⟨mismatch, key, tok, c, q, emits, restarted, packed, done⟩)
  · refine .inl ⟨beyond.imp (fun overflow => ?_) bounded, raised⟩
    exact bounded ((Packer.overflows_iff (bpcOf_range _).1 _ _).1 overflow).2

/-- At the end of the pass W has a token. -/
theorem State.EncoderSound.exists_emits {s : State} (h : s.EncoderSound) (input : 1 ≤ s.lat.nL)
    (all : s.lat.nL ≤ s.codec.idx) : ∃ tok, s.Emits tok := by
  obtain ⟨zero, -⟩ | ⟨-, key⟩ := h.current
  · omega
  · exact State.exists_emits fun absent => dictLookup_eq_none.1 absent key

theorem State.PackerSound.sound {s : State} (h : s.PackerSound) (encode : s.phase = .encode) :
    s.pack.Sound (bpcOf s.adapter) := ⟨h.ppos encode, h.pval encode⟩

/-- The phase stays ENCODE. -/
theorem State.Sound.encoding {s : State} (h : s.Sound) (encode : s.phase = .encode) {c : Codec} {q : Packer}
    (widths : c.WidthsSound) (encoder : State.EncoderSound { s with codec := c, pack := q })
    (sound : q.Sound (bpcOf s.adapter)) (range : ∀ r ∈ q.sym, r.toNat < 2 ^ bpcOf s.adapter) :
    State.Sound { s with codec := c, pack := q } := by
  have running : s.phase.isRunning = true := by rw [encode]; rfl
  have latch := h.latch running
  exact
    { widths := widths
      latch := fun _ => ⟨latch.input, latch.scr, latch.plain, latch.encodes, latch.decodes, latch.keyed⟩
      packer := fun _ => ⟨range, fun _ => sound.1, fun _ => sound.2⟩
      encoder := fun _ => encoder
      scramble := fun other => nomatch encode.symm.trans other
      unscramble := fun other => nomatch encode.symm.trans other
      reader := fun other => by obtain other | other := other <;> cases encode.symm.trans other
      decoder := fun other => by obtain other | other := other <;> cases encode.symm.trans other
      result := fun other => nomatch encode.symm.trans other }

/-- The same command in a later phase of its operation. -/
theorem State.LatchSound.later {s t : State} (h : s.LatchSound) (lat : t.lat = s.lat)
    (encodes : t.phase = .encode ∨ t.phase = .scramble → isCompress s.lat.op = true)
    (decodes : t.phase = .unscramble ∨ t.phase = .decodeFirst ∨ t.phase = .decode → isCompress s.lat.op = false)
    (keyed : t.phase = .scramble ∨ t.phase = .unscramble → s.lat.scr = true) : t.LatchSound where
  input := lat ▸ h.input
  scr := lat ▸ h.scr
  plain := lat ▸ h.plain
  encodes := lat ▸ encodes
  decodes := lat ▸ decodes
  keyed := lat ▸ keyed

/-- A compress command past ENCODE: a key's pass to come, or OUTPUT. -/
theorem State.Sound.compressed {s t : State} (h : s.LatchSound) (lat : t.lat = s.lat) (compress : isCompress s.lat.op = true)
    (phase : (t.phase = .scramble ∧ s.lat.scr = true ∧ t.scr.skey < s.lat.kL) ∨ t.phase = .output)
    (widths : t.codec.WidthsSound) (range : ∀ r ∈ t.pack.sym, r.toNat < 2 ^ bpcOf s.adapter) : t.Sound := by
  have adapter : t.adapter = s.adapter := by simp only [State.adapter, lat]
  obtain ⟨scramble, scr, skey⟩ | output := phase
  · exact
      { widths := widths
        latch := fun _ => h.later lat (fun _ => compress) (by simp [scramble]) (fun _ => scr)
        packer := fun _ => ⟨adapter ▸ range, by simp [scramble], by simp [scramble]⟩
        encoder := by simp [scramble]
        scramble := fun _ => lat ▸ skey
        unscramble := by simp [scramble]
        reader := by simp [scramble]
        decoder := by simp [scramble]
        result := by simp [scramble] }
  · exact
      { widths := widths
        latch := fun _ => h.later lat (by simp [output]) (by simp [output]) (by simp [output])
        packer := fun _ => ⟨adapter ▸ range, by simp [output], by simp [output]⟩
        encoder := by simp [output]
        scramble := by simp [output]
        unscramble := by simp [output]
        reader := by simp [output]
        decoder := by simp [output]
        result := fun _ decompress => absurd (decompress.symm.trans (lat ▸ compress)) (by decide) }

/-- Every step of ENCODE proceeds. -/
theorem State.Sound.encode_proceeds {s : State} (h : s.Sound) (encode : s.phase = .encode) :
    s.Proceeds (engineStep s) := by
  have running : s.phase.isRunning = true := by rw [encode]; rfl
  have encoder := h.encoder encode
  have packer := h.packer running
  have latch := h.latch running
  have sound := packer.sound encode
  have widths : ∀ {t : State}, engineStep s = .next t → t.codec.WidthsSound := fun steps =>
    (engineStep_grows steps).codec.widths h.widths
  by_cases more : s.codec.idx < s.lat.nL
  · have steps := engineStep_of_encStep encode more
    cases read : s.inBuf.read s.codec.idx with
    | none =>
      rw [State.encStep_of_unwritten read] at steps
      exact .inr ⟨_, more, steps, read⟩
    | some u =>
      obtain ⟨-, t, raised⟩ | ⟨matched, done⟩ | ⟨mismatch, key, tok, c, q, -, restarted, packed, done⟩ :=
        encoder.encStep_cases sound read
      · rw [steps]
        exact s.encStep_growing.proceeds_of_raise h.widths raised
      · rw [done] at steps
        exact State.proceeds_of_next steps
          (h.encoding encode (q := s.pack) (widths steps) (encoder.extended more matched) sound packer.sym)
      · rw [done] at steps
        exact State.proceeds_of_next steps
          (h.encoding encode (widths steps) (encoder.restarted more mismatch key restarted q) packed.sound
            (packed.range packer.sym))
  · have steps := engineStep_of_encFinish encode (Nat.not_lt.1 more)
    obtain ⟨tok, emits⟩ := encoder.exists_emits latch.input (Nat.not_lt.1 more)
    obtain ⟨-, c, p, r, -, packed, bound, -, done⟩ | ⟨-, t, raised⟩ := State.encFinish_of_emits emits sound
    swap
    · rw [steps]
      exact s.encFinish_growing.proceeds_of_raise h.widths raised
    rw [done] at steps
    have compress : isCompress s.lat.op = true := latch.encodes (.inl encode)
    have range : ∀ x ∈ p.sym ++ [r], x.toNat < 2 ^ bpcOf s.adapter := by
      intro x member
      rw [List.mem_append, List.mem_singleton] at member
      obtain old | rfl := member
      · exact packed.range packer.sym x old
      · exact bound
    refine State.proceeds_of_next steps (.compressed latch rfl compress ?_ (widths steps) range)
    by_cases scr : s.lat.scr = true
    · have keys := latch.scr
      rw [scr, eq_comm, scrAtStart_eq_true] at keys
      refine .inl ⟨if_pos scr, scr, ?_⟩
      show s.scr.skey < s.lat.kL
      rw [encoder.skey]
      exact keys.2
    · exact .inr (if_neg scr)

/-- Every pass of SCRAMBLE proceeds. -/
theorem State.Sound.scramble_proceeds {s : State} (h : s.Sound) (scramble : s.phase = .scramble) :
    s.Proceeds (engineStep s) := by
  have running : s.phase.isRunning = true := by rw [scramble]; rfl
  have latch := h.latch running
  have scr := latch.keyed (.inl scramble)
  have steps := engineStep_of_scramble scramble
  refine State.proceeds_of_next steps (.compressed latch rfl (latch.encodes (.inr scramble)) ?_
    ((engineStep_grows steps).codec.widths h.widths) ?_)
  · by_cases last : s.scr.skey + 1 < s.lat.kL
    · exact .inl ⟨if_pos last, scr, last⟩
    · exact .inr (if_neg last)
  · have bound := (h.packer running).sym
    rw [State.adapter_of_scr scr] at bound ⊢
    exact (scramblePass_keeps _ _ s.scr s.pack.sym).2.2 bound

/-- OUTPUT proceeds to the end of the command (R186). -/
theorem State.Sound.output_proceeds {s : State} (h : s.Sound) (output : s.phase = .output) :
    s.Proceeds (engineStep s) := by
  rw [engineStep_of_output output]
  obtain ⟨-, raised⟩ | ⟨-, done⟩ := s.outputMove_cases
  · exact State.proceeds_of_next (congrArg Eff.outcome raised) (.of_stopped rfl h.widths)
  · exact State.proceeds_of_next (congrArg Eff.outcome done) (.of_stopped rfl h.widths)

end Sys2Proof.Machine
end

section
namespace Sys2Proof.Machine

/-! ### The phase UNSCRAMBLE (R184) -/

theorem loadInput_eq_unwritten {a : Adapter} {m : Memory} {i j : Nat} (h : loadInput a m i = .unwritten j) :
    j = i ∧ m.read i = none := by
  unfold loadInput at h
  split at h
  · rename_i unwritten
    exact ⟨(Load.unwritten.inj h).symm, unwritten⟩
  · split at h <;> cases h

theorem loadInput_ne_missing {a : Adapter} {m : Memory} {i j : Nat} : loadInput a m i ≠ .missing j := by
  unfold loadInput
  split
  · simp
  · split <;> simp

theorem loadInput_eq_symbol {a : Adapter} {m : Memory} {i : Nat} {r : Symbol} (h : loadInput a m i = .symbol r) :
    ∃ u, m.read i = some u ∧ unmapUnit a u = some r := by
  unfold loadInput at h
  split at h
  · cases h
  · rename_i u written
    split at h
    · cases h
    · rename_i x unmaps
      cases h
      exact ⟨u, written, unmaps⟩

/-- A decompress command on the keyed path, in UNSCRAMBLE or at the head of the tokens. -/
theorem State.Sound.unscrambling {s t : State} (h : s.LatchSound) (lat : t.lat = s.lat)
    (decompress : isCompress s.lat.op = false) (scr : s.lat.scr = true) (unscramble : t.phase = .unscramble)
    (widths : t.codec.WidthsSound) (range : ∀ r ∈ t.pack.sym, r.toNat < 2 ^ bpcOf s.adapter)
    (sound : t.UnscrambleSound) : t.Sound :=
  have adapter : t.adapter = s.adapter := by simp only [State.adapter, lat]
  { widths := widths
    latch := fun _ => h.later lat (by simp [unscramble]) (fun _ => decompress) (fun _ => scr)
    packer := fun _ => ⟨adapter ▸ range, by simp [unscramble], by simp [unscramble]⟩
    encoder := by simp [unscramble]
    scramble := by simp [unscramble]
    unscramble := fun _ => sound
    reader := by simp [unscramble]
    decoder := by simp [unscramble]
    result := by simp [unscramble] }

/-- A decompress command at its tokens. -/
theorem State.Sound.decoding {s t : State} (h : s.LatchSound) (lat : t.lat = s.lat)
    (decompress : isCompress s.lat.op = false) (phase : t.phase = .decodeFirst ∨ t.phase = .decode)
    (widths : t.codec.WidthsSound) (range : ∀ r ∈ t.pack.sym, r.toNat < 2 ^ bpcOf s.adapter)
    (reader : t.ReaderSound) (decoder : t.DecoderSound) : t.Sound := by
  have adapter : t.adapter = s.adapter := by simp only [State.adapter, lat]
  exact
    { widths := widths
      latch := fun _ => h.later lat (by obtain p | p := phase <;> simp [p]) (fun _ => decompress)
        (by obtain p | p := phase <;> simp [p])
      packer := fun _ => ⟨adapter ▸ range, by obtain p | p := phase <;> simp [p], by obtain p | p := phase <;> simp [p]⟩
      encoder := by obtain p | p := phase <;> simp [p]
      scramble := by obtain p | p := phase <;> simp [p]
      unscramble := by obtain p | p := phase <;> simp [p]
      reader := fun _ => reader
      decoder := fun _ => decoder
      result := by obtain p | p := phase <;> simp [p] }

/-- A converted unit keeps UNSCRAMBLE's facts; after the last one the walk begins at the last key. -/
theorem State.UnscrambleSound.converted {s : State} (h : s.UnscrambleSound) (short : s.pack.sym.length < s.lat.nL)
    (keys : 1 ≤ s.lat.kL) (r : Symbol) : (s.converted r).UnscrambleSound := by
  have ridx := h.convert short
  unfold State.converted
  split
  · rename_i more
    exact ⟨by simpa using more.le, fun _ => by simp [ridx], fun full => by simp at full; omega, h.mask, h.decoder⟩
  · refine ⟨by simpa using short, fun more => by simp at more; omega, fun _ => ⟨rfl, ?_⟩, h.mask, h.decoder⟩
    show s.lat.kL - 1 < s.lat.kL
    omega

theorem State.converted_lat (s : State) (r : Symbol) : (s.converted r).lat = s.lat := by
  unfold State.converted
  split <;> rfl

theorem State.converted_phase (s : State) (r : Symbol) : (s.converted r).phase = s.phase := by
  unfold State.converted
  split <;> rfl

/-- Every step of UNSCRAMBLE proceeds. -/
theorem State.Sound.unscramble_proceeds {s : State} (h : s.Sound) (unscramble : s.phase = .unscramble) :
    s.Proceeds (engineStep s) := by
  have running : s.phase.isRunning = true := by rw [unscramble]; rfl
  have latch := h.latch running
  have scr := latch.keyed (.inr unscramble)
  have decompress := latch.decodes (.inl unscramble)
  have keys : 1 ≤ s.lat.kL := (scrAtStart_eq_true.1 (latch.scr.symm.trans scr)).2
  have sound := h.unscramble unscramble
  have range := (h.packer running).sym
  have steps := engineStep_of_unscramble unscramble
  by_cases short : s.pack.sym.length < s.lat.nL
  · rw [State.unscrambleMove_of_short short] at steps
    have ridx := sound.convert short
    cases load : loadInput s.adapter s.inBuf s.read.ridx with
    | unwritten i =>
      obtain ⟨rfl, unwritten⟩ := loadInput_eq_unwritten load
      rw [State.convertUnit_eq, load] at steps
      exact .inr ⟨_, by omega, steps, unwritten⟩
    | missing i => exact absurd load loadInput_ne_missing
    | badSymbol =>
      rw [State.convertUnit_eq, load] at steps
      exact State.proceeds_of_next (t := s.raise .badSymbol) steps (.of_stopped rfl h.widths)
    | symbol r =>
      rw [State.convertUnit_eq, load] at steps
      obtain ⟨u, -, unmaps⟩ := loadInput_eq_symbol load
      refine State.proceeds_of_next (t := s.converted r) steps (.unscrambling latch (s.converted_lat r) decompress scr
        ((s.converted_phase r).trans unscramble) ((s.converted_grows r).codec.widths h.widths) (fun x member => ?_)
        (sound.converted short keys r))
      rw [State.converted_pack, List.mem_append, List.mem_singleton] at member
      obtain old | rfl := member
      · exact range x old
      · exact ((unmapInvertsMap s.adapter u x).1 unmaps).1
  · rw [State.unscrambleMove_of_full (Nat.not_lt.1 short)] at steps
    have full : s.pack.sym.length = s.lat.nL := Nat.le_antisymm sound.short (Nat.not_lt.1 short)
    obtain ⟨ridx, skey⟩ := sound.walk full
    obtain ⟨size, dictSize, numBits, enlargeIn⟩ := sound.decoder
    obtain ⟨-, length, bound⟩ := unscramblePass_keeps s.cfg.mix (s.keys.read s.scr.skey) s.scr s.pack.sym
    have kept : s.unscrambleKey.pack.sym.length = s.lat.nL := length.trans full
    have range : ∀ r ∈ s.unscrambleKey.pack.sym, r.toNat < 2 ^ bpcOf s.adapter := by
      rw [State.adapter_of_scr scr] at range ⊢
      exact bound range
    by_cases last : s.scr.skey = 0
    · refine State.proceeds_of_next (t := s.unscrambleKey) steps (.decoding latch rfl decompress (.inl (if_pos last))
        h.widths range ⟨?_, .inl sound.mask, fun _ => kept⟩
        ⟨size.trans dictSize.symm, fun k e three listed => ?_, fun _ => ⟨dictSize, numBits, enlargeIn⟩, fun later => ?_⟩)
      · show s.read.ridx ≤ s.lat.nL
        omega
      · have below := (List.getElem?_eq_some_iff.1 listed).1
        rw [State.unscrambleKey_dec] at below
        omega
      · rw [State.unscrambleKey_phase, if_pos last] at later
        cases later
    · refine State.proceeds_of_next (t := s.unscrambleKey) steps (.unscrambling latch rfl decompress scr (if_neg last)
        h.widths range ⟨kept.le, fun short => absurd kept (Nat.ne_of_lt short), fun _ => ⟨ridx, ?_⟩, sound.mask,
          sound.decoder⟩)
      show s.scr.skey - 1 < s.lat.kL
      omega

/-! ### The decoder's phases (R121, R122) -/

theorem State.nextSym_of_plain {s : State} (plain : s.lat.scr = false) (i : Nat) :
    s.nextSym i = loadInput s.adapter s.inBuf i := by
  simp [State.nextSym, plain]

theorem State.nextSym_of_scr {s : State} (scr : s.lat.scr = true) {i : Nat} {r : Symbol} (h : s.pack.sym[i]? = some r) :
    s.nextSym i = .symbol r := by
  simp [State.nextSym, scr, h]

/-- Inside the input a load that gives no symbol is a bad symbol or a unit never written (R142, R239). -/
theorem State.ReaderSound.nextSym_of_inside {s : State} (reader : s.ReaderSound) {i : Nat} (inside : i < s.lat.nL) :
    (∀ j, s.nextSym i ≠ .missing j) ∧ ∀ j, s.nextSym i = .unwritten j → j = i ∧ s.inBuf.read i = none := by
  cases scr : s.lat.scr with
  | true =>
    have held : i < s.pack.sym.length := (reader.sym scr).symm ▸ inside
    simp [State.nextSym_of_scr scr (List.getElem?_eq_getElem held)]
  | false =>
    rw [State.nextSym_of_plain scr]
    exact ⟨fun j => loadInput_ne_missing, fun j => loadInput_eq_unwritten⟩

/-- A fetch that stops raises, or is refused for a unit never written. -/
theorem State.StopsAt.proceeds {s : State} {q : Reader} {x : Eff State Instr} (stops : s.StopsAt q x)
    (reader : s.ReaderSound) (grows : Growing s x) (widths : s.codec.WidthsSound) : s.Proceeds x.move.run := by
  have raise : ∀ {c : Cause} {u : State}, x = .raise c u → s.Proceeds x.move.run := fun {c u} raised =>
    State.proceeds_of_next (t := u.raise c) (by rw [raised]; rfl)
      (.of_stopped rfl ((grows.raise c u raised).codec.widths widths))
  obtain ⟨-, u, raised, -⟩ | ⟨inside, ⟨-, u, raised, -⟩ | ⟨i, load, refused⟩ | ⟨i, load, -⟩⟩ := stops
  · exact raise raised
  · exact raise raised
  · obtain ⟨rfl, unwritten⟩ := (reader.nextSym_of_inside inside).2 i load
    exact .inr ⟨_, inside, by rw [refused]; rfl, unwritten⟩
  · exact absurd load ((reader.nextSym_of_inside inside).1 i)

theorem decode_first_error {bits : List Bool} {e : DecodeError} (h : decode .first bits = .error e) :
    e = .truncated ∨ e = .badFirst := by
  simp only [decode, decodeFirst] at h
  split at h
  · cases h
    exact .inl rfl
  · split at h
    · cases h
      exact .inr rfl
    · split at h <;> cases h
      exact .inl rfl

theorem decode_later_error {n : Nat} {bits : List Bool} {e : DecodeError} (h : decode (.later n) bits = .error e) :
    e = .truncated := by
  simp only [decode, decodeLater] at h
  split at h
  · cases h
    rfl
  · split at h
    · cases h
    · split at h <;> cases h
      rfl

theorem State.ReaderSound.legal {s : State} (h : s.ReaderSound) : s.read.Legal (bpcOf s.adapter) s.lat.nL :=
  State.read_legal h.mask h.ridx

/-- The reader moved legally, and all else the reader's facts speak of is as it was. -/
theorem State.ReaderSound.moved {s t : State} (h : s.ReaderSound) (lat : t.lat = s.lat) (pack : t.pack = s.pack)
    (legal : t.read.Legal (bpcOf s.adapter) s.lat.nL) : t.ReaderSound where
  ridx := lat ▸ legal.1
  mask := by
    have mask := legal.2
    rwa [show s.adapter = t.adapter by simp only [State.adapter, lat]] at mask
  sym := by rw [lat, pack]; exact h.sym

/-- The state after a first literal (R121). -/
def State.afterFirst (s : State) (u : CodeUnit) : State :=
  { s with
    codec := { s.codec with w := [u], dictSize := s.codec.dictSize + 1, numBits := s.codec.tick.tick.numBits,
                            enlargeIn := s.codec.tick.tick.enlargeIn }
    dec := { s.dec with dlist := s.dec.dlist ++ [[u]], res := [u] }
    phase := .decode }

/-- The state after a later literal (R123, R124, R127). -/
def State.afterLiteral (s : State) (u : CodeUnit) : State :=
  { s with
    codec := { s.codec with w := [u], dictSize := s.codec.dictSize + 2, numBits := s.codec.tick.tick.numBits,
                            enlargeIn := s.codec.tick.tick.enlargeIn }
    dec := { dlist := s.dec.dlist ++ [[u]] ++ [s.codec.w ++ [u]], cc := s.codec.dictSize, entry := [u],
             res := s.dec.res ++ [u] } }

/-- The state after a REF of the string `e`, its first unit `x` (R126, R127). -/
def State.afterReference (s : State) (e : Str) (x : CodeUnit) : State :=
  { s with
    codec := { s.codec.tick with w := e, dictSize := s.codec.dictSize + 1 }
    dec := { s.dec with dlist := s.dec.dlist ++ [s.codec.w ++ [x]], entry := e, res := s.dec.res ++ e } }

theorem State.firstLiteral_cases (s : State) (u : CodeUnit) : s.firstLiteral u = .ok () (s.afterFirst u) ∨
    ((s.cfg.outMax ≠ none ∨ s.cfg.dictMax ≠ none) ∧ ∃ t, s.firstLiteral u = .raise .capacity t) := by
  by_cases beyond : exceeds (s.codec.dictSize + 1) s.cfg.dictMax = true ∨ exceeds 1 s.cfg.outMax = true
  · refine .inr ⟨?_, State.firstLiteral_of_beyond u beyond⟩
    obtain h | h := beyond
    · exact .inr fun none => by rw [none] at h; cases h
    · exact .inl fun none => by rw [none] at h; cases h
  · obtain ⟨room, fits⟩ := not_or.1 beyond
    exact .inl (State.firstLiteral_of_within (Bool.not_eq_true _ ▸ room) (Bool.not_eq_true _ ▸ fits))

theorem State.literal_cases (s : State) (u : CodeUnit) : s.literal u = .ok () (s.afterLiteral u) ∨
    ((s.cfg.outMax ≠ none ∨ s.cfg.dictMax ≠ none) ∧ ∃ t, s.literal u = .raise .capacity t) := by
  by_cases beyond : exceeds (s.codec.dictSize + 2) s.cfg.dictMax = true ∨
      exceeds (s.dec.res.length + 1) s.cfg.outMax = true
  · refine .inr ⟨?_, State.literal_of_beyond u beyond⟩
    obtain h | h := beyond
    · exact .inr fun none => by rw [none] at h; cases h
    · exact .inl fun none => by rw [none] at h; cases h
  · obtain ⟨room, fits⟩ := not_or.1 beyond
    exact .inl (State.literal_of_within (Bool.not_eq_true _ ▸ room) (Bool.not_eq_true _ ▸ fits))

/-- A code names the string `e`: an entry, or the one about to be made (R126). -/
def State.Names (s : State) (k : Nat) (e : Str) : Prop :=
  (k < s.codec.dictSize ∧ s.dec.dlist[k]? = some e) ∨
    (k = s.codec.dictSize ∧ ∃ y, s.codec.w.head? = some y ∧ e = s.codec.w ++ [y])

theorem State.reference_cases {s : State} {k : Nat} {e : Str} {x : CodeUnit} (named : s.Names k e)
    (first : e.head? = some x) : s.reference k = .ok () (s.afterReference e x) ∨
      ((s.cfg.outMax ≠ none ∨ s.cfg.dictMax ≠ none) ∧ ∃ t, s.reference k = .raise .capacity t) := by
  by_cases beyond : exceeds (s.codec.dictSize + 1) s.cfg.dictMax = true ∨
      exceeds (s.dec.res.length + e.length) s.cfg.outMax = true
  · refine .inr ⟨?_, State.reference_of_beyond named (by rintro rfl; cases first) beyond⟩
    obtain h | h := beyond
    · exact .inr fun none => by rw [none] at h; cases h
    · exact .inl fun none => by rw [none] at h; cases h
  · obtain ⟨room, fits⟩ := not_or.1 beyond
    refine .inl ?_
    rw [State.reference, State.resolveRef_of_named named]
    exact State.commonTail_of_within (s := { s with dec := { s.dec with entry := e } }) first
      (Bool.not_eq_true _ ▸ room) (Bool.not_eq_true _ ▸ fits)

theorem Codec.numBits_le_tick_tick (c : Codec) : c.numBits ≤ c.tick.tick.numBits :=
  c.numBits_le_tick.trans c.tick.numBits_le_tick

/-- A first literal makes the decoder's first entry, at NUMBITS 3 (R74, R121). -/
theorem State.DecoderSound.afterFirst {s : State} (h : s.DecoderSound) (first : s.phase = .decodeFirst) (u : CodeUnit) :
    (s.afterFirst u).DecoderSound := by
  obtain ⟨dictSize, numBits, enlargeIn⟩ := h.first first
  have once := Codec.tick_of_two_le_enlargeIn (c := s.codec) enlargeIn.ge
  have twice := Codec.tick_of_enlargeIn_eq_one (c := s.codec.tick) (by rw [once, enlargeIn])
  refine ⟨by simp [State.afterFirst, h.size], fun k e three listed => ?_, (fun other => nomatch other), fun _ => ?_⟩
  · rw [State.afterFirst, List.getElem?_append] at listed
    split at listed
    · exact h.entries k e three listed
    · have one := List.mem_of_getElem? listed
      rw [List.mem_singleton.1 one]
      exact List.cons_ne_nil _ _
  · refine ⟨by show 4 ≤ s.codec.dictSize + 1; omega, ?_, List.cons_ne_nil _ _, List.cons_ne_nil _ _⟩
    show 3 ≤ s.codec.tick.tick.numBits
    rw [twice, once, numBits]

/-- Entries that are not empty, and W and RES with them, keep the decoder's facts between tokens. -/
theorem State.DecoderSound.appended {s t : State} (h : s.DecoderSound) (later : s.phase = .decode) {es : List Str}
    (phase : t.phase = s.phase) (dlist : t.dec.dlist = s.dec.dlist ++ es)
    (dictSize : t.codec.dictSize = s.codec.dictSize + es.length) (entries : ∀ e ∈ es, e ≠ [])
    (numBits : s.codec.numBits ≤ t.codec.numBits) (w : t.codec.w ≠ []) (res : t.dec.res ≠ []) : t.DecoderSound := by
  obtain ⟨four, three, -, -⟩ := h.later later
  refine ⟨by rw [dlist, List.length_append, h.size, dictSize], fun k e low listed => ?_,
    (fun first => nomatch first.symm.trans (phase.trans later)),
    fun _ => ⟨by omega, by omega, w, res⟩⟩
  rw [dlist, List.getElem?_append] at listed
  split at listed
  · exact h.entries k e low listed
  · exact entries e (List.mem_of_getElem? listed)

/-- In DECODE a code from 3 to DICTSIZE names a string that is not empty. -/
theorem State.DecoderSound.exists_named {s : State} (h : s.DecoderSound) (later : s.phase = .decode) {k : Nat}
    (three : 3 ≤ k) (known : k ≤ s.codec.dictSize) : ∃ e x, s.Names k e ∧ e.head? = some x := by
  obtain below | rfl := Nat.lt_or_eq_of_le known
  · have listed : k < s.dec.dlist.length := h.size.symm ▸ below
    have entry := List.getElem?_eq_getElem listed
    obtain ⟨x, rest, cons⟩ := List.exists_cons_of_ne_nil (h.entries k _ three entry)
    exact ⟨_, x, .inl ⟨below, entry⟩, by rw [cons]; rfl⟩
  · obtain ⟨-, -, w, -⟩ := h.later later
    obtain ⟨y, rest, cons⟩ := List.exists_cons_of_ne_nil w
    have head : s.codec.w.head? = some y := by rw [cons]; rfl
    exact ⟨_, y, .inr ⟨rfl, y, head, rfl⟩, by rw [cons]; rfl⟩

/-- DECODE_FIRST proceeds. -/
theorem State.Sound.decodeFirst_proceeds {s : State} (h : s.Sound) (first : s.phase = .decodeFirst) :
    s.Proceeds (engineStep s) := by
  have running : s.phase.isRunning = true := by rw [first]; rfl
  have latch := h.latch running
  have decompress := latch.decodes (.inr (.inl first))
  have reader := h.reader (.inl first)
  have decoder := h.decoder (.inl first)
  have steps := engineStep_of_decodeFirst first
  cases decoded : decode .first s.unreadBits with
  | error e =>
    obtain rfl | rfl := decode_first_error decoded
    · obtain ⟨q, -, stops⟩ := State.fetchFirst_of_short reader.legal decoded
      rw [steps]
      exact stops.proceeds reader s.fetchFirst_growing h.widths
    · obtain ⟨r, raised, -⟩ := State.fetchFirst_of_badFirst reader.legal decoded
      rw [raised] at steps
      exact State.proceeds_of_next (t := State.raise .badFirst { s with read := r }) steps (.of_stopped rfl h.widths)
  | ok result =>
    obtain ⟨i, rest⟩ := result
    obtain ⟨r, fetch, legal, -⟩ := State.fetchFirst_of_decode reader.legal decoded
    have place := (Instr.wellFormed_iff.1 (encode_of_decode_first decoded).1).1
    have literal : ∀ u : CodeUnit, engineStep s = (State.firstLiteral { s with read := r } u).outcome →
        s.Proceeds (engineStep s) := by
      intro u steps
      obtain done | ⟨-, t, raised⟩ := State.firstLiteral_cases { s with read := r } u
      · rw [done] at steps
        have moved : State.ReaderSound { s with read := r } := reader.moved rfl rfl legal
        have fetched : State.DecoderSound { s with read := r } :=
          ⟨decoder.size, decoder.entries, decoder.first, decoder.later⟩
        exact State.proceeds_of_next steps (.decoding latch rfl decompress (.inr rfl)
          ((engineStep_grows steps).codec.widths h.widths) (h.packer running).sym (moved.moved rfl rfl legal)
          (fetched.afterFirst first u))
      · rw [raised] at steps
        exact State.proceeds_of_next steps (.of_stopped rfl ((engineStep_grows steps).codec.widths h.widths))
    rw [fetch] at steps
    cases i with
    | firstLit8 v => exact literal _ steps
    | firstLit16 v => exact literal _ steps
    | _ => cases place

/-- DECODE proceeds. -/
theorem State.Sound.decode_proceeds {s : State} (h : s.Sound) (later : s.phase = .decode) :
    s.Proceeds (engineStep s) := by
  have running : s.phase.isRunning = true := by rw [later]; rfl
  have latch := h.latch running
  have decompress := latch.decodes (.inr (.inr later))
  have reader := h.reader (.inr later)
  have decoder := h.decoder (.inr later)
  obtain ⟨four, wide, started, output⟩ := decoder.later later
  have steps := engineStep_of_decode later
  cases decoded : decode (.later s.codec.numBits) s.unreadBits with
  | error e =>
    obtain rfl := decode_later_error decoded
    obtain ⟨q, -, stops⟩ := State.fetchLater_of_short reader.legal decoded
    rw [steps]
    exact stops.proceeds reader s.fetchLater_growing h.widths
  | ok result =>
    obtain ⟨i, rest⟩ := result
    obtain ⟨r, code, fetch, legal, -, -⟩ := State.fetchLater_of_decode reader.legal decoded
    obtain ⟨place, noControl, -⟩ := Instr.wellFormed_iff.1 (encode_of_decode_later wide decoded).1
    have stopped : ∀ {t u : State} {c : Cause}, engineStep s = .next t → t = u.raise c → s.Proceeds (engineStep s) :=
      fun steps raised => State.proceeds_of_next steps
        (.of_stopped (by rw [raised]; rfl) ((engineStep_grows steps).codec.widths h.widths))
    have decoding : ∀ {t : State}, engineStep s = .next t → t.lat = s.lat → t.phase = s.phase → t.pack = s.pack →
        t.read = r → t.DecoderSound → s.Proceeds (engineStep s) := fun steps lat phase pack read sound =>
      State.proceeds_of_next steps (.decoding latch lat decompress (.inr (phase.trans later))
        ((engineStep_grows steps).codec.widths h.widths) (pack ▸ (h.packer running).sym)
        (reader.moved lat pack (read ▸ legal)) sound)
    have literal : ∀ u : CodeUnit, engineStep s = ((s.fetched r code).literal u).outcome → s.Proceeds (engineStep s) := by
      intro u steps
      obtain done | ⟨-, t, raised⟩ := State.literal_cases (s.fetched r code) u
      · rw [done] at steps
        refine decoding steps rfl rfl rfl rfl ?_
        exact decoder.appended later (es := [[u]] ++ [s.codec.w ++ [u]]) rfl (List.append_assoc ..) rfl (by simp)
          s.codec.numBits_le_tick_tick (List.cons_ne_nil _ _) (by simp [State.afterLiteral])
      · rw [raised] at steps
        exact stopped steps rfl
    rw [fetch] at steps
    cases i with
    | lit8 v => exact literal _ steps
    | lit16 v => exact literal _ steps
    | eos =>
      exact State.proceeds_of_next (t := { s.fetched r code with phase := .output }) steps
        { widths := h.widths
          latch := fun _ => latch.later rfl (by simp) (by simp) (by simp)
          packer := fun _ => ⟨(h.packer running).sym, by simp, by simp⟩
          encoder := by simp
          scramble := by simp
          unscramble := by simp
          reader := by simp
          decoder := by simp
          result := fun _ _ => output }
    | ref k =>
      have three : 3 ≤ k := by simpa [Instr.codeIsNoControl] using noControl
      have steps : engineStep s = ((s.fetched r code).reference k).outcome := steps
      by_cases known : k ≤ s.codec.dictSize
      · obtain ⟨e, x, named, head⟩ := decoder.exists_named later three known
        obtain done | ⟨-, t, raised⟩ := State.reference_cases (s := s.fetched r code) named head
        · rw [done] at steps
          refine decoding steps rfl rfl rfl rfl ?_
          exact decoder.appended later (es := [s.codec.w ++ [x]]) rfl rfl rfl (by simp) s.codec.numBits_le_tick
            (by rintro rfl; cases head) (by simp [State.afterReference, State.fetched, output])
        · rw [raised] at steps
          exact stopped steps rfl
      · have raised : (s.fetched r code).reference k = .raise .badCode (s.fetched r code) := by
          rw [State.reference, State.resolveRef_of_dictSize_lt (s := s.fetched r code) (Nat.lt_of_not_le known)]
          rfl
        rw [raised] at steps
        exact stopped steps rfl
    | _ => cases place

/-! ### The whole machine -/

/-- From a sound state the engine moves to a sound state, or is refused for an input unit never written. -/
theorem State.Sound.proceeds {s : State} (h : s.Sound) : s.Proceeds (engineStep s) := by
  cases phase : s.phase with
  | idle => exact State.proceeds_of_next (engineStep_of_idle phase) h
  | finished => exact State.proceeds_of_next (engineStep_of_finished phase) h
  | encode => exact h.encode_proceeds phase
  | scramble => exact h.scramble_proceeds phase
  | unscramble => exact h.unscramble_proceeds phase
  | decodeFirst => exact h.decodeFirst_proceeds phase
  | decode => exact h.decode_proceeds phase
  | output => exact h.output_proceeds phase

theorem State.Sound.of_engineStep {s t : State} (h : s.Sound) (steps : engineStep s = .next t) : t.Sound := by
  obtain ⟨u, next, sound⟩ | ⟨i, -, refused, -⟩ := h.proceeds
  · rwa [Host.Outcome.next.inj (steps.symm.trans next)]
  · cases steps.symm.trans refused

/-- R25's width registers. -/
theorem Codec.widthsSound_of_start {c : Codec} (numBits : c.numBits = 2) (enlargeIn : c.enlargeIn = 2)
    (dictSize : c.dictSize = 3) : c.WidthsSound :=
  ⟨numBits.ge, by omega, by rw [numBits, enlargeIn]; decide, dictSize.ge⟩

/-- The started state of a command is sound, whatever the block held (R25, R180). -/
theorem State.started_sound {s : State} {op : Op} {a : Alphabet} (input : s.regs.inLen ≠ 0)
    (plain : isScrambled op = true → a = .raw) :
    (s.started op a (scrAtStart op s.regs.nkeys) (firstPhase op (scrAtStart op s.regs.nkeys))).Sound := by
  have widths : ∀ scr p, (s.started op a scr p).codec.WidthsSound := fun _ _ => Codec.widthsSound_of_start rfl rfl rfl
  have latch : ∀ p, (p = .encode ∨ p = .scramble → isCompress op = true) →
      (p = .unscramble ∨ p = .decodeFirst ∨ p = .decode → isCompress op = false) →
      (p = .scramble ∨ p = .unscramble → scrAtStart op s.regs.nkeys = true) →
      (s.started op a (scrAtStart op s.regs.nkeys) p).LatchSound := fun p encodes decodes keyed =>
    ⟨Nat.one_le_iff_ne_zero.2 input, rfl, plain, encodes, decodes, keyed⟩
  have encode : isCompress op = true → (s.started op a (scrAtStart op s.regs.nkeys) .encode).Sound := by
    intro compress
    refine
      { widths := widths _ _
        latch := fun _ => latch .encode (fun _ => compress) (by simp) (by simp)
        packer := fun _ => ⟨by simp [State.started], fun _ => (bpcOf_range _).1, fun _ => Nat.zero_lt_one⟩
        encoder := fun _ => ?_
        scramble := fun other => nomatch other
        unscramble := fun other => nomatch other
        reader := by simp [State.started]
        decoder := by simp [State.started]
        result := fun other => nomatch other }
    constructor <;> simp [State.started]
  have decode : isCompress op = false → scrAtStart op s.regs.nkeys = false →
      (s.started op a (scrAtStart op s.regs.nkeys) .decodeFirst).Sound := by
    intro decompress scr
    refine .decoding (latch .decodeFirst (by simp) (fun _ => decompress) (by simp)) rfl decompress (.inl rfl) (widths _ _)
      (by simp [State.started]) ⟨Nat.zero_le _, .inl rfl, fun keyed => absurd (keyed.symm.trans scr) (by decide)⟩ ?_
    refine ⟨rfl, fun k e three listed => ?_, fun _ => ⟨rfl, rfl, rfl⟩, fun other => nomatch other⟩
    have below : k < 3 := (List.getElem?_eq_some_iff.1 listed).1
    omega
  have unscramble : isCompress op = false → scrAtStart op s.regs.nkeys = true →
      (s.started op a (scrAtStart op s.regs.nkeys) .unscramble).Sound := by
    intro decompress scr
    refine .unscrambling (latch .unscramble (by simp) (fun _ => decompress) (fun _ => scr)) rfl decompress scr rfl
      (widths _ _) (by simp [State.started])
      ⟨Nat.zero_le _, fun _ => rfl, fun full => absurd full ?_, rfl, rfl, rfl, rfl, rfl⟩
    simpa [State.started] using input.symm
  cases op with
  | compress => exact encode rfl
  | compressScrambled => exact encode rfl
  | decompress => exact decode rfl rfl
  | decompressScrambled =>
    cases scr : scrAtStart .decompressScrambled s.regs.nkeys with
    | false =>
      have sound := decode rfl scr
      rw [scr] at sound
      exact sound
    | true =>
      have sound := unscramble rfl scr
      rw [scr] at sound
      exact sound

/-- A legal word's scrambled operation has no alphabet of its own (R61, R187). -/
theorem alphabet_of_legal {c : Byte} (legal : ¬IllegalWord c) (scrambled : isScrambled (opOf (opField c)) = true) :
    alphaOf (alphaField c) = .raw := by
  by_contra other
  exact legal (illegalWord_iff.2 (.inr (commandOf_eq_none.2 ⟨scrambled, other⟩)))

/-- The start step ends the command, or leaves the started state. -/
theorem commandStep_ends {c : Byte} {s t : State} (h : commandStep c s = .next t) :
    (t.phase = .finished ∧ t.codec = s.codec ∧ t.scr = s.scr ∧
        ∃ cause, cause ≠ .none ∧ cause.isFormatError = false ∧
          t.regs = { s.regs with cmd := c, status := .error, errCode := cause, errIdx := 0, outLen := 0 }) ∨
      (t.phase = .finished ∧ t.codec.WidthsSound ∧ t.scr = { s.scr with skey := 0 } ∧ s.regs.inLen = 0 ∧
        t.regs = { s.regs with cmd := c, status := .done, errCode := .none, errIdx := 0, outLen := 0 }) ∨
      (¬IllegalWord c ∧ s.regs.inLen ≠ 0 ∧ t = s.started (opOf (opField c)) (alphaOf (alphaField c))
          (scrAtStart (opOf (opField c)) s.regs.nkeys)
          (firstPhase (opOf (opField c)) (scrAtStart (opOf (opField c)) s.regs.nkeys)) ∧ t.Sound) := by
  obtain ⟨-, rfl⟩ | ⟨legal, rfl⟩ := commandStep_cases h
  · exact .inl ⟨rfl, rfl, rfl, .illegalCmd, by decide, rfl, rfl⟩
  · have word := (commandStep_of_legal legal s).2
    obtain ⟨-, ends⟩ | ⟨-, empty, ends⟩ | ⟨-, input, ends⟩ :=
      startCommand_cases (opOf (opField c)) (alphaOf (alphaField c)) s <;> rw [ends]
    · exact .inl ⟨rfl, rfl, rfl, .capacity, by decide, rfl, by rw [word]; rfl⟩
    · refine .inr (.inl ⟨rfl, Codec.widthsSound_of_start rfl rfl rfl, rfl, empty, ?_⟩)
      simp only [State.started, State.endOk_regs, word]
    · exact .inr (.inr ⟨legal, input, rfl, State.started_sound input (alphabet_of_legal legal)⟩)

/-- The invariant depends on neither buffer, keys nor host, but for the stores' form. -/
theorem State.Inv.of_same {s t : State} (h : s.Inv) (canonical : t.Canonical)
    (same : t = { s with
      regs := { s.regs with inLen := t.regs.inLen, nkeys := t.regs.nkeys }
      keys := t.keys, inBuf := t.inBuf, outBuf := t.outBuf, host := t.host, seen := t.seen, draws := t.draws }) :
    t.Inv := by
  obtain ⟨-, ⟨busy, idle, cause, errIdx, outLen⟩, increment, widths, latch, packer, encoder, scramble, unscramble, reader,
    decoder, result⟩ := State.inv_iff.1 h
  rw [same] at canonical ⊢
  exact State.inv_iff.2 ⟨canonical, ⟨busy, idle, cause, errIdx, outLen⟩, increment, widths,
    fun running => ⟨(latch running).input, (latch running).scr, (latch running).plain, (latch running).encodes,
      (latch running).decodes, (latch running).keyed⟩,
    fun running => ⟨(packer running).sym, (packer running).ppos, (packer running).pval⟩,
    fun phase => ⟨(encoder phase).idx, (encoder phase).size, (encoder phase).codes, (encoder phase).nodup,
      (encoder phase).current, (encoder phase).units, (encoder phase).closed, (encoder phase).pending,
      (encoder phase).emitted, (encoder phase).skey⟩,
    scramble,
    fun phase => ⟨(unscramble phase).short, (unscramble phase).convert, (unscramble phase).walk, (unscramble phase).mask,
      (unscramble phase).decoder⟩,
    fun phase => ⟨(reader phase).ridx, (reader phase).mask, (reader phase).sym⟩,
    fun phase => ⟨(decoder phase).size, (decoder phase).entries, (decoder phase).first, (decoder phase).later⟩,
    result⟩

/-- The state after RESET has the invariant, whatever the host still has to do. -/
theorem State.resetBlock_inv (s : State) : s.resetBlock.Inv :=
  State.inv_iff.2 ⟨⟨.nil, .nil, .nil, fun _ h => absurd h List.not_mem_nil⟩,
    ⟨by simp [State.reset, Phase.isRunning], by simp [State.reset], by simp [State.reset], fun _ => rfl, fun _ => rfl⟩,
    by simp [State.reset], .of_stopped rfl (Codec.widthsSound_of_start rfl rfl rfl)⟩

/-- Settles O49. -/
theorem resetSatisfiesInvariant : Obligations.ResetSatisfiesInvariant := State.resetBlock_inv State.reset

end Sys2Proof.Machine
end

section
namespace Sys2Proof.Machine

/-! ### The phase each operation ends in (R190) -/

/-- Where `x` completes, PHASE is as it was in `s`. -/
def KeepsPhase {α : Type} (s : State) (x : Eff State α) : Prop := ∀ a t, x = .ok a t → t.phase = s.phase

namespace KeepsPhase

variable {α β : Type} {s t : State}

theorem of_ok {a : α} (h : t.phase = s.phase) : KeepsPhase s (.ok a t) := fun _ _ e => by cases e; exact h

theorem of_raise {c : Cause} : KeepsPhase s (.raise c t : Eff State α) := fun _ _ e => nomatch e

theorem of_fault {f : Fault} : KeepsPhase s (.fault f : Eff State α) := fun _ _ e => nomatch e

theorem of_refused {r : Refusal} : KeepsPhase s (.refused r : Eff State α) := fun _ _ e => nomatch e

theorem bind {x : Eff State α} {k : α → State → Eff State β} (hx : KeepsPhase s x) (hk : ∀ a t, KeepsPhase t (k a t)) :
    KeepsPhase s (x.bind k) := by
  intro b t h
  obtain ⟨a, u, first, second⟩ := Eff.bind_eq_ok.1 h
  exact (hk a u b t second).trans (hx a u first)

theorem of_lift {σ : Type} {put : σ → State} (same : ∀ p, (put p).phase = s.phase) (x : Eff σ α) :
    KeepsPhase s (x.lift put) := by
  intro a t h
  obtain ⟨p, -, rfl⟩ := Eff.lift_eq_ok.1 h
  exact same p

theorem of_same {x : Eff State α} (h : t.phase = s.phase) (hx : KeepsPhase t x) : KeepsPhase s x :=
  fun a u e => (hx a u e).trans h

end KeepsPhase

theorem State.packToken_keepsPhase (s : State) (i : Instr) : KeepsPhase s (s.packToken i) :=
  .of_lift (put := fun p => { s with pack := p }) (fun _ => rfl) _

theorem State.unpack_keepsPhase (s : State) (w : Nat) : KeepsPhase s (s.unpack w) :=
  .of_lift (put := fun r => { s with read := r }) (fun _ => rfl) _

theorem State.emit_keepsPhase (s : State) : KeepsPhase s s.emit := by
  unfold State.emit
  split
  · exact (s.packToken_keepsPhase _).bind fun _ _ => .of_ok rfl
  · split
    · exact .of_fault
    · exact (s.packToken_keepsPhase _).bind fun _ _ => .of_ok rfl

theorem State.insertEntry_keepsPhase (s : State) (e : Str) : KeepsPhase s (s.insertEntry e) := by
  unfold State.insertEntry
  split
  · exact .of_raise
  · exact .of_ok rfl

theorem State.insertUnit_keepsPhase (s : State) (u : CodeUnit) : KeepsPhase s (s.insertUnit u) := by
  unfold State.insertUnit
  split
  · exact .of_ok rfl
  · exact (s.insertEntry_keepsPhase _).bind fun _ _ => .of_ok rfl

theorem State.extendOrEmit_keepsPhase (s : State) (u : CodeUnit) : KeepsPhase s (s.extendOrEmit u) := by
  unfold State.extendOrEmit
  dsimp only
  split
  · exact .of_ok rfl
  · exact s.emit_keepsPhase.bind fun _ t => (t.insertEntry_keepsPhase _).bind fun _ _ => .of_ok rfl

theorem State.encStep_keepsPhase (s : State) : KeepsPhase s s.encStep := by
  unfold State.encStep
  split
  · exact .of_refused
  · rename_i u _
    exact .of_same (t := { s with codec := { s.codec with c := u } }) rfl
      ((State.insertUnit_keepsPhase _ _).bind fun _ t => (t.extendOrEmit_keepsPhase _).bind fun _ _ => .of_ok rfl)

/-- ENC_FINISH goes on to SCRAMBLE or OUTPUT (R107, R190). -/
theorem State.encFinish_phase {s t : State} {a : Unit} (h : s.encFinish = .ok a t) :
    t.phase = if s.lat.scr then .scramble else .output := by
  obtain ⟨_, t₁, emits, h⟩ := Eff.bind_eq_ok.1 h
  obtain ⟨_, t₂, packs, h⟩ := Eff.bind_eq_ok.1 h
  obtain ⟨_, t₃, flushes, done⟩ := Eff.bind_eq_ok.1 h
  have lat₁ := (s.emit_framing.ok _ _ emits).lat
  have lat₂ := ((t₁.packToken_framing _).ok _ _ packs).lat
  obtain ⟨p, -, rfl⟩ := Eff.lift_eq_ok.1 flushes
  cases done
  rw [← lat₁, ← lat₂]

theorem State.commonTail_keepsPhase (s : State) : KeepsPhase s s.commonTail := by
  intro a t h
  obtain ⟨x, -, rfl⟩ := State.commonTail_ok h
  rfl

theorem State.literal_keepsPhase (s : State) (u : CodeUnit) : KeepsPhase s (s.literal u) := by
  obtain done | ⟨-, t, raised⟩ := s.literal_cases u
  · rw [done]
    exact .of_ok rfl
  · rw [raised]
    exact .of_raise

theorem State.reference_keepsPhase (s : State) (k : Nat) : KeepsPhase s (s.reference k) := by
  have resolves : KeepsPhase s (s.resolveRef k) := fun e t h => by rw [(State.resolveRef_ok h).1]
  exact resolves.bind fun e t =>
    .of_same (t := { t with dec := { t.dec with entry := e } }) rfl (State.commonTail_keepsPhase _)

theorem State.fetchLater_keepsPhase (s : State) : KeepsPhase s s.fetchLater := by
  refine (s.unpack_keepsPhase _).bind fun code t => ?_
  dsimp only
  split
  · exact .of_ok rfl
  · exact .of_same (t := { t with dec := { t.dec with cc := code } }) rfl
      ((State.unpack_keepsPhase _ _).bind fun _ _ => .of_ok rfl)

/-! ### The phase after each engine step -/

/-- The step ended the command in ERROR (R203). -/
def State.Failed (t : State) : Prop := t.phase = .finished ∧ t.regs.status = .error

theorem State.raise_failed (u : State) (c : Cause) : (u.raise c).Failed := ⟨rfl, rfl⟩

/-- What an operation's step ends in: a raise, or what the operation completes in. -/
theorem Eff.failed_or_ok {α : Type} {x : Eff State α} {t : State} (h : x.outcome = .next t) :
    t.Failed ∨ ∃ a, x = .ok a t := by
  obtain ok | ⟨c, u, -, rfl⟩ := Eff.outcome_eq_next.1 h
  · exact .inr ok
  · exact .inl (u.raise_failed c)

theorem engineStep_phase_encode {s t : State} (encode : s.phase = .encode) (h : engineStep s = .next t) :
    t.Failed ∨ (s.codec.idx < s.lat.nL ∧ t.phase = .encode) ∨
      (s.lat.nL ≤ s.codec.idx ∧ t.phase = if s.lat.scr then .scramble else .output) := by
  by_cases more : s.codec.idx < s.lat.nL
  · obtain failed | ⟨a, done⟩ := Eff.failed_or_ok ((engineStep_of_encStep encode more).symm.trans h)
    · exact .inl failed
    · exact .inr (.inl ⟨more, (s.encStep_keepsPhase a t done).trans encode⟩)
  · obtain failed | ⟨a, done⟩ := Eff.failed_or_ok ((engineStep_of_encFinish encode (Nat.not_lt.1 more)).symm.trans h)
    · exact .inl failed
    · exact .inr (.inr ⟨Nat.not_lt.1 more, State.encFinish_phase done⟩)

theorem engineStep_phase_unscramble {s t : State} (unscramble : s.phase = .unscramble) (h : engineStep s = .next t) :
    t.Failed ∨ (t.phase = .unscramble ∧ (s.pack.sym.length < s.lat.nL ∨ s.scr.skey ≠ 0)) ∨
      (t.phase = .decodeFirst ∧ s.lat.nL ≤ s.pack.sym.length ∧ s.scr.skey = 0) := by
  obtain failed | ⟨a, done⟩ := Eff.failed_or_ok ((engineStep_of_unscramble unscramble).symm.trans h)
  · exact .inl failed
  · by_cases short : s.pack.sym.length < s.lat.nL
    · rw [State.unscrambleMove_of_short short, State.convertUnit_eq] at done
      split at done
      · cases done
      · cases done
      · cases done
      · cases done
        exact .inr (.inl ⟨(s.converted_phase _).trans unscramble, .inl short⟩)
    · rw [State.unscrambleMove_of_full (Nat.not_lt.1 short)] at done
      cases done
      by_cases last : s.scr.skey = 0
      · exact .inr (.inr ⟨if_pos last, Nat.not_lt.1 short, last⟩)
      · exact .inr (.inl ⟨if_neg last, .inr last⟩)

/-- A fetched token is executed; a fetch that raises ends the command. -/
theorem Eff.failed_or_token {x : Eff State Instr} {t : State} (h : x.move.run = .next t) :
    t.Failed ∨ ∃ i u, x = .ok i u ∧ exec i u = .next t := by
  cases x with
  | ok i u => exact .inr ⟨i, u, rfl, h⟩
  | raise c u =>
    cases h
    exact .inl (u.raise_failed c)
  | fault f => cases h
  | refused r => cases h

theorem engineStep_phase_decodeFirst {s t : State} (first : s.phase = .decodeFirst) (h : engineStep s = .next t) :
    t.Failed ∨ t.phase = .decode := by
  obtain failed | ⟨i, u, fetch, runs⟩ := Eff.failed_or_token ((engineStep_of_decodeFirst first).symm.trans h)
  · exact .inl failed
  obtain ⟨p, v, rfl⟩ := State.fetchFirst_token fetch
  have literal : ∀ v, (u.firstLiteral v).outcome = .next t → t.Failed ∨ t.phase = .decode := by
    intro v runs
    obtain done | ⟨-, w, raised⟩ := u.firstLiteral_cases v
    · rw [done] at runs
      cases runs
      exact .inr rfl
    · rw [raised] at runs
      cases runs
      exact .inl (w.raise_failed _)
  obtain _ | p := p
  · exact literal _ runs
  · exact literal _ runs

/-- Executing a token in DECODE stays in DECODE, but for EOS. -/
theorem exec_laterToken_phase {s t : State} {code v : Nat} (h : exec (laterToken code v) s = .next t) :
    (code ≠ 2 ∧ (t.Failed ∨ t.phase = s.phase)) ∨ (code = 2 ∧ t.phase = .output) := by
  have keeps : ∀ {x : Eff State Unit}, KeepsPhase s x → x.outcome = .next t → t.Failed ∨ t.phase = s.phase := by
    intro x phase runs
    obtain failed | ⟨a, done⟩ := Eff.failed_or_ok runs
    · exact .inl failed
    · exact .inr (phase a t done)
  obtain _ | _ | _ | code := code
  · exact .inl ⟨by decide, keeps (s.literal_keepsPhase _) h⟩
  · exact .inl ⟨by decide, keeps (s.literal_keepsPhase _) h⟩
  · cases h
    exact .inr ⟨rfl, rfl⟩
  · exact .inl ⟨by omega, keeps (s.reference_keepsPhase _) h⟩

theorem engineStep_phase_decode {s t : State} (later : s.phase = .decode) (h : engineStep s = .next t) :
    t.Failed ∨ t.phase = .decode ∨ t.phase = .output := by
  obtain failed | ⟨i, u, fetch, runs⟩ := Eff.failed_or_token ((engineStep_of_decode later).symm.trans h)
  · exact .inl failed
  obtain ⟨code, v, rfl⟩ := State.fetchLater_token fetch
  have phase := (s.fetchLater_keepsPhase _ _ fetch).trans later
  obtain ⟨-, failed | same⟩ | ⟨-, output⟩ := exec_laterToken_phase runs
  · exact .inl failed
  · exact .inr (.inl (same.trans phase))
  · exact .inr (.inr output)

/-- DECODE goes to OUTPUT exactly on the token EOS. -/
theorem engineStep_decode_output_iff {s t : State} (later : s.phase = .decode)
    (legal : s.read.Legal (bpcOf s.adapter) s.lat.nL) (h : engineStep s = .next t) :
    t.phase = .output ↔ ∃ rest, decode (.later s.codec.numBits) s.unreadBits = .ok (.eos, rest) := by
  rw [engineStep_of_decode later] at h
  cases decoded : decode (.later s.codec.numBits) s.unreadBits with
  | error e =>
    obtain rfl := decode_later_error decoded
    obtain ⟨q, -, stops⟩ := State.fetchLater_of_short legal decoded
    have failed : t.phase = .finished := by
      obtain ⟨-, u, raised, -⟩ | ⟨-, ⟨-, u, raised, -⟩ | ⟨i, -, stopped⟩ | ⟨i, -, stopped⟩⟩ := stops
      · rw [raised] at h
        cases h
        rfl
      · rw [raised] at h
        cases h
        rfl
      · rw [stopped] at h
        cases h
      · rw [stopped] at h
        cases h
    simp [failed]
  | ok result =>
    obtain ⟨i, rest⟩ := result
    obtain ⟨r, code, fetch, -⟩ := State.fetchLater_of_decode legal decoded
    rw [fetch] at h
    obtain ⟨token, v, rfl⟩ := State.fetchLater_token fetch
    have eos : laterToken token v = .eos ↔ token = 2 := by
      obtain _ | _ | _ | token := token <;> simp [laterToken]
    have only : (∃ rest', (Except.ok (laterToken token v, rest) : Except DecodeError _) = .ok (.eos, rest')) ↔
        token = 2 := by simp [eos]
    rw [only]
    obtain ⟨other, ⟨phase, -⟩ | phase⟩ | ⟨same, phase⟩ := exec_laterToken_phase h
    · simp [phase, other]
    · simp [phase, other, State.fetched, later]
    · simp [phase, same]

/-- While a command runs, an engine step ends it in a raise or in OUTPUT's END_OK, or leaves it running (R190, R203). -/
theorem engineStep_cases_of_running {s t : State} (running : s.phase.isRunning = true) (busy : s.regs.status = .busy)
    (h : engineStep s = .next t) :
    (∃ u c, s.Framed u ∧ c ≠ .none ∧ t = u.raise c) ∨ (s.phase = .output ∧ t = s.outputDone) ∨
      (s.Framed t ∧ t.phase.isRunning = true) := by
  by_cases output : s.phase = .output
  · rw [engineStep_of_output output] at h
    obtain ⟨-, raised⟩ | ⟨-, done⟩ := s.outputMove_cases
    · rw [raised] at h
      cases h
      exact .inl ⟨s, .capacity, .refl, by decide, rfl⟩
    · rw [done] at h
      cases h
      exact .inr (.inl ⟨output, rfl⟩)
  obtain (framed | raised) | ⟨ends, -⟩ := engineStep_cases h
  · have succeeds : ¬t.Failed := by
      rintro ⟨-, error⟩
      rw [framed.regs, busy] at error
      cases error
    refine .inr (.inr ⟨framed, ?_⟩)
    cases phase : s.phase with
    | idle =>
      rw [phase] at running
      cases running
    | finished =>
      rw [phase] at running
      cases running
    | encode =>
      obtain failed | ⟨-, next⟩ | ⟨-, next⟩ := engineStep_phase_encode phase h
      · exact absurd failed succeeds
      · rw [next]; rfl
      · rw [next]
        split <;> rfl
    | scramble =>
      cases (engineStep_of_scramble phase).symm.trans h
      rw [State.scrambleMove_phase]
      split <;> rfl
    | unscramble =>
      obtain failed | ⟨next, -⟩ | ⟨next, -⟩ := engineStep_phase_unscramble phase h
      · exact absurd failed succeeds
      · rw [next]; rfl
      · rw [next]; rfl
    | decodeFirst =>
      obtain failed | next := engineStep_phase_decodeFirst phase h
      · exact absurd failed succeeds
      · rw [next]; rfl
    | decode =>
      obtain failed | next | next := engineStep_phase_decode phase h
      · exact absurd failed succeeds
      · rw [next]; rfl
      · rw [next]; rfl
    | output => exact absurd phase output
  · exact .inl raised
  · exact absurd ends output

/-! ### PHASE over a whole step (R190) -/

/-- Where the engine moves, a step is the engine's, at some turns left. -/
theorem engineStep_of_engineMoves {s t : State} (moves : s.EngineMoves) (h : step s = .next t) :
    ∃ l, engineStep { s with host := l } = .next t := by
  obtain ⟨c, rest, turn, free, -⟩ | ⟨rest, turn, -⟩ | ⟨w, rest, turn, -⟩ | ⟨r, rest, turn, -⟩ | ⟨c, rest, turn, -⟩ |
    ⟨rest, turn, free, -⟩ | ⟨l, -, -, steps⟩ := step_cases h
  · simp [State.EngineMoves, turn] at moves
  · simp [State.EngineMoves, turn] at moves
  · simp [State.EngineMoves, turn] at moves
  · simp [State.EngineMoves, turn] at moves
  · simp [State.EngineMoves, turn] at moves
  · simp only [State.EngineMoves, turn, List.head?_cons, reduceCtorEq, Option.some.injEq, true_and, false_or] at moves
    exact absurd moves free
  · exact ⟨l, steps⟩

/-- The phase the engine's step leaves, by the phase it starts in. -/
theorem engineStep_phase {s t : State} (h : engineStep s = .next t) :
    match s.phase with
    | .idle => t.phase = .idle
    | .finished => t.phase = .finished
    | .encode => t.Failed ∨ (s.codec.idx < s.lat.nL ∧ t.phase = .encode) ∨
        (s.lat.nL ≤ s.codec.idx ∧ t.phase = if s.lat.scr then .scramble else .output)
    | .scramble => t.phase = if s.scr.skey + 1 < s.lat.kL then .scramble else .output
    | .unscramble => t.Failed ∨ (t.phase = .unscramble ∧ (s.pack.sym.length < s.lat.nL ∨ s.scr.skey ≠ 0)) ∨
        (t.phase = .decodeFirst ∧ s.lat.nL ≤ s.pack.sym.length ∧ s.scr.skey = 0)
    | .decodeFirst => t.Failed ∨ t.phase = .decode
    | .decode => (t.Failed ∨ t.phase = .decode ∨ t.phase = .output) ∧
        (s.MaskLegal → s.read.ridx ≤ s.lat.nL →
          (t.phase = .output ↔ ∃ rest, decode (.later s.codec.numBits) s.unreadBits = .ok (.eos, rest)))
    | .output => t.phase = .finished := by
  cases phase : s.phase with
  | idle =>
    cases (engineStep_of_idle phase).symm.trans h
    exact phase
  | finished =>
    cases (engineStep_of_finished phase).symm.trans h
    exact phase
  | encode => exact engineStep_phase_encode phase h
  | scramble =>
    cases (engineStep_of_scramble phase).symm.trans h
    exact s.scrambleMove_phase
  | unscramble => exact engineStep_phase_unscramble phase h
  | decodeFirst => exact engineStep_phase_decodeFirst phase h
  | decode =>
    exact ⟨engineStep_phase_decode phase h,
      fun mask ridx => engineStep_decode_output_iff phase (State.read_legal mask ridx) h⟩
  | output =>
    rw [engineStep_of_output phase] at h
    obtain ⟨-, raised⟩ | ⟨-, done⟩ := s.outputMove_cases
    · rw [raised] at h
      cases h
      rfl
    · rw [done] at h
      cases h
      rfl

/-- Settles O48. -/
theorem phaseTransitions : Obligations.PhaseTransitions := by
  intro s t _ h failed
  refine ⟨fun c rest turn free => ?_, fun rest turn => ?_, fun w rest turn => ?_, fun r rest turn => ?_,
    fun c rest turn busy => ?_, fun rest turn free => ?_, fun moves => ?_⟩
  · obtain ⟨u, starts, -, -, -, -, -, -, -, -, -, -, -, -, -, -, illegal, big, fits⟩ :=
      commandStartStep { s with host := rest } c free
    cases (h.symm.trans (step_of_writeCmd turn free)).trans starts
    by_cases bad : IllegalWord c
    · exact ⟨fun _ => (illegal bad).2.2.2.2, fun none => absurd (.inl bad) none⟩
    by_cases large : s.TooBig (opOf (opField c))
    · exact ⟨fun _ => (big bad large).2.2.2.2, fun none => absurd (.inr (.inl large)) none⟩
    obtain ⟨-, -, -, -, -, -, -, -, -, -, -, -, -, -, -, -, -, -, -, -, empty, input⟩ := fits bad large
    refine ⟨fun stops => (empty ((stops.resolve_left bad).resolve_left large)).2, fun starts => ?_⟩
    exact (input fun none => starts (.inr (.inr none))).2
  · cases (step_of_reset turn).symm.trans h
    rfl
  · cases (step_of_write turn).symm.trans h
    rw [(State.hostWrite_frame { s with host := rest } w).1]
  · cases (step_of_read turn).symm.trans h
    obtain ⟨v, d, value⟩ := State.hostRead_frame { s with host := rest } r
    rw [value]
  · cases (step_of_writeCmd_busy turn busy).symm.trans h
    rfl
  · simp only [step, State.nextTurn, turn, if_neg free] at h
    cases h
    rfl
  · obtain ⟨l, steps⟩ := engineStep_of_engineMoves moves h
    exact engineStep_phase (s := { s with host := l }) steps

/-! ### The invariant of a run -/

/-- STATUS, PHASE and the report still agree after an engine step (R12, R13, R186, R203). -/
theorem engineStep_reported {s t : State} (reported : s.Reported) (h : engineStep s = .next t) : t.Reported := by
  by_cases running : s.phase.isRunning = true
  swap
  · have stopped : t = s := by
      cases phase : s.phase with
      | idle => exact (Host.Outcome.next.inj ((engineStep_of_idle phase).symm.trans h)).symm
      | finished => exact (Host.Outcome.next.inj ((engineStep_of_finished phase).symm.trans h)).symm
      | _ => exact absurd (by rw [phase]; rfl) running
    exact stopped ▸ reported
  have busy := reported.busy.2 running
  have noCause : s.regs.errCode = .none := by
    by_contra cause
    exact absurd (busy.symm.trans (reported.cause.2 cause)) (by decide)
  obtain ⟨u, c, -, cause, rfl⟩ | ⟨-, rfl⟩ | ⟨framed, runs⟩ := engineStep_cases_of_running running busy h
  · exact ⟨by simp [Phase.isRunning], by simp, by simp [cause], fun none => if_neg (by simpa using none), fun _ => rfl⟩
  · exact ⟨by simp [State.outputDone, Phase.isRunning], by simp [State.outputDone], by simp [State.outputDone, noCause],
      reported.errIdx, fun other => absurd rfl other⟩
  · have idle : t.phase ≠ .idle := by
      rintro idle
      rw [idle] at runs
      cases runs
    exact ⟨by simp [framed.regs, busy, runs], by simp [framed.regs, busy, idle], by simp [framed.regs, busy, noCause],
      framed.regs ▸ reported.errIdx, framed.regs ▸ reported.outLen⟩

theorem State.Inv.of_engineStep {s t : State} (h : s.Inv) (steps : engineStep s = .next t) : t.Inv := by
  obtain ⟨canonical, reported, increment, sound⟩ := State.inv_iff.1 h
  exact State.inv_iff.2 ⟨engineStep_canonical canonical steps, engineStep_reported reported steps,
    (engineStep_grows steps).increment increment, sound.of_engineStep steps⟩

/-- A command's first phase is one of a running command. -/
theorem firstPhase_isRunning (op : Op) (scr : Bool) : (firstPhase op scr).isRunning = true := by
  cases op with
  | decompressScrambled => cases scr <;> rfl
  | compress | decompress | compressScrambled => rfl

theorem State.Inv.of_commandStep {s t : State} {c : Byte} (h : s.Inv) (canonical : t.Canonical)
    (starts : commandStep c s = .next t) : t.Inv := by
  obtain ⟨-, -, increment, sound⟩ := State.inv_iff.1 h
  obtain ⟨phase, codec, scr, cause, some, plain, regs⟩ | ⟨phase, widths, scr, -, regs⟩ | ⟨-, -, started, startSound⟩ :=
    commandStep_ends starts
  · refine State.inv_iff.2 ⟨canonical, ?_, scr ▸ increment, .of_stopped (by rw [phase]; rfl) (codec ▸ sound.widths)⟩
    constructor <;> simp [phase, regs, Phase.isRunning, some]
  · refine State.inv_iff.2 ⟨canonical, ?_, by rw [scr]; exact increment, .of_stopped (by rw [phase]; rfl) widths⟩
    constructor <;> simp [phase, regs, Phase.isRunning]
  · refine State.inv_iff.2 ⟨canonical, ?_, by rw [started]; exact increment, startSound⟩
    have runs := firstPhase_isRunning (opOf (opField c)) (scrAtStart (opOf (opField c)) s.regs.nkeys)
    have idle : firstPhase (opOf (opField c)) (scrAtStart (opOf (opField c)) s.regs.nkeys) ≠ .idle := by
      rintro idle
      rw [idle] at runs
      cases runs
    rw [started]
    constructor <;> simp [State.started, runs, idle]

theorem State.Inv.of_hostWrite {s : State} {w : HostWrite} (h : s.Inv) (canonical : (s.hostWrite w).Canonical) :
    (s.hostWrite w).Inv := by
  have frame := (s.hostWrite_frame w).1
  have host := congrArg State.host frame
  have seen := congrArg State.seen frame
  have draws := congrArg State.draws frame
  exact h.of_same canonical (by rw [host, seen, draws]; exact frame)

/-- Settles O50: the start step, RESET and the engine lead to a state with the invariant; other turns of the host do not
touch what it speaks of, but for the stores' form. -/
theorem stepKeepsInvariant : Obligations.StepKeepsInvariant := by
  intro s t h steps
  have canonical := stepKeepsStoresCanonical s t h.canonical steps
  have turned : ∀ l, ({ s with host := l } : State).Inv := fun l =>
    h.of_same ⟨h.canonical.inBuf, h.canonical.outBuf, h.canonical.keys⟩ rfl
  obtain ⟨c, rest, -, -, starts⟩ | ⟨rest, -, rfl⟩ | ⟨w, rest, -, rfl⟩ | ⟨r, rest, -, rfl⟩ | ⟨c, rest, -, -, rfl⟩ |
    ⟨rest, -, -, rfl⟩ | ⟨l, -, -, moves⟩ := step_cases steps
  · exact (turned rest).of_commandStep canonical starts
  · exact State.resetBlock_inv _
  · exact (turned rest).of_hostWrite canonical
  · obtain ⟨v, d, value⟩ := State.hostRead_frame { s with host := rest } r
    rw [value]
    exact h.of_same ⟨h.canonical.inBuf, h.canonical.outBuf, h.canonical.keys⟩ rfl
  · exact turned rest
  · exact h.of_same canonical rfl
  · exact (turned l).of_engineStep moves

/-- A step has a next state, or is the engine's. -/
theorem step_next_or_engine (s : State) : (∃ t, step s = .next t) ∨ ∃ l, step s = engineStep { s with host := l } := by
  cases turn : s.host with
  | nil => exact .inr ⟨s.host, step_of_host_nil turn⟩
  | cons x rest =>
    cases x with
    | engine => exact .inr ⟨rest, by simp [step, State.nextTurn, turn]⟩
    | reset => exact .inl ⟨_, step_of_reset turn⟩
    | read r => exact .inl ⟨_, step_of_read turn⟩
    | write w => exact .inl ⟨_, step_of_write turn⟩
    | poll =>
      by_cases busy : s.regs.status = .busy
      · refine .inr ⟨s.host, ?_⟩
        simp only [step, State.nextTurn, turn, if_pos busy]
        rw [← turn]
      · exact .inl ⟨_, by
          simp only [step, State.nextTurn, turn, if_neg busy]
          rfl⟩
    | writeCmd c =>
      by_cases busy : s.regs.status = .busy
      · exact .inl ⟨_, step_of_writeCmd_busy turn busy⟩
      · obtain ⟨t, starts, -⟩ := commandStartStep { s with host := rest } c busy
        exact .inl ⟨t, (step_of_writeCmd turn busy).trans starts⟩

/-- Settles O51: only the engine can be refused, and it proceeds from every sound state. -/
theorem noFaultsInARun : Obligations.NoFaultsInARun := by
  intro s h
  obtain ⟨t, steps⟩ | ⟨l, steps⟩ := step_next_or_engine s
  · simp [steps]
  · have turned : ({ s with host := l } : State).Inv :=
      h.of_same ⟨h.canonical.inBuf, h.canonical.outBuf, h.canonical.keys⟩ rfl
    obtain ⟨t, next, -⟩ | ⟨i, inside, refused, unwritten⟩ := (State.inv_iff.1 turned).2.2.2.proceeds
    · simp [steps, next]
    · rw [steps, refused]
      refine ⟨fun f other => (nomatch other), fun r refusal => ⟨i, inside, ?_, unwritten⟩⟩
      cases refusal
      rfl

end Sys2Proof.Machine
end

section
namespace Sys2Proof.Machine

/-! ### The outcomes of each phase's step on written input -/

/-- What the reader still has to read depends on its place, the path and the input alone. -/
theorem State.unreadBits_congr {s t : State} (lat : t.lat = s.lat) (pack : t.pack = s.pack) (read : t.read = s.read)
    (inBuf : t.inBuf = s.inBuf) : t.unreadBits = s.unreadBits := by
  have adapter : t.adapter = s.adapter := by simp only [State.adapter, lat]
  have source : t.nextSym = s.nextSym := by
    funext i
    simp only [State.nextSym, lat, pack, adapter, inBuf]
  simp only [State.unreadBits, read, lat, adapter, source]

theorem length_streamFrom_le (bpc : Nat) (src : Nat → Load) : ∀ n i, (streamFrom bpc src n i).length ≤ bpc * n
  | 0, _ => Nat.zero_le _
  | n + 1, i => by
    have rest := length_streamFrom_le bpc src n (i + 1)
    rw [streamFrom, Nat.mul_succ]
    split
    · rw [List.length_append, fieldBits_length]
      omega
    · exact Nat.zero_le _

/-- At the start of the symbols there are BPC bits of each to read. -/
theorem State.length_unreadBits_le {s : State} (mask : s.read.rmask = 0) :
    s.unreadBits.length ≤ bpcOf s.adapter * s.lat.nL := by
  have rest := length_streamFrom_le (bpcOf s.adapter) s.nextSym (s.lat.nL - s.read.ridx) s.read.ridx
  have fewer : bpcOf s.adapter * (s.lat.nL - s.read.ridx) ≤ bpcOf s.adapter * s.lat.nL :=
    Nat.mul_le_mul_left _ (Nat.sub_le ..)
  simp only [State.unreadBits, Reader.bitsLeft, mask, if_true, fieldBits, List.nil_append]
  exact rest.trans fewer

/-- A later token is no shorter than its code field. -/
theorem le_length_encode_later {n : Nat} {i : Instr} (h : i.wellFormed (.later n) = true) :
    3 ≤ (encode (.later n) i).length := by
  have place := (Instr.wellFormed_iff.1 h).1
  cases i with
  | lit8 v | lit16 v | eos | ref k =>
    have wide : 3 ≤ n := by simpa [Instr.fitsPlace] using place
    simp only [encode, encodeFields, FetchContext.numBits, List.flatMap_cons, List.length_append, fieldBits_length]
    omega
  | _ => cases place

/-- Executing a fetched token moves no reader. -/
theorem exec_laterToken_unread {s t : State} {code v : Nat} (h : exec (laterToken code v) s = .next t) :
    t.Failed ∨ t.unreadBits = s.unreadBits := by
  have literal : ∀ u, (s.literal u).outcome = .next t → t.Failed ∨ t.unreadBits = s.unreadBits := by
    intro u runs
    obtain done | ⟨-, w, raised⟩ := s.literal_cases u
    · rw [done] at runs
      cases runs
      exact .inr (State.unreadBits_congr rfl rfl rfl rfl)
    · rw [raised] at runs
      cases runs
      exact .inl (w.raise_failed _)
  obtain _ | _ | _ | code := code
  · exact literal _ h
  · exact literal _ h
  · cases h
    exact .inr (State.unreadBits_congr rfl rfl rfl rfl)
  · obtain failed | ⟨a, done⟩ := Eff.failed_or_ok h
    · exact .inl failed
    · obtain ⟨e, u, resolves, tail⟩ := Eff.bind_eq_ok.1 done
      obtain ⟨rfl, -⟩ := State.resolveRef_ok resolves
      obtain ⟨x, -, rfl⟩ := State.commonTail_ok tail
      exact .inr (State.unreadBits_congr rfl rfl rfl rfl)

/-- Every token takes bits off the stream. -/
theorem State.Sound.decode_unread {s t : State} (h : s.Sound) (later : s.phase = .decode) (steps : engineStep s = .next t) :
    t.Failed ∨ t.unreadBits.length + 3 ≤ s.unreadBits.length := by
  have reader := h.reader (.inr later)
  obtain ⟨-, wide, -, -⟩ := (h.decoder (.inr later)).later later
  obtain failed | ⟨i, u, fetch, runs⟩ := Eff.failed_or_token ((engineStep_of_decode later).symm.trans steps)
  · exact .inl failed
  cases decoded : decode (.later s.codec.numBits) s.unreadBits with
  | error e =>
    obtain rfl := decode_later_error decoded
    obtain ⟨q, -, stops⟩ := State.fetchLater_of_short reader.legal decoded
    obtain ⟨-, v, other, -⟩ | ⟨-, ⟨-, v, other, -⟩ | ⟨j, -, other⟩ | ⟨j, -, other⟩⟩ := stops <;>
      cases fetch.symm.trans other
  | ok result =>
    obtain ⟨j, rest⟩ := result
    obtain ⟨r, code, fetched, -, unread, -⟩ := State.fetchLater_of_decode reader.legal decoded
    obtain ⟨wellFormed, bits⟩ := encode_of_decode_later wide decoded
    have three := le_length_encode_later wellFormed
    cases fetch.symm.trans fetched
    obtain ⟨code, v, rfl⟩ := State.fetchLater_token fetch
    refine (exec_laterToken_unread runs).imp_right fun same => ?_
    rw [same, unread, bits, List.length_append]
    omega

theorem State.Sound.decodeFirst_unread {s t : State} (h : s.Sound) (first : s.phase = .decodeFirst)
    (steps : engineStep s = .next t) : t.Failed ∨ t.unreadBits.length + 3 ≤ s.unreadBits.length := by
  have reader := h.reader (.inl first)
  obtain failed | ⟨i, u, fetch, runs⟩ := Eff.failed_or_token ((engineStep_of_decodeFirst first).symm.trans steps)
  · exact .inl failed
  cases decoded : decode .first s.unreadBits with
  | error e =>
    obtain rfl | rfl := decode_first_error decoded
    · obtain ⟨q, -, stops⟩ := State.fetchFirst_of_short reader.legal decoded
      obtain ⟨-, v, other, -⟩ | ⟨-, ⟨-, v, other, -⟩ | ⟨j, -, other⟩ | ⟨j, -, other⟩⟩ := stops <;>
        cases fetch.symm.trans other
    · obtain ⟨r, raised, -⟩ := State.fetchFirst_of_badFirst reader.legal decoded
      cases fetch.symm.trans raised
  | ok result =>
    obtain ⟨j, rest⟩ := result
    obtain ⟨r, fetched, -, unread⟩ := State.fetchFirst_of_decode reader.legal decoded
    cases fetch.symm.trans fetched
    have literal : ∀ u, (State.firstLiteral { s with read := r } u).outcome = .next t → t.Failed ∨ t.unreadBits = rest := by
      intro u runs
      obtain done | ⟨-, w, raised⟩ := State.firstLiteral_cases { s with read := r } u
      · rw [done] at runs
        cases runs
        exact .inr ((State.unreadBits_congr rfl rfl rfl rfl).trans unread)
      · rw [raised] at runs
        cases runs
        exact .inl (w.raise_failed _)
    obtain ⟨wellFormed, bits⟩ := encode_of_decode_first decoded
    rw [bits, List.length_append]
    cases i with
    | firstLit8 v | firstLit16 v =>
      refine (literal _ runs).imp_right fun same => ?_
      simp only [same, encode, encodeFields, List.flatMap_cons, List.length_append, fieldBits_length]
      omega
    | _ => cases (Instr.wellFormed_iff.1 wellFormed).1

/-- Every step of ENCODE takes the next unit, or ends the pass with a symbol at least; where it raises, a capacity is
finite (R100). -/
theorem State.Sound.encode_step {s : State} (h : s.Sound) (encode : s.phase = .encode) (written : s.InputWritten s.lat.nL) :
    (¬s.Unbounded ∧ ∃ t : State, engineStep s = .next (t.raise .capacity)) ∨
      (s.codec.idx < s.lat.nL ∧ ∃ c q, c.idx = s.codec.idx + 1 ∧
        engineStep s = .next { s with codec := c, pack := q }) ∨
      (s.lat.nL ≤ s.codec.idx ∧ ∃ c q, q.sym ≠ [] ∧ engineStep s = .next { s with
        codec := c, pack := q, phase := if s.lat.scr then .scramble else .output }) := by
  have running : s.phase.isRunning = true := by rw [encode]; rfl
  have encoder := h.encoder encode
  have sound := (h.packer running).sound encode
  by_cases more : s.codec.idx < s.lat.nL
  · have steps := engineStep_of_encStep encode more
    obtain ⟨u, read⟩ := Option.ne_none_iff_exists'.1 (written _ more)
    obtain ⟨finite, t, raised⟩ | ⟨-, done⟩ | ⟨-, -, tok, c, q, -, restarted, -, done⟩ := encoder.encStep_cases sound read
    · refine .inl ⟨fun ⟨_, outMax, _, dictMax⟩ => ?_, t, by rw [steps, raised]; rfl⟩
      exact finite.elim (· outMax) (· dictMax)
    · exact .inr (.inl ⟨more, _, s.pack, rfl, by rw [steps, done]; rfl⟩)
    · exact .inr (.inl ⟨more, c, q, by rw [restarted.rest], by rw [steps, done]; rfl⟩)
  · have all := Nat.not_lt.1 more
    have steps := engineStep_of_encFinish encode all
    obtain ⟨tok, emits⟩ := encoder.exists_emits (h.latch running).input all
    obtain ⟨-, c, p, r, -, -, -, -, done⟩ | ⟨beyond, t, raised⟩ := State.encFinish_of_emits emits sound
    · exact .inr (.inr ⟨all, c, { pval := 0, ppos := 0, sym := p.sym ++ [r] }, by simp, by rw [steps, done]; rfl⟩)
    · refine .inl ⟨fun ⟨_, outMax, _, _⟩ => ?_, t, by rw [steps, raised]; rfl⟩
      rw [outMax] at beyond
      cases beyond

/-- The engine takes no turn of the host. -/
theorem engineStep_alone {s t : State} (alone : s.host = []) (h : engineStep s = .next t) : t.host = [] := by
  obtain leads | ⟨-, -, rfl⟩ := engineStep_cases h
  · exact leads.keeps.2.2.2.trans alone
  · exact alone

/-! ### A command's run (R100, R130, R214) -/

/-- How many steps the engine may still take, at most. -/
def State.stepsLeft (s : State) : Nat :=
  match s.phase with
  | .idle | .finished => 0
  | .encode => s.lat.nL - s.codec.idx + s.lat.kL + 2
  | .scramble => s.lat.kL - s.scr.skey + 1
  | .output => 1
  | .unscramble =>
    if s.pack.sym.length < s.lat.nL then s.lat.nL - s.pack.sym.length + s.lat.kL + (5 * s.lat.nL + 2)
    else s.scr.skey + 1 + (5 * s.lat.nL + 2)
  | .decodeFirst | .decode => s.unreadBits.length / 3 + 2

/-- How a command on written input stands between two steps of its run. -/
inductive State.Standing (s : State) : Prop where
  | running (running : s.phase.isRunning = true) (status : s.regs.status = .busy) (cause : s.regs.errCode = .none)
  | done (finished : s.phase = .finished) (status : s.regs.status = .done) (cause : s.regs.errCode = .none)
      (output : s.regs.outLen ≠ 0)
  | failed (finished : s.phase = .finished) (status : s.regs.status = .error)
      (reason : isCompress s.lat.op = true → ¬s.Unbounded)

/-- What the engine keeps past the start step of a command on written input, the host being silent. -/
structure State.Going (s : State) : Prop where
  alone    : s.host = []
  sound    : s.Sound
  written  : s.InputWritten s.lat.nL
  standing : s.Standing
  symbols  : s.phase = .scramble ∨ (s.phase = .output ∧ isCompress s.lat.op = true) → s.pack.sym ≠ []

/-- OUTPUT copies at least one unit. -/
theorem State.Going.outputUnits_ne_nil {s : State} (h : s.Going) (output : s.phase = .output) : s.outputUnits ≠ [] := by
  cases compress : isCompress s.lat.op with
  | true => simp [State.outputUnits_of_compress compress, h.symbols (.inr ⟨output, compress⟩)]
  | false =>
    rw [State.outputUnits_of_decompress compress]
    exact h.sound.result output compress

/-- What the engine keeps, but for why it fails and the symbols it has for OUTPUT. -/
theorem State.Going.of_engineStep {s t : State} (h : s.Going) (running : s.phase.isRunning = true)
    (steps : engineStep s = .next t) (reason : t.Failed → isCompress s.lat.op = true → ¬s.Unbounded)
    (symbols : t.phase = .scramble ∨ (t.phase = .output ∧ isCompress s.lat.op = true) → t.pack.sym ≠ []) : t.Going := by
  obtain ⟨⟨-, inBuf, -, -, -, cfg⟩, lat⟩ := engineStep_sameInputs steps
  have same : t.Unbounded ↔ s.Unbounded := by simp only [State.Unbounded, cfg]
  rw [← lat, ← same] at reason
  rw [← lat] at symbols
  have standing : t.Standing := by
    obtain ⟨-, busy, cause⟩ | ⟨finished, -⟩ | ⟨finished, -⟩ := h.standing
    · obtain ⟨u, c, framed, -, rfl⟩ | ⟨output, rfl⟩ | ⟨framed, runs⟩ := engineStep_cases_of_running running busy steps
      · exact .failed rfl rfl (reason (u.raise_failed c))
      · exact .done rfl rfl cause fun none => h.outputUnits_ne_nil output (List.length_eq_zero_iff.1 none)
      · exact .running runs (by rw [framed.regs, busy]) (by rw [framed.regs, cause])
    · rw [finished] at running
      cases running
    · rw [finished] at running
      cases running
  have written : t.InputWritten t.lat.nL := by
    rw [State.InputWritten, inBuf, lat]
    exact h.written
  exact ⟨engineStep_alone h.alone steps, h.sound.of_engineStep steps, written, standing, symbols⟩

/-- A decompress command keeps going, whatever its step. -/
theorem State.Going.of_decompress {s t : State} (h : s.Going) (running : s.phase.isRunning = true)
    (decompress : isCompress s.lat.op = false) (steps : engineStep s = .next t) : t.Going := by
  have other : isCompress s.lat.op ≠ true := by simp [decompress]
  refine h.of_engineStep running steps (fun _ compress => absurd compress other) ?_
  rintro (scramble | ⟨-, compress⟩)
  · have compress := ((h.sound.of_engineStep steps).latch (by rw [scramble]; rfl)).encodes (.inr scramble)
    rw [(engineStep_sameInputs steps).2] at compress
    exact absurd compress other
  · exact absurd compress other

/-- The step of `s` leads to a state that keeps going and has fewer steps left. -/
def State.Advances (s : State) : Prop := ∃ t, engineStep s = .next t ∧ t.Going ∧ t.stepsLeft < s.stepsLeft

theorem State.Going.encode_advances {s : State} (h : s.Going) (encode : s.phase = .encode) : s.Advances := by
  have running : s.phase.isRunning = true := by rw [encode]; rfl
  obtain ⟨finite, u, steps⟩ | ⟨more, c, q, idx, steps⟩ | ⟨all, c, q, some, steps⟩ := h.sound.encode_step encode h.written
  · exact ⟨_, steps, h.of_engineStep running steps (fun _ _ => finite) (by simp), by simp [State.stepsLeft, encode]⟩
  · refine ⟨_, steps, h.of_engineStep running steps (by simp [State.Failed, encode]) (by simp [encode]), ?_⟩
    simp only [State.stepsLeft, encode, idx]
    omega
  · refine ⟨_, steps, h.of_engineStep running steps ?_ (fun _ => some), ?_⟩
    · rintro ⟨finished, -⟩
      cases scr : s.lat.scr <;> simp [scr] at finished
    · cases scr : s.lat.scr <;> simp [State.stepsLeft, encode]
      omega

theorem State.Going.scramble_advances {s : State} (h : s.Going) (scramble : s.phase = .scramble) : s.Advances := by
  have running : s.phase.isRunning = true := by rw [scramble]; rfl
  have walk := h.sound.scramble scramble
  have steps := engineStep_of_scramble scramble
  have kept : s.scrambleMove.pack.sym ≠ [] := by
    rw [s.scrambleMove_pack]
    simpa [maskSymbols] using h.symbols (.inl scramble)
  have succeeds : ¬s.scrambleMove.Failed := by
    rintro ⟨finished, -⟩
    rw [State.scrambleMove_phase] at finished
    split at finished <;> cases finished
  refine ⟨_, steps, h.of_engineStep running steps (fun failed => absurd failed succeeds) (fun _ => kept), ?_⟩
  by_cases last : s.scr.skey + 1 < s.lat.kL
  · have next : s.scrambleMove.phase = .scramble := if_pos last
    simp only [State.stepsLeft, scramble, next]
    show s.lat.kL - (s.scr.skey + 1) + 1 < _
    omega
  · have next : s.scrambleMove.phase = .output := if_neg last
    simp only [State.stepsLeft, scramble, next]
    omega

theorem State.Going.output_advances {s : State} (h : s.Going) (output : s.phase = .output) : s.Advances := by
  have running : s.phase.isRunning = true := by rw [output]; rfl
  have steps := engineStep_of_output output
  cases beyond : isCompress s.lat.op && exceeds s.outputUnits.length s.cfg.outMax with
  | true =>
    rw [State.outputMove_of_beyond beyond] at steps
    have finite : ¬s.Unbounded := by
      rintro ⟨-, outMax, -⟩
      rw [outMax, Bool.and_eq_true] at beyond
      cases beyond.2
    exact ⟨_, steps, h.of_engineStep running steps (fun _ _ => finite) (by simp), by simp [State.stepsLeft, output]⟩
  | false =>
    rw [State.outputMove_of_within beyond] at steps
    exact ⟨_, steps, h.of_engineStep running steps (by simp [State.Failed, State.outputDone]) (by simp [State.outputDone]),
      by simp [State.stepsLeft, output, State.outputDone]⟩

theorem State.Failed.stepsLeft {t : State} (h : t.Failed) : t.stepsLeft = 0 := by simp [State.stepsLeft, h.1]

theorem State.Sound.unscramble_stepsLeft {s t : State} (h : s.Sound) (unscramble : s.phase = .unscramble)
    (steps : engineStep s = .next t) : t.stepsLeft < s.stepsLeft := by
  have latch := h.latch (by rw [unscramble]; rfl)
  have facts := h.unscramble unscramble
  have scr := latch.keyed (.inr unscramble)
  have keys : 1 ≤ s.lat.kL := (scrAtStart_eq_true.1 (latch.scr.symm.trans scr)).2
  have moves := (engineStep_of_unscramble unscramble).symm.trans steps
  by_cases short : s.pack.sym.length < s.lat.nL
  · have left : s.stepsLeft = s.lat.nL - s.pack.sym.length + s.lat.kL + (5 * s.lat.nL + 2) := by
      simp only [State.stepsLeft, unscramble, if_pos short]
    rw [State.unscrambleMove_of_short short, State.convertUnit_eq] at moves
    split at moves
    · cases moves
    · cases moves
    · cases moves
      rw [left, (s.raise_failed _).stepsLeft]
      omega
    · rename_i r load
      cases moves
      rw [left]
      have length : (s.converted r).pack.sym.length = s.pack.sym.length + 1 := by simp [State.converted_pack]
      simp only [State.stepsLeft, s.converted_phase, unscramble, length, s.converted_lat]
      split
      · omega
      · rename_i full
        rw [State.converted, if_neg full]
        show s.lat.kL - 1 + 1 + _ < _
        omega
  · have left : s.stepsLeft = s.scr.skey + 1 + (5 * s.lat.nL + 2) := by
      simp only [State.stepsLeft, unscramble, if_neg short]
    rw [State.unscrambleMove_of_full (Nat.not_lt.1 short)] at moves
    cases moves
    rw [left]
    by_cases last : s.scr.skey = 0
    · have next : s.unscrambleKey.phase = .decodeFirst := if_pos last
      have unread := State.length_unreadBits_le (s := s.unscrambleKey) facts.mask
      rw [State.adapter_of_scr (s := s.unscrambleKey) scr] at unread
      have unread : s.unscrambleKey.unreadBits.length ≤ 15 * s.lat.nL := unread
      simp only [State.stepsLeft, next]
      omega
    · have next : s.unscrambleKey.phase = .unscramble := if_neg last
      have full : ¬s.unscrambleKey.pack.sym.length < s.lat.nL := by
        rw [s.unscrambleKey_pack]
        simpa [maskSymbols] using short
      have value : s.unscrambleKey.stepsLeft = s.scr.skey - 1 + 1 + (5 * s.lat.nL + 2) := by
        simp only [State.stepsLeft, next]
        exact if_neg full
      omega

theorem State.Sound.decodeFirst_stepsLeft {s t : State} (h : s.Sound) (first : s.phase = .decodeFirst)
    (steps : engineStep s = .next t) : t.stepsLeft < s.stepsLeft := by
  have left : s.stepsLeft = s.unreadBits.length / 3 + 2 := by simp only [State.stepsLeft, first]
  rw [left]
  obtain failed | taken := h.decodeFirst_unread first steps
  · rw [failed.stepsLeft]
    omega
  obtain failed | next := engineStep_phase_decodeFirst first steps
  · rw [failed.stepsLeft]
    omega
  · simp only [State.stepsLeft, next]
    omega

theorem State.Sound.decode_stepsLeft {s t : State} (h : s.Sound) (later : s.phase = .decode)
    (steps : engineStep s = .next t) : t.stepsLeft < s.stepsLeft := by
  have left : s.stepsLeft = s.unreadBits.length / 3 + 2 := by simp only [State.stepsLeft, later]
  rw [left]
  obtain failed | taken := h.decode_unread later steps
  · rw [failed.stepsLeft]
    omega
  obtain failed | next | next := engineStep_phase_decode later steps
  · rw [failed.stepsLeft]
    omega
  · simp only [State.stepsLeft, next]
    omega
  · simp only [State.stepsLeft, next]
    omega

/-- A running command on written input moves on, and has fewer steps left. -/
theorem State.Going.advances {s : State} (h : s.Going) (running : s.phase.isRunning = true) : s.Advances := by
  have latch := h.sound.latch running
  have decoding : isCompress s.lat.op = false → (∀ t, engineStep s = .next t → t.stepsLeft < s.stepsLeft) →
      s.Advances := by
    intro decompress fewer
    obtain ⟨t, steps, -⟩ | ⟨i, inside, -, unwritten⟩ := h.sound.proceeds
    · exact ⟨t, steps, h.of_decompress running decompress steps, fewer t steps⟩
    · exact absurd unwritten (h.written i inside)
  cases phase : s.phase with
  | idle =>
    rw [phase] at running
    cases running
  | finished =>
    rw [phase] at running
    cases running
  | encode => exact h.encode_advances phase
  | scramble => exact h.scramble_advances phase
  | output => exact h.output_advances phase
  | unscramble => exact decoding (latch.decodes (.inl phase)) fun _ => h.sound.unscramble_stepsLeft phase
  | decodeFirst => exact decoding (latch.decodes (.inr (.inl phase))) fun _ => h.sound.decodeFirst_stepsLeft phase
  | decode => exact decoding (latch.decodes (.inr (.inr phase))) fun _ => h.sound.decode_stepsLeft phase

/-! ### Runs -/

theorem State.run_of_step {s t : State} (h : step s = .next t) (k : Nat) : s.run (k + 1) = t.run k := by
  have first : core.step s = .next t := h
  simp only [State.run, Host.Core.run, first]
  rfl

/-- A command's run ends within the steps it has left. -/
theorem State.Going.exists_run (n : Nat) : ∀ {s : State}, s.Going → s.stepsLeft ≤ n →
    ∃ k t, k ≤ n ∧ s.run k = .next t ∧ t.phase = .finished ∧ t.Standing ∧ t.lat = s.lat ∧ t.cfg = s.cfg := by
  induction n with
  | zero =>
    intro s h none
    obtain ⟨running, -⟩ | ⟨finished, -⟩ | ⟨finished, -⟩ := h.standing
    · obtain ⟨t, -, -, fewer⟩ := h.advances running
      omega
    · exact ⟨0, s, le_rfl, rfl, finished, h.standing, rfl, rfl⟩
    · exact ⟨0, s, le_rfl, rfl, finished, h.standing, rfl, rfl⟩
  | succ n ih =>
    intro s h left
    obtain ⟨running, -⟩ | ⟨finished, -⟩ | ⟨finished, -⟩ := h.standing
    · obtain ⟨t, steps, going, fewer⟩ := h.advances running
      obtain ⟨k, u, few, run, finished, standing, lat, cfg⟩ := ih going (by omega)
      obtain ⟨⟨-, -, -, -, -, sameCfg⟩, sameLat⟩ := engineStep_sameInputs steps
      exact ⟨k + 1, u, by omega, (State.run_of_step ((step_of_host_nil h.alone).trans steps) k).trans run, finished,
        standing, lat.trans sameLat, cfg.trans sameCfg⟩
    · exact ⟨0, s, Nat.zero_le _, rfl, finished, h.standing, rfl, rfl⟩
    · exact ⟨0, s, Nat.zero_le _, rfl, finished, h.standing, rfl, rfl⟩

/-- The started state of a command on written input keeps going. -/
theorem State.started_going {s : State} {op : Op} {a : Alphabet} (alone : s.host = []) (input : s.regs.inLen ≠ 0)
    (written : s.InputWritten s.regs.inLen) (plain : isScrambled op = true → a = .raw) :
    (s.started op a (scrAtStart op s.regs.nkeys) (firstPhase op (scrAtStart op s.regs.nkeys))).Going where
  alone := alone
  sound := State.started_sound input plain
  written := written
  standing := .running (firstPhase_isRunning ..) rfl rfl
  symbols := by
    have phase : ∀ scr, firstPhase op scr ≠ .scramble ∧ firstPhase op scr ≠ .output := by
      cases op <;> rintro (_ | _) <;> decide
    rintro (scramble | ⟨output, -⟩)
    · exact absurd scramble (phase _).1
    · exact absurd output (phase _).2

theorem State.run_withCommand {s t : State} {c : Byte} (free : s.regs.status ≠ .busy)
    (starts : commandStep c { s with host := [] } = .next t) (k : Nat) : (s.withCommand c).run (k + 1) = t.run k :=
  State.run_of_step ((step_of_writeCmd (s := s.withCommand c) rfl free).trans starts) k

/-- The most steps a command takes past its start step. -/
theorem State.started_stepsLeft (s : State) (op : Op) (a : Alphabet) :
    (s.started op a (scrAtStart op s.regs.nkeys) (firstPhase op (scrAtStart op s.regs.nkeys))).stepsLeft ≤
      7 * s.regs.inLen + s.regs.nkeys + 3 := by
  have decode : ∀ scr, (s.started op a scr .decodeFirst).stepsLeft ≤ 7 * s.regs.inLen + s.regs.nkeys + 3 := by
    intro scr
    have unread := State.length_unreadBits_le (s := s.started op a scr .decodeFirst) rfl
    have wide := Nat.mul_le_mul_right s.regs.inLen (bpcOf_range (s.started op a scr .decodeFirst).adapter).2
    have bits := unread.trans wide
    show (s.started op a scr .decodeFirst).unreadBits.length / 3 + 2 ≤ _
    omega
  have encode : ∀ scr, (s.started op a scr .encode).stepsLeft ≤ 7 * s.regs.inLen + s.regs.nkeys + 3 := by
    intro scr
    show s.regs.inLen - 0 + s.regs.nkeys + 2 ≤ _
    omega
  cases op with
  | compress | compressScrambled => exact encode _
  | decompress => exact decode _
  | decompressScrambled =>
    cases scr : scrAtStart .decompressScrambled s.regs.nkeys with
    | false => exact decode _
    | true =>
      show (if 0 < s.regs.inLen then s.regs.inLen - 0 + s.regs.nkeys + (5 * s.regs.inLen + 2)
        else 0 + 1 + (5 * s.regs.inLen + 2)) ≤ _
      split <;> omega

/-- Settles O54: the start step ends the command, or leaves a state that keeps going. -/
theorem everyCommandEnds : Obligations.EveryCommandEnds := by
  intro s c free written
  obtain ⟨t, starts, -⟩ := commandStartStep { s with host := [] } c free
  have run := State.run_withCommand free starts
  obtain ⟨-, -, -, cause, -, -, regs⟩ | ⟨-, -, -, empty, regs⟩ | ⟨legal, input, rfl, -⟩ := commandStep_ends starts
  · exact ⟨0, t, by omega, run 0, by simp [regs], by simp [regs]⟩
  · exact ⟨0, t, by omega, run 0, by simp [regs], fun _ _ => empty⟩
  · obtain ⟨k, u, few, ends, finished, standing, -⟩ := (State.started_going (s := { s with host := [] }) rfl input written
      (alphabet_of_legal legal)).exists_run _ (State.started_stepsLeft ..)
    refine ⟨k, u, ?_, (run k).trans ends, ?_⟩
    · have bound : k ≤ 7 * s.regs.inLen + s.regs.nkeys + 3 := few
      omega
    · obtain ⟨running, -⟩ | ⟨-, done, -, output⟩ | ⟨-, error, -⟩ := standing
      · rw [finished] at running
        cases running
      · exact ⟨.inl done, fun _ none => absurd none output⟩
      · simp [error]

/-- A command's word starts the command. -/
theorem commandStep_commandWord {op : Op} {a : Alphabet} (plain : isScrambled op = true → a = .raw) (s : State) :
    commandStep (commandWord op a) s = .next (startCommand op a s) := by
  have legal : commandOf op a ≠ none := fun none => (commandOf_eq_none.1 none).2 (plain (commandOf_eq_none.1 none).1)
  obtain ⟨i, command⟩ := Option.ne_none_iff_exists'.1 legal
  exact (commandStep_of_decode (decodeCommand_commandWord command) s).trans (exec_of_commandOf command s)

theorem State.Unbounded.fits {s : State} (h : s.Unbounded) (op : Op) : ¬s.TooBig op := by
  obtain ⟨inMax, -, nkeysMax, -⟩ := h
  simp [State.TooBig, inMax, nkeysMax]

/-- Settles O55: a compress command fails only where a capacity is finite. -/
theorem compressionAlwaysSucceeds : Obligations.CompressionAlwaysSucceeds := by
  intro s op a compress plain free unbounded written
  have starts := commandStep_commandWord plain { s with host := [] }
  have run := State.run_withCommand free starts
  have fits : ¬State.TooBig { s with host := [] } op := State.Unbounded.fits (s := { s with host := [] }) unbounded op
  by_cases empty : s.regs.inLen = 0
  · have ends := startCommand_of_empty (s := { s with host := [] }) fits empty a
    exact ⟨0, _, run 0, by rw [ends]; rfl, by rw [ends]; rfl⟩
  · rw [startCommand_of_input (s := { s with host := [] }) fits empty a] at run
    obtain ⟨k, u, -, ends, finished, standing, lat, cfg⟩ := (State.started_going (s := { s with host := [] }) rfl empty
      written plain).exists_run _ le_rfl
    refine ⟨k, u, (run k).trans ends, ?_⟩
    obtain ⟨running, -⟩ | ⟨-, done, cause, -⟩ | ⟨-, -, reason⟩ := standing
    · rw [finished] at running
      cases running
    · exact ⟨done, cause⟩
    · refine absurd ?_ (reason (by rw [lat]; exact compress))
      rw [State.Unbounded, cfg]
      exact unbounded

end Sys2Proof.Machine
end

section
namespace Sys2Proof.Machine

/-! ### Undisturbed runs of the engine -/

/-- The engine, undisturbed, takes the block from `s` to `t`. -/
def State.Runs : State → State → Prop := Relation.ReflTransGen fun s t => engineStep s = .next t

namespace State.Runs

variable {s t u : State}

theorem refl (s : State) : s.Runs s := Relation.ReflTransGen.refl

theorem of_step (h : engineStep s = .next t) : s.Runs t := Relation.ReflTransGen.single h

theorem trans (h : s.Runs t) (k : t.Runs u) : s.Runs u := Relation.ReflTransGen.trans h k

theorem step (h : s.Runs t) (k : engineStep t = .next u) : s.Runs u := Relation.ReflTransGen.tail h k

/-- What every step of the engine keeps. -/
theorem keeps (h : s.Runs t) : s.SameInputs t ∧ t.lat = s.lat := by
  induction h with
  | refl => exact ⟨⟨rfl, rfl, rfl, rfl, rfl, rfl⟩, rfl⟩
  | tail _ steps ih =>
    obtain ⟨⟨keys, inBuf, cmd, inLen, nkeys, cfg⟩, lat⟩ := ih
    obtain ⟨⟨keys', inBuf', cmd', inLen', nkeys', cfg'⟩, lat'⟩ := engineStep_sameInputs steps
    exact ⟨⟨keys'.trans keys, inBuf'.trans inBuf, cmd'.trans cmd, inLen'.trans inLen, nkeys'.trans nkeys, cfg'.trans cfg⟩,
      lat'.trans lat⟩

theorem sound (h : s.Runs t) (sound : s.Sound) : t.Sound := by
  induction h with
  | refl => exact sound
  | tail _ steps ih => exact ih.of_engineStep steps

theorem unbounded (h : s.Runs t) (unbounded : s.Unbounded) : t.Unbounded := by
  obtain ⟨⟨-, -, -, -, -, cfg⟩, -⟩ := h.keeps
  rwa [State.Unbounded, cfg]

/-- Where the host has no turn, such a run is a run of the block. -/
theorem exists_run (h : s.Runs t) (alone : s.host = []) : ∃ k, s.run k = .next t := by
  induction h using Relation.ReflTransGen.head_induction_on with
  | refl => exact ⟨0, rfl⟩
  | head steps _ ih =>
    obtain ⟨k, run⟩ := ih (engineStep_alone alone steps)
    exact ⟨k + 1, (State.run_of_step ((step_of_host_nil alone).trans steps) k).trans run⟩

end State.Runs

/-! ### The decoder follows the encoder (R105, R108, R189) -/

/-- The codes a width admits (R108 c): the codes in use and the TICKs left make 2^NUMBITS. -/
def Codec.WidthFull (n : Nat) (c : Codec) : Prop := n + c.enlargeIn = 2 ^ c.numBits

/-- An entry with its TICK keeps the codes in use below 2^NUMBITS. -/
theorem Codec.WidthFull.tick {n : Nat} {c : Codec} (h : c.WidthFull n) (counter : 1 ≤ c.enlargeIn) :
    c.tick.WidthFull (n + 1) := by
  unfold Codec.WidthFull at *
  by_cases last : c.enlargeIn = 1
  · rw [Codec.tick_of_enlargeIn_eq_one last]
    show n + 1 + 2 ^ c.numBits = 2 ^ (c.numBits + 1)
    rw [pow_succ]
    omega
  · rw [Codec.tick_of_two_le_enlargeIn (by omega)]
    show n + 1 + (c.enlargeIn - 1) = 2 ^ c.numBits
    omega

theorem Codec.WidthFull.congr {n : Nat} {c d : Codec} (h : c.WidthFull n) (numBits : d.numBits = c.numBits)
    (enlargeIn : d.enlargeIn = c.enlargeIn) : d.WidthFull n := by
  rw [Codec.WidthFull, numBits, enlargeIn]
  exact h

/-- The key that is pending, if W is one (R106). -/
def Codec.pendingKey (c : Codec) : List Str := (pendingUnit c.w c.pend).toList.map fun u => [u]

theorem Codec.pendingKey_of_pending {c : Codec} {u : CodeUnit} (w : c.w = [u]) (pending : u ∈ c.pend) :
    c.pendingKey = [[u]] := by
  rw [Codec.pendingKey, pendingUnit_eq_some.2 ⟨w, pending⟩]
  rfl

theorem Codec.pendingKey_of_not {c : Codec} (h : ¬∃ u, c.w = [u] ∧ u ∈ c.pend) : c.pendingKey = [] := by
  have none : pendingUnit c.w c.pend = none :=
    Option.eq_none_iff_forall_ne_some.2 fun u some => h ⟨u, pendingUnit_eq_some.1 some⟩
  rw [Codec.pendingKey, none]
  rfl

/-- The decoder `v`, between tokens, stands where the encoder with codec `c` is in the string `x`: same widths, DLIST the
encoder's keys but the pending one and the last (which the next token brings), and RES all of `x` up to W. -/
structure Codec.FollowedBy (c : Codec) (x : Str) (v : State) : Prop where
  later  : v.phase = .decode
  widths : v.codec.numBits = c.numBits ∧ v.codec.enlargeIn = c.enlargeIn
  full   : c.WidthFull v.codec.dictSize
  keys   : ∃ y, c.w.head? = some y ∧
    c.dict.map Prod.fst = v.dec.dlist.drop 3 ++ c.pendingKey ++ [v.codec.w ++ [y]]
  res    : v.dec.res ++ c.w = x.take c.idx

/-- The decoder `v` has executed the token `tok` of the W of the codec `b`. -/
structure Codec.CaughtUpBy (b : Codec) (tok : Instr) (x : Str) (v : State) : Prop where
  later  : v.phase = .decode
  widths : v.codec.numBits = (Nat.iterate Codec.tick (tokenTicks tok) b).numBits ∧
    v.codec.enlargeIn = (Nat.iterate Codec.tick (tokenTicks tok) b).enlargeIn
  full   : v.codec.WidthFull v.codec.dictSize
  keys   : v.dec.dlist.drop 3 = b.dict.map Prod.fst
  w      : v.codec.w = b.w
  res    : v.dec.res = x.take b.idx

/-- Where the encoder restarts at the next unit of `x`, the decoder that has caught up follows again. -/
theorem Codec.CaughtUpBy.followedBy {b c : Codec} {tok : Instr} {x : Str} {v : State} {u : CodeUnit}
    (h : b.CaughtUpBy tok x v) (restarted : b.Restarted tok u c) (pending : ∀ u ∈ b.pend, b.w = [u])
    (next : x[b.idx]? = some u) : c.FollowedBy x v := by
  obtain ⟨later, ⟨numBits, enlargeIn⟩, full, keys, w, res⟩ := h
  obtain ⟨pend, rest⟩ := restarted
  have widths : v.codec.numBits = c.numBits ∧ v.codec.enlargeIn = c.enlargeIn := by
    rw [rest]
    exact ⟨numBits, enlargeIn⟩
  have cw : c.w = [u] := by rw [rest]
  have new : u ∈ c.pend ↔ dictLookup b.dict [u] = none := by
    rw [pend]
    exact ⟨fun h => h.elim (fun ⟨old, other⟩ => absurd (pending u old) other) And.right, fun new => .inr ⟨rfl, new⟩⟩
  have key : c.pendingKey = (b.unitEntry u).map Prod.fst := by
    by_cases unseen : dictLookup b.dict [u] = none
    · rw [Codec.pendingKey_of_pending cw (new.2 unseen), Codec.unitEntry, if_pos unseen]
      rfl
    · rw [Codec.unitEntry, if_neg unseen, Codec.pendingKey_of_not]
      · rfl
      rintro ⟨a, single, member⟩
      obtain rfl : u = a := by simpa [cw] using single
      exact unseen (new.1 member)
  refine ⟨later, widths, full.congr widths.1.symm widths.2.symm, ⟨u, by rw [cw]; rfl, ?_⟩, ?_⟩
  · have dict : c.dict = b.dict ++ b.mismatchEntries u := by rw [rest]
    rw [dict, key, keys, w, Codec.mismatchEntries, List.map_append, List.map_append, List.append_assoc]
    rfl
  · have idx : c.idx = b.idx + 1 := by rw [rest]
    rw [cw, res, idx, List.take_add_one, next]
    rfl

/-- The codes are the places of the keys, from 3 on. -/
theorem DictSound.code {d : List (Str × Nat)} {n : Nat} (h : DictSound d n) {s : Str} {k : Nat}
    (found : dictLookup d s = some k) : 3 ≤ k ∧ (d.map Prod.fst)[k - 3]? = some s := by
  obtain ⟨i, below, entry⟩ := List.mem_iff_getElem.1 (mem_of_dictLookup found)
  have code : (d.map Prod.snd)[i]? = some k := by
    rw [List.getElem?_map, List.getElem?_eq_getElem below, entry]
    rfl
  rw [h.codes, List.getElem?_range' below] at code
  obtain rfl : 3 + 1 * i = k := Option.some.inj code
  refine ⟨by omega, ?_⟩
  rw [show 3 + 1 * i - 3 = i by omega, List.getElem?_map, List.getElem?_eq_getElem below, entry]
  rfl

/-- The literal token of a unit, in DECODE, executes that unit (R68, R106). -/
theorem exec_literalToken (u : CodeUnit) (s : State) :
    exec (if u.toNat < 256 then .lit8 (BitVec.ofNat 8 u.toNat) else .lit16 u) s = (s.literal u).outcome := by
  split
  · rename_i narrow
    have unit : literal8 (BitVec.ofNat 8 u.toNat) = u := by
      rw [literal8]
      bv_omega
    show (s.literal (literal8 _)).outcome = _
    rw [unit]
  · rfl

/-- The first token's literal is a later one's at NUMBITS 2 (R63 to R65, R121). -/
theorem exists_firstToken (u : CodeUnit) : ∃ i : Instr, i.fitsPlace .first = true ∧
    encode .first i = encode (.later 2) (if u.toNat < 256 then .lit8 (BitVec.ofNat 8 u.toNat) else .lit16 u) ∧
    ∀ s : State, exec i s = (s.firstLiteral u).outcome := by
  split
  · rename_i narrow
    have unit : literal8 (BitVec.ofNat 8 u.toNat) = u := by
      rw [literal8]
      bv_omega
    refine ⟨.firstLit8 (BitVec.ofNat 8 u.toNat), rfl, rfl, fun s => ?_⟩
    show (s.firstLiteral (literal8 _)).outcome = _
    rw [unit]
  · exact ⟨.firstLit16 u, rfl, rfl, fun s => rfl⟩

/-- The literal token of a unit is well formed at every later place. -/
theorem literalToken_wellFormed (u : CodeUnit) {n : Nat} (wide : 3 ≤ n) :
    (if u.toNat < 256 then Instr.lit8 (BitVec.ofNat 8 u.toNat) else .lit16 u).wellFormed (.later n) = true := by
  split <;> simp [Instr.wellFormed_iff, Instr.fitsPlace, Instr.codeIsNoControl, Instr.codeFits, wide]

theorem tokenTicks_literalToken (u : CodeUnit) :
    tokenTicks (if u.toNat < 256 then Instr.lit8 (BitVec.ofNat 8 u.toNat) else .lit16 u) = 2 := by
  split <;> rfl

/-- In DECODE a token at the head of the unread bits is executed. -/
theorem State.Sound.engineStep_of_token {v : State} (h : v.Sound) (later : v.phase = .decode) {i : Instr}
    {rest : List Bool} (wellFormed : i.wellFormed (.later v.codec.numBits) = true)
    (unread : v.unreadBits = encode (.later v.codec.numBits) i ++ rest) : ∃ (r : Reader) (code : Nat),
      engineStep v = exec i (v.fetched r code) ∧ (v.fetched r code).unreadBits = rest := by
  have decoded := decode_encode_later wellFormed rest
  rw [← unread] at decoded
  obtain ⟨r, code, fetch, -, left, -⟩ := State.fetchLater_of_decode (h.reader (.inr later)).legal decoded
  exact ⟨r, code, by rw [engineStep_of_decode later, fetch]; rfl, left⟩

/-- DLIST's entries past the placeholders, once more are appended. -/
theorem State.Sound.drop_dlist_append {v : State} (h : v.Sound) (later : v.phase = .decode) (es : List Str) :
    (v.dec.dlist ++ es).drop 3 = v.dec.dlist.drop 3 ++ es := by
  have decoder := h.decoder (.inr later)
  obtain ⟨four, -⟩ := decoder.later later
  exact List.drop_append_of_le_length (by rw [decoder.size]; omega)

/-- The decoder that follows executes the literal of a pending W. -/
theorem Codec.FollowedBy.literal {c : Codec} {v : State} {x : Str} {u : CodeUnit} {rest : List Bool}
    (follows : c.FollowedBy x v) (w : c.w = [u]) (pending : u ∈ c.pend) (sound : v.Sound) (unbounded : v.Unbounded)
    (unread : v.unreadBits = encode (.later c.numBits)
      (if u.toNat < 256 then .lit8 (BitVec.ofNat 8 u.toNat) else .lit16 u) ++ rest) :
    ∃ t, engineStep v = .next t ∧ t.unreadBits = rest ∧
      c.CaughtUpBy (if u.toNat < 256 then .lit8 (BitVec.ofNat 8 u.toNat) else .lit16 u) x t := by
  obtain ⟨later, ⟨numBits, enlargeIn⟩, full, ⟨y, head, keys⟩, res⟩ := follows
  obtain ⟨-, wide, -, -⟩ := (sound.decoder (.inr later)).later later
  rw [← numBits] at unread
  obtain ⟨r, code, steps, left⟩ := sound.engineStep_of_token later (literalToken_wellFormed u wide) unread
  rw [exec_literalToken] at steps
  obtain done | ⟨finite, -⟩ := State.literal_cases (v.fetched r code) u
  swap
  · exact absurd finite (not_or.2 ⟨not_not.2 unbounded.2.1, not_not.2 unbounded.2.2.2⟩)
  rw [done] at steps
  refine ⟨_, steps, (State.unreadBits_congr rfl rfl rfl rfl).trans left, later, ?_, ?_, ?_, w.symm, ?_⟩
  · rw [tokenTicks_literalToken]
    exact Codec.iterate_tick_congr 2 numBits enlargeIn
  · have counter := sound.widths.counter
    exact (((full.congr numBits enlargeIn).tick counter).tick sound.widths.tick.counter).congr rfl rfl
  · obtain rfl : u = y := by simpa [w] using head
    rw [keys, Codec.pendingKey_of_pending w pending, List.append_assoc, ← sound.drop_dlist_append later,
      ← List.append_assoc]
    rfl
  · rw [w] at res
    exact res

/-- The code of a W that is not pending names W to the decoder that follows. -/
theorem Codec.FollowedBy.names {c : Codec} {v : State} {x : Str} {k : Nat} (follows : c.FollowedBy x v)
    (dict : DictSound c.dict c.dictSize) (found : dictLookup c.dict c.w = some k)
    (settled : ¬∃ u, c.w = [u] ∧ u ∈ c.pend) (sound : v.Sound) : 3 ≤ k ∧ v.Names k c.w := by
  obtain ⟨three, place⟩ := dict.code found
  obtain ⟨y, head, keys⟩ := follows.keys
  have decoder := sound.decoder (.inr follows.later)
  obtain ⟨four, -, started, -⟩ := decoder.later follows.later
  have size := decoder.size
  rw [keys, Codec.pendingKey_of_not settled, List.append_nil] at place
  refine ⟨three, ?_⟩
  by_cases below : k < v.codec.dictSize
  · rw [List.getElem?_append_left (by rw [List.length_drop]; omega), List.getElem?_drop] at place
    exact .inl ⟨below, by rwa [show 3 + (k - 3) = k by omega] at place⟩
  · rw [List.getElem?_append_right (by rw [List.length_drop]; omega)] at place
    rw [List.getElem?_singleton, Option.ite_none_right_eq_some, Option.some.injEq, List.length_drop] at place
    obtain ⟨last, same⟩ := place
    obtain ⟨z, zs, cons⟩ := List.exists_cons_of_ne_nil started
    rw [← same, cons] at head
    cases head
    exact .inr ⟨by omega, y, by rw [cons]; rfl, same.symm⟩

/-- The decoder that follows executes the REF of a W that is not pending. -/
theorem Codec.FollowedBy.reference {c : Codec} {v : State} {x : Str} {k : Nat} {rest : List Bool}
    (follows : c.FollowedBy x v) (dict : DictSound c.dict c.dictSize) (found : dictLookup c.dict c.w = some k)
    (settled : ¬∃ u, c.w = [u] ∧ u ∈ c.pend) (sound : v.Sound) (unbounded : v.Unbounded)
    (unread : v.unreadBits = encode (.later c.numBits) (.ref k) ++ rest) :
    ∃ t, engineStep v = .next t ∧ t.unreadBits = rest ∧ c.CaughtUpBy (.ref k) x t := by
  obtain ⟨three, named⟩ := follows.names dict found settled sound
  obtain ⟨later, ⟨numBits, enlargeIn⟩, full, ⟨y, head, keys⟩, res⟩ := follows
  obtain ⟨-, wide, -, -⟩ := (sound.decoder (.inr later)).later later
  have counter := sound.widths.counter
  have fits : k < 2 ^ v.codec.numBits := by
    have known : k ≤ v.codec.dictSize := named.elim (fun h => h.1.le) (fun h => h.1.le)
    have size := full.congr numBits enlargeIn
    rw [Codec.WidthFull] at size
    omega
  rw [← numBits] at unread
  obtain ⟨r, code, steps, left⟩ := sound.engineStep_of_token later (i := .ref k)
    (by simp [Instr.wellFormed_iff, Instr.fitsPlace, Instr.codeIsNoControl, Instr.codeFits, wide, three, fits]) unread
  obtain done | ⟨finite, -⟩ := State.reference_cases (s := v.fetched r code) named head
  swap
  · exact absurd finite (not_or.2 ⟨not_not.2 unbounded.2.1, not_not.2 unbounded.2.2.2⟩)
  have steps : engineStep v = ((v.fetched r code).reference k).outcome := steps
  rw [done] at steps
  refine ⟨_, steps, (State.unreadBits_congr rfl rfl rfl rfl).trans left, later, ?_, ?_, ?_, rfl, res⟩
  · exact Codec.iterate_tick_congr 1 numBits enlargeIn
  · exact ((full.congr numBits enlargeIn).tick counter).congr rfl rfl
  · rw [keys, Codec.pendingKey_of_not settled, List.append_nil, ← sound.drop_dlist_append later]
    rfl

/-- The decoder that follows executes the token of W when it is next in the stream. -/
theorem Codec.FollowedBy.token {s v : State} {x : Str} {tok : Instr} {rest : List Bool}
    (follows : s.codec.FollowedBy x v) (h : s.EncoderSound) (emits : s.Emits tok) (sound : v.Sound)
    (unbounded : v.Unbounded) (unread : v.unreadBits = encode (.later s.codec.numBits) tok ++ rest) :
    ∃ t, engineStep v = .next t ∧ t.unreadBits = rest ∧ s.codec.CaughtUpBy tok x t := by
  obtain ⟨k, found, ⟨u, w, pending, rfl⟩ | ⟨settled, rfl⟩⟩ := emits
  · exact follows.literal w pending sound unbounded unread
  · exact follows.reference h.dictSound found settled sound unbounded unread

/-! ### The stages of a pass (R101, R121) -/

/-- How far the decoder `v` is when the encoder's codec is `c`: no token yet, and then W empty or the first unit; or
following. -/
inductive Codec.Stage (c : Codec) (x : Str) (v : State) : Prop where
  | start (first : v.phase = .decodeFirst) (w : c.w = []) (dict : c.dict = []) (pend : c.pend = []) (idx : c.idx = 0)
      (widths : c.numBits = 2 ∧ c.enlargeIn = 2)
  | unit (u : CodeUnit) (first : v.phase = .decodeFirst) (w : c.w = [u]) (keys : c.dict.map Prod.fst = [[u]])
      (pend : c.pend = [u]) (taken : [u] = x.take c.idx) (widths : c.numBits = 2 ∧ c.enlargeIn = 2)
  | later (follows : c.FollowedBy x v)

/-- The decoder executes the token of W when it is next in the stream. -/
theorem Codec.Stage.token {s v : State} {x : Str} {tok : Instr} {rest : List Bool} (stage : s.codec.Stage x v)
    (h : s.EncoderSound) (emits : s.Emits tok) (sound : v.Sound) (unbounded : v.Unbounded)
    (unread : v.unreadBits = encode (.later s.codec.numBits) tok ++ rest) :
    ∃ t, engineStep v = .next t ∧ t.unreadBits = rest ∧ s.codec.CaughtUpBy tok x t := by
  cases stage with
  | start first w dict =>
    obtain ⟨k, found, -⟩ := emits
    rw [dict] at found
    cases found
  | unit u first w keys pend taken widths =>
    obtain ⟨k, found, ⟨u', w', pending, rfl⟩ | ⟨settled, -⟩⟩ := emits
    swap
    · exact absurd ⟨u, w, by rw [pend]; exact List.mem_singleton_self u⟩ settled
    obtain rfl : u = u' := by simpa [w] using w'
    obtain ⟨numBits, enlargeIn⟩ := widths
    have decoder := sound.decoder (.inl first)
    obtain ⟨dictSize, vNumBits, vEnlargeIn⟩ := decoder.first first
    obtain ⟨i, place, code, executes⟩ := exists_firstToken u
    rw [numBits, ← code] at unread
    have decoded := decode_encode_first place rest
    rw [← unread] at decoded
    obtain ⟨r, fetch, -, left⟩ := State.fetchFirst_of_decode (sound.reader (.inl first)).legal decoded
    have steps : engineStep v = exec i { v with read := r } := by
      rw [engineStep_of_decodeFirst first, fetch]
      rfl
    rw [executes] at steps
    obtain done | ⟨finite, -⟩ := State.firstLiteral_cases { v with read := r } u
    swap
    · exact absurd finite (not_or.2 ⟨not_not.2 unbounded.2.1, not_not.2 unbounded.2.2.2⟩)
    rw [done] at steps
    refine ⟨_, steps, (State.unreadBits_congr rfl rfl rfl rfl).trans left, rfl, ?_, ?_, ?_, w.symm, taken⟩
    · rw [tokenTicks_literalToken]
      exact Codec.iterate_tick_congr 2 (vNumBits.trans numBits.symm) (vEnlargeIn.trans enlargeIn.symm)
    · have start : v.codec.WidthFull 2 := by rw [Codec.WidthFull, vNumBits, vEnlargeIn]; rfl
      have counter := sound.widths.counter
      show Codec.WidthFull (v.codec.dictSize + 1) _
      rw [dictSize]
      exact ((start.tick counter).tick sound.widths.tick.counter).congr rfl rfl
    · rw [keys]
      show (v.dec.dlist ++ [[u]]).drop 3 = _
      have placeholders : v.dec.dlist.length = 3 := decoder.size.trans dictSize
      rw [List.drop_append_of_le_length placeholders.ge, List.drop_eq_nil_of_le placeholders.le]
      rfl
  | later follows => exact follows.token h emits sound unbounded unread

/-- Where the encoder extends its match, the decoder is as far as before. -/
theorem Codec.Stage.extended {s v : State} {x : Str} {u : CodeUnit} (stage : s.codec.Stage x v) (h : s.EncoderSound)
    (matched : dictLookup (s.codec.register u).dict (s.codec.w ++ [u]) ≠ none) (next : x[s.codec.idx]? = some u) :
    Codec.Stage { s.codec.register u with w := s.codec.w ++ [u], idx := s.codec.idx + 1 } x v := by
  have key : s.codec.w ++ [u] ∈ (s.codec.dict ++ s.codec.unitEntry u).map Prod.fst := by
    rw [← Codec.register_dict]
    exact by_contra fun absent => matched (dictLookup_eq_none.2 absent)
  rw [List.map_append, List.mem_append] at key
  cases stage with
  | start first w dict pend idx widths =>
    have new : dictLookup s.codec.dict [u] = none := by rw [dict]; rfl
    rw [Codec.register_of_new _ _ new]
    refine .unit u first (by rw [w]; rfl) (by simp [Codec.insert, dict]) (by rw [pend]; rfl) ?_ widths
    show [u] = x.take (s.codec.idx + 1)
    rw [idx] at next ⊢
    rw [List.take_add_one, next]
    rfl
  | unit a first w keys pend taken widths =>
    have long : s.codec.w ++ [u] = [a, u] := by rw [w]; rfl
    rw [long, keys, Codec.unitEntry] at key
    obtain old | new := key
    · simp at old
    · split at new <;> simp at new
  | later follows =>
    obtain ⟨later, widths, full, ⟨y, head, keys⟩, res⟩ := follows
    have started : s.codec.w ≠ [] := by
      rintro empty
      rw [empty] at head
      cases head
    have old : s.codec.w ++ [u] ∈ s.codec.dict.map Prod.fst := by
      refine key.resolve_right fun new => ?_
      rw [Codec.unitEntry] at new
      split at new
      · exact started (by simpa using new)
      · cases new
    have known : dictLookup s.codec.dict [u] ≠ none := fun absent =>
      dictLookup_eq_none.1 absent (h.units _ old u (by simp))
    have none := h.pend_eq_nil old
    have settled : s.codec.pendingKey = [] := Codec.pendingKey_of_not (by simp [none])
    rw [Codec.register_of_known _ _ known]
    refine .later ⟨later, widths, full, ⟨y, by simp [head], ?_⟩, ?_⟩
    · rw [Codec.pendingKey_of_not (by simp [none])]
      rw [settled] at keys
      exact keys
    · show v.dec.res ++ (s.codec.w ++ [u]) = x.take (s.codec.idx + 1)
      rw [← List.append_assoc, res, List.take_add_one, next]
      rfl

/-! ### The encoder's pass, and a decoder on its bits -/

/-- A stream that begins with `bits` takes every decoder, from DECODE_FIRST, to OUTPUT of the string `x`. -/
def Decodes (bits : List Bool) (x : Str) : Prop :=
  ∀ (v : State) (rest : List Bool), v.Sound → v.Unbounded → v.phase = .decodeFirst → v.unreadBits = bits ++ rest →
    ∃ t, v.Runs t ∧ t.phase = .output ∧ t.dec.res = x

/-- The buffer holds the string from index 0 on. -/
def Memory.Holds (m : Memory) (x : Str) : Prop := ∀ i < x.length, m.read i = x[i]?

/-- The encoder in its pass over `x`: a decoder of the bits packed so far is as far as it can be. -/
structure State.Encoding (s : State) (x : Str) : Prop where
  phase     : s.phase = .encode
  sound     : s.Sound
  unbounded : s.Unbounded
  length    : s.lat.nL = x.length
  input     : s.inBuf.Holds x
  follows   : ∀ (v : State) (rest : List Bool), v.Sound → v.Unbounded → v.phase = .decodeFirst →
    v.unreadBits = s.pack.bits (bpcOf s.adapter) ++ rest →
      ∃ t, v.Runs t ∧ t.unreadBits = rest ∧ s.codec.Stage x t

theorem State.Encoding.step {s : State} {x : Str} (h : s.Encoding x) (more : s.codec.idx < s.lat.nL) :
    ∃ t, engineStep s = .next t ∧ t.Encoding x ∧ t.codec.idx = s.codec.idx + 1 ∧ t.lat = s.lat := by
  obtain ⟨phase, sound, unbounded, length, input, follows⟩ := h
  have running : s.phase.isRunning = true := by rw [phase]; rfl
  have encoder := sound.encoder phase
  have steps := engineStep_of_encStep phase more
  have below : s.codec.idx < x.length := length ▸ more
  have next := List.getElem?_eq_getElem below
  have read : s.inBuf.read s.codec.idx = some x[s.codec.idx] := (input _ below).trans next
  obtain ⟨finite, -⟩ | ⟨matched, done⟩ | ⟨mismatch, key, tok, c, q, emits, restarted, packed, done⟩ :=
    encoder.encStep_cases ((sound.packer running).sound phase) read
  · exact absurd finite (not_or.2 ⟨not_not.2 unbounded.2.1, not_not.2 unbounded.2.2.2⟩)
  · rw [done] at steps
    refine ⟨_, steps, ⟨phase, sound.of_engineStep steps, unbounded, length, input,
      fun v rest vSound vUnbounded first unread => ?_⟩, rfl, rfl⟩
    obtain ⟨t, runs, left, stage⟩ := follows v rest vSound vUnbounded first unread
    exact ⟨t, runs, left, stage.extended encoder matched next⟩
  · rw [done] at steps
    refine ⟨_, steps, ⟨phase, sound.of_engineStep steps, unbounded, length, input,
      fun v rest vSound vUnbounded first unread => ?_⟩, by rw [restarted.rest], rfl⟩
    have bits : q.bits (bpcOf s.adapter) ++ rest =
        s.pack.bits (bpcOf s.adapter) ++ (encode (.later s.codec.numBits) tok ++ rest) := by
      rw [packed.bits, List.append_assoc]
    obtain ⟨t, runs, left, stage⟩ := follows v _ vSound vUnbounded first (unread.trans bits)
    obtain ⟨t', step, left', caught⟩ := stage.token encoder emits (runs.sound vSound) (runs.unbounded vUnbounded) left
    exact ⟨t', runs.step step, left', .later (caught.followedBy restarted encoder.pending next)⟩

/-- ENCODE of `s` ended in `t`, whose symbols are a stream that decodes to `x`. -/
structure State.EncodesTo (s t : State) (x : Str) : Prop where
  phase   : t.phase = if s.lat.scr then .scramble else .output
  skey    : t.scr.skey = 0
  symbols : t.pack.sym ≠ []
  decodes : Decodes (t.pack.sym.flatMap fun r => fieldBits r.toNat (bpcOf s.adapter)) x

/-- At the end of the pass: the symbols are a stream that decodes to `x`. -/
theorem State.Encoding.finish {s : State} {x : Str} (h : s.Encoding x) (all : s.lat.nL ≤ s.codec.idx) :
    ∃ t, engineStep s = .next t ∧ s.EncodesTo t x := by
  obtain ⟨phase, sound, unbounded, length, input, follows⟩ := h
  have running : s.phase.isRunning = true := by rw [phase]; rfl
  have encoder := sound.encoder phase
  have steps := engineStep_of_encFinish phase all
  have idx : s.codec.idx = x.length := Nat.le_antisymm (length ▸ encoder.idx) (length ▸ all)
  obtain ⟨tok, emits⟩ := encoder.exists_emits (sound.latch running).input all
  obtain ⟨-, c, p, r, -, packed, -, last, done⟩ | ⟨beyond, -⟩ :=
    State.encFinish_of_emits emits ((sound.packer running).sound phase)
  swap
  · rw [unbounded.2.1] at beyond
    cases beyond
  rw [done] at steps
  refine ⟨_, steps, rfl, encoder.skey, by simp, fun v rest vSound vUnbounded first unread => ?_⟩
  have flushed := Packer.bits_flushed last
  have bits : (p.sym ++ [r]).flatMap (fun r => fieldBits r.toNat (bpcOf s.adapter)) ++ rest =
      s.pack.bits (bpcOf s.adapter) ++ (encode (.later s.codec.numBits) tok ++
        (encode (.later (Nat.iterate Codec.tick (tokenTicks tok) s.codec).numBits) .eos ++
          (List.replicate (bpcOf s.adapter - p.ppos) false ++ rest))) := by
    rw [packed.bits] at flushed
    simpa [Packer.bits, fieldBits] using congrArg (· ++ rest) flushed
  obtain ⟨t, runs, left, stage⟩ := follows v _ vSound vUnbounded first (unread.trans bits)
  obtain ⟨t₁, token, left₁, caught⟩ := stage.token encoder emits (runs.sound vSound) (runs.unbounded vUnbounded) left
  have sound₁ := (runs.step token).sound vSound
  obtain ⟨-, wide, -, -⟩ := (sound₁.decoder (.inr caught.later)).later caught.later
  rw [← caught.widths.1] at left₁
  obtain ⟨q, code, eos, -⟩ := sound₁.engineStep_of_token caught.later (i := .eos)
    (by simp [Instr.wellFormed_iff, Instr.fitsPlace, Instr.codeIsNoControl, Instr.codeFits, wide]) left₁
  refine ⟨_, (runs.step token).step (eos.trans rfl), rfl, ?_⟩
  show t₁.dec.res = x
  rw [caught.res, idx, List.take_length]

/-- ENCODE's run: its steps and then ENC_FINISH. -/
theorem State.Encoding.runs (n : Nat) : ∀ {s : State} {x : Str}, s.Encoding x → x.length - s.codec.idx ≤ n →
    ∃ t, s.Runs t ∧ s.EncodesTo t x := by
  induction n with
  | zero =>
    intro s x h none
    obtain ⟨t, steps, ends⟩ := h.finish (by rw [h.length]; omega)
    exact ⟨t, .of_step steps, ends⟩
  | succ n ih =>
    intro s x h left
    by_cases more : s.codec.idx < s.lat.nL
    · obtain ⟨t, steps, encoding, idx, lat⟩ := h.step more
      obtain ⟨u, runs, ends⟩ := ih encoding (by omega)
      have adapter : t.adapter = s.adapter := by simp only [State.adapter, lat]
      obtain ⟨phase, skey, symbols, decodes⟩ := ends
      rw [lat] at phase
      rw [adapter] at decodes
      exact ⟨u, .trans (.of_step steps) runs, phase, skey, symbols, decodes⟩
    · obtain ⟨t, steps, ends⟩ := h.finish (Nat.not_lt.1 more)
      exact ⟨t, .of_step steps, ends⟩

end Sys2Proof.Machine
end

section
namespace Sys2Proof.Machine

/-! ### Both ends of a run: the start step and OUTPUT -/

/-- A written input is a string the buffer holds. -/
theorem State.InputWritten.exists_holds {s : State} {n : Nat} (h : s.InputWritten n) :
    ∃ x : Str, x.length = n ∧ s.inBuf.Holds x := by
  refine ⟨(List.range n).map fun i => (s.inBuf.read i).getD 0, by simp, fun i below => ?_⟩
  rw [List.length_map, List.length_range] at below
  obtain ⟨u, read⟩ := Option.ne_none_iff_exists'.1 (h i below)
  simp [List.getElem?_range below, read]

/-- A buffer that reads the same holds the same. -/
theorem Memory.Holds.congr {m n : Memory} {x : Str} (h : m.Holds x) (same : ∀ i < x.length, n.read i = m.read i) :
    n.Holds x := fun i below => (same i below).trans (h i below)

/-- The command `c`, written to `s`, ends DONE with the result `out`. -/
def State.Yields (s : State) (c : Byte) (out : Str) : Prop :=
  ∃ k t, (s.withCommand c).run (k + 1) = .next t ∧ t.regs.status = .done ∧ t.regs.outLen = out.length ∧ t.outBuf.Holds out

/-- OUTPUT of the document's machine. -/
theorem State.Unbounded.engineStep_of_output {s : State} (h : s.Unbounded) (output : s.phase = .output) :
    engineStep s = .next s.outputDone := by
  rw [Machine.engineStep_of_output output]
  exact State.outputMove_of_within (by rw [h.2.1]; simp [exceeds])

/-- The state the command's start step leaves where its input is not empty, no turn of the host being left. -/
def State.begun (s : State) (op : Op) (a : Alphabet) : State :=
  State.started { s with host := [] } op a (scrAtStart op s.regs.nkeys) (firstPhase op (scrAtStart op s.regs.nkeys))

/-- A command whose run comes to OUTPUT yields the units it copies. -/
theorem State.yields_of_runs {s t : State} {op : Op} {a : Alphabet} (plain : isScrambled op = true → a = .raw)
    (free : s.regs.status ≠ .busy) (unbounded : s.Unbounded) (input : s.regs.inLen ≠ 0)
    (runs : (s.begun op a).Runs t) (output : t.phase = .output) :
    s.Yields (commandWord op a) t.outputUnits := by
  have unboundedT := runs.unbounded unbounded
  obtain ⟨k, run⟩ := (runs.step (unboundedT.engineStep_of_output output)).exists_run rfl
  have starts := commandStep_commandWord plain { s with host := [] }
  rw [startCommand_of_input (s := { s with host := [] }) (State.Unbounded.fits unbounded op) input] at starts
  refine ⟨k, _, (State.run_withCommand free starts k).trans run, rfl, rfl, fun i below => ?_⟩
  rw [State.outputDone_read, if_pos below]

/-- A command on the empty input yields the empty string. -/
theorem State.yields_of_empty {s : State} {op : Op} {a : Alphabet} (plain : isScrambled op = true → a = .raw)
    (free : s.regs.status ≠ .busy) (unbounded : s.Unbounded) (empty : s.regs.inLen = 0) :
    s.Yields (commandWord op a) [] := by
  have starts := commandStep_commandWord plain { s with host := [] }
  rw [startCommand_of_empty (s := { s with host := [] }) (State.Unbounded.fits unbounded op) empty] at starts
  exact ⟨0, _, State.run_withCommand free starts 0, rfl, rfl, fun i below => absurd below (Nat.not_lt_zero i)⟩

theorem State.begun_sound {s : State} {op : Op} {a : Alphabet} (input : s.regs.inLen ≠ 0)
    (plain : isScrambled op = true → a = .raw) : (s.begun op a).Sound :=
  State.started_sound (s := { s with host := [] }) input plain

/-- A compress command begins with ENCODE. -/
theorem firstPhase_of_compress {op : Op} (compress : isCompress op = true) (scr : Bool) : firstPhase op scr = .encode := by
  cases op with
  | compress | compressScrambled => rfl
  | decompress | decompressScrambled => cases compress

/-- A decompress command without keys begins with DECODE_FIRST. -/
theorem firstPhase_of_decompress {op : Op} (decompress : isCompress op = false) : firstPhase op false = .decodeFirst := by
  cases op with
  | decompress | decompressScrambled => rfl
  | compress | compressScrambled => cases decompress

/-- The started state of a compress command is at the start of the pass over its input. -/
theorem State.begun_encoding {s : State} {op : Op} {a : Alphabet} {x : Str} (compress : isCompress op = true)
    (plain : isScrambled op = true → a = .raw) (unbounded : s.Unbounded) (some : x ≠ []) (length : s.regs.inLen = x.length)
    (input : s.inBuf.Holds x) : (s.begun op a).Encoding x := by
  have nonempty : s.regs.inLen ≠ 0 := by rwa [length, Ne, List.length_eq_zero_iff]
  refine ⟨firstPhase_of_compress compress _, State.begun_sound nonempty plain, unbounded, length, input, fun v rest _ _ first unread => ?_⟩
  exact ⟨v, .refl v, unread, .start first rfl rfl rfl rfl ⟨rfl, rfl⟩⟩

/-! ### A decoder at the head of the symbols -/

/-- The stream of symbols that all load begins with their bits. -/
theorem streamFrom_prefix {bpc : Nat} {src : Nat → Load} {sym : List Symbol}
    (loads : ∀ i r, sym[i]? = some r → src i = .symbol r) : ∀ n i, sym.length ≤ i + n →
      ∃ rest, streamFrom bpc src n i = ((sym.drop i).flatMap fun r => fieldBits r.toNat bpc) ++ rest
  | 0, i, past => ⟨[], by rw [List.drop_eq_nil_of_le (by omega)]; rfl⟩
  | n + 1, i, more => by
    by_cases inside : i < sym.length
    · obtain ⟨rest, stream⟩ := streamFrom_prefix (bpc := bpc) loads n (i + 1) (by omega)
      refine ⟨rest, ?_⟩
      rw [List.drop_eq_getElem_cons inside, List.flatMap_cons, streamFrom, loads i _ (List.getElem?_eq_getElem inside),
        List.append_assoc, ← stream]
    · exact ⟨_, by rw [List.drop_eq_nil_of_le (Nat.not_lt.1 inside)]; rfl⟩

/-- A decoder whose reader is at the start reads the bits of its symbols first. -/
theorem State.unreadBits_of_loads {s : State} {sym : List Symbol} (mask : s.read.rmask = 0) (ridx : s.read.ridx = 0)
    (few : sym.length ≤ s.lat.nL) (loads : ∀ i r, sym[i]? = some r → s.nextSym i = .symbol r) :
    ∃ rest, s.unreadBits = (sym.flatMap fun r => fieldBits r.toNat (bpcOf s.adapter)) ++ rest := by
  obtain ⟨rest, stream⟩ := streamFrom_prefix (bpc := bpcOf s.adapter) loads s.lat.nL 0 (by omega)
  refine ⟨rest, ?_⟩
  simp only [State.unreadBits, Reader.bitsLeft, mask, if_true, fieldBits, List.nil_append, ridx, Nat.sub_zero]
  exact stream

/-- Mapped symbols of BPC bits are loaded as they were (R142). -/
theorem loadInput_of_mapped {a : Adapter} {m : Memory} {sym : List Symbol} {post : List CodeUnit}
    (range : ∀ r ∈ sym, r.toNat < 2 ^ bpcOf a) (input : m.Holds (sym.map (mapSymbol a) ++ post)) {i : Nat} {r : Symbol}
    (held : sym[i]? = some r) : loadInput a m i = .symbol r := by
  have below : i < sym.length := (List.getElem?_eq_some_iff.1 held).1
  refine loadInput_of_unmap (u := mapSymbol a r) ?_
    ((unmapInvertsMap a _ r).2 ⟨range r (List.mem_of_getElem? held), rfl⟩)
  rw [input i (by simp; omega), List.getElem?_append_left (by simpa using below), List.getElem?_map, held]
  rfl

/-- DECOMPRESS of mapped symbols that decode to `x`. -/
theorem State.decompress_yields {s : State} {op : Op} {a : Alphabet} {x : Str} {sym : List Symbol} {post : List CodeUnit}
    (plain : isScrambled op = true → a = .raw) (decompress : isCompress op = false)
    (unkeyed : scrAtStart op s.regs.nkeys = false) (free : s.regs.status ≠ .busy) (unbounded : s.Unbounded)
    (length : s.regs.inLen = (sym.map (mapSymbol (adapterOf a false)) ++ post).length) (symbols : sym ≠ [])
    (range : ∀ r ∈ sym, r.toNat < 2 ^ bpcOf (adapterOf a false))
    (input : s.inBuf.Holds (sym.map (mapSymbol (adapterOf a false)) ++ post))
    (decodes : Decodes (sym.flatMap fun r => fieldBits r.toNat (bpcOf (adapterOf a false))) x) :
    s.Yields (commandWord op a) x := by
  have some : s.regs.inLen ≠ 0 := by simp [length, symbols]
  have phase : firstPhase op (scrAtStart op s.regs.nkeys) = .decodeFirst := by
    rw [unkeyed]
    exact firstPhase_of_decompress decompress
  have adapter : (s.begun op a).adapter = adapterOf a false := congrArg (adapterOf a) unkeyed
  obtain ⟨rest, unread⟩ := State.unreadBits_of_loads (s := s.begun op a) (sym := sym) rfl rfl
    (by show _ ≤ s.regs.inLen; simp [length]) (fun i r held => by
      rw [State.nextSym_of_plain unkeyed, adapter]
      exact loadInput_of_mapped range input held)
  rw [adapter] at unread
  obtain ⟨t, runs, output, res⟩ := decodes _ rest (State.begun_sound some plain) unbounded phase unread
  have units := State.outputUnits_of_decompress (s := t) (by rw [runs.keeps.2]; exact decompress)
  rw [← res, ← units]
  exact State.yields_of_runs plain free unbounded some runs output

/-! ### The round trip (R189 a) -/

/-- COMPRESS yields mapped symbols that decode to its input, and POST. -/
theorem State.compress_yields {s : State} {op : Op} {a : Alphabet} {x : Str} (plain : isScrambled op = true → a = .raw)
    (compress : isCompress op = true) (unkeyed : scrAtStart op s.regs.nkeys = false) (free : s.regs.status ≠ .busy)
    (unbounded : s.Unbounded) (length : s.regs.inLen = x.length) (some : x ≠ []) (input : s.inBuf.Holds x) :
    ∃ (sym : List Symbol) (post : List CodeUnit),
      s.Yields (commandWord op a) (sym.map (mapSymbol (adapterOf a false)) ++ post) ∧ sym ≠ [] ∧
      (∀ r ∈ sym, r.toNat < 2 ^ bpcOf (adapterOf a false)) ∧
      Decodes (sym.flatMap fun r => fieldBits r.toNat (bpcOf (adapterOf a false))) x := by
  have nonempty : s.regs.inLen ≠ 0 := by rwa [length, Ne, List.length_eq_zero_iff]
  have encoding := State.begun_encoding compress plain unbounded some length input
  have scr : (s.begun op a).lat.scr = false := unkeyed
  have adapter : (s.begun op a).adapter = adapterOf a false := congrArg (adapterOf a) unkeyed
  obtain ⟨t, runs, output, -, symbols, decodes⟩ := encoding.runs _ le_rfl
  rw [scr] at output
  rw [adapter] at decodes
  have same : t.adapter = adapterOf a false := by rw [State.adapter, runs.keeps.2]; exact adapter
  have range := ((runs.sound encoding.sound).packer (by rw [output]; rfl)).sym
  rw [same] at range
  have units := State.outputUnits_of_compress (s := t) (by rw [runs.keeps.2]; exact compress)
  rw [same] at units
  refine ⟨t.pack.sym, postUnits (adapterOf a false) t.pack.sym.length, ?_, symbols, range, decodes⟩
  rw [← units]
  exact State.yields_of_runs plain free unbounded nonempty runs output

/-- What a round trip asks: the first command's result, as the input of every block `u` that `able` admits, makes the
second yield the first's input. -/
theorem State.Yields.roundTrip {s : State} {c d : Byte} {us x : Str} {able : State → Prop} (length : s.regs.inLen = x.length)
    (input : s.inBuf.Holds x) (first : s.Yields c us)
    (second : ∀ u, able u → u.regs.inLen = us.length → u.inBuf.Holds us → u.Yields d x) :
    ∃ k t, (s.withCommand c).run (k + 1) = .next t ∧ t.regs.status = .done ∧
      ∀ u, able u → u.regs.inLen = t.regs.outLen → (∀ i < t.regs.outLen, u.inBuf.read i = t.outBuf.read i) →
        ∃ j v, (u.withCommand d).run (j + 1) = .next v ∧ v.regs.status = .done ∧
          v.regs.outLen = s.regs.inLen ∧ ∀ i < s.regs.inLen, v.outBuf.read i = s.inBuf.read i := by
  obtain ⟨k, t, run, done, outLen, output⟩ := first
  refine ⟨k, t, run, done, fun u admitted inLen same => ?_⟩
  rw [outLen] at inLen same
  obtain ⟨j, v, run', done', outLen', output'⟩ := second u admitted inLen (output.congr same)
  refine ⟨j, v, run', done', outLen'.trans length.symm, fun i below => ?_⟩
  rw [length] at below
  rw [output' i below, input i below]

/-- Settles O57: the decoder follows the encoder, token by token. -/
theorem plainRoundTrip : Obligations.PlainRoundTrip := by
  intro a s free unbounded written
  obtain ⟨x, length, input⟩ := written.exists_holds
  have empty : ∀ {t : State} {op : Op}, isScrambled op = false → t.regs.status ≠ .busy → t.Unbounded → t.regs.inLen = 0 →
      t.Yields (commandWord op a) [] := fun plain =>
    State.yields_of_empty fun scrambled => nomatch plain.symm.trans scrambled
  have trip : ∃ us, s.Yields (commandWord .compress a) us ∧ ∀ u : State, (u.regs.status ≠ .busy ∧ u.Unbounded) →
      u.regs.inLen = us.length → u.inBuf.Holds us → u.Yields (commandWord .decompress a) x := by
    cases x with
    | nil =>
      exact ⟨[], empty rfl free unbounded length.symm,
        fun u ⟨free, unbounded⟩ inLen _ => empty rfl free unbounded inLen⟩
    | cons y ys =>
      obtain ⟨sym, post, first, symbols, range, decodes⟩ := State.compress_yields (op := .compress) (a := a)
        (fun h => nomatch h) rfl rfl free unbounded length.symm (List.cons_ne_nil y ys) input
      refine ⟨_, first, fun u ⟨free, unbounded⟩ inLen holds => ?_⟩
      exact State.decompress_yields (fun h => nomatch h) rfl rfl free unbounded inLen symbols range holds decodes
  obtain ⟨us, first, second⟩ := trip
  obtain ⟨k, t, run, done, back⟩ := first.roundTrip length.symm input second
  exact ⟨k, t, run, done, fun u free unbounded => back u ⟨free, unbounded⟩⟩

end Sys2Proof.Machine
end

section
namespace Sys2Proof.Machine

/-! ### The keyed passes, run by run (R163, R166, R184) -/

/-- The symbols with the keystreams of these keys XORed in. -/
def maskKeys (m : MixChoice) (ks : List Word64) (sym : List Symbol) : List Symbol :=
  ks.foldl (fun l k => maskSymbols m k l) sym

theorem maskKeys_cons (m : MixChoice) (k : Word64) (ks : List Word64) (sym : List Symbol) :
    maskKeys m (k :: ks) sym = maskKeys m ks (maskSymbols m k sym) := rfl

theorem length_maskKeys (m : MixChoice) : ∀ (ks : List Word64) (sym : List Symbol), (maskKeys m ks sym).length = sym.length
  | [], _ => rfl
  | k :: ks, sym => by rw [maskKeys_cons, length_maskKeys m ks, maskSymbols, List.length_mapIdx]

theorem maskKeys_reverse (m : MixChoice) (ks : List Word64) (sym : List Symbol) :
    maskKeys m ks.reverse (maskKeys m ks sym) = sym := foldl_maskSymbols_reverse m ks sym

/-- SCRAMBLE's run: the passes of the keys that are left, in key order, and then OUTPUT. -/
theorem State.scramble_runs (n : Nat) : ∀ {s : State}, s.phase = .scramble → s.lat.kL = s.scr.skey + (n + 1) →
    ∃ t, s.Runs t ∧ t.phase = .output ∧
      t.pack.sym = maskKeys s.cfg.mix ((List.range' s.scr.skey (n + 1)).map s.keys.read) s.pack.sym := by
  induction n with
  | zero =>
    intro s scramble last
    have output : s.scrambleMove.phase = .output := if_neg (by omega)
    exact ⟨_, .of_step (engineStep_of_scramble scramble), output, by rw [s.scrambleMove_pack]; rfl⟩
  | succ n ih =>
    intro s scramble more
    have next : s.scrambleMove.phase = .scramble := if_pos (by omega)
    obtain ⟨t, runs, output, symbols⟩ := ih (s := s.scrambleMove) next (by
      show s.lat.kL = s.scr.skey + 1 + (n + 1)
      omega)
    refine ⟨t, .trans (.of_step (engineStep_of_scramble scramble)) runs, output, ?_⟩
    conv_rhs => rw [List.range'_succ, List.map_cons, maskKeys_cons]
    rw [symbols, s.scrambleMove_pack]
    rfl

/-- UNSCRAMBLE's key walk: the passes from key `j` down to key 0, and then DECODE_FIRST. -/
theorem State.unscrambleKeys_runs (j : Nat) : ∀ {s : State}, s.phase = .unscramble → s.lat.nL ≤ s.pack.sym.length →
    s.scr.skey = j → ∃ t, s.Runs t ∧ t.phase = .decodeFirst ∧ t.read = s.read ∧
      t.pack.sym = maskKeys s.cfg.mix ((List.range (j + 1)).map s.keys.read).reverse s.pack.sym := by
  induction j with
  | zero =>
    intro s unscramble full last
    have steps := engineStep_of_unscramble unscramble
    rw [State.unscrambleMove_of_full full] at steps
    have first : s.unscrambleKey.phase = .decodeFirst := if_pos last
    exact ⟨s.unscrambleKey, .of_step steps, first, rfl, by simp [s.unscrambleKey_pack, last, List.range_succ, maskKeys]⟩
  | succ j ih =>
    intro s unscramble full more
    have steps := engineStep_of_unscramble unscramble
    rw [State.unscrambleMove_of_full full] at steps
    have next : s.unscrambleKey.phase = .unscramble := if_neg (by omega)
    obtain ⟨t, runs, first, read, symbols⟩ := ih (s := s.unscrambleKey) next
      (by rw [s.unscrambleKey_pack]; simpa [maskSymbols] using full)
      (by show s.scr.skey - 1 = j; omega)
    refine ⟨t, .trans (.of_step steps) runs, first, read, ?_⟩
    rw [symbols, s.unscrambleKey_pack, List.range_succ (n := j + 1), List.map_append, List.reverse_append, more]
    rfl

/-- One unit's conversion: the symbols so far are the first ones of `sym`, and then one more. -/
theorem State.Sound.convert_step {s : State} {sym : List Symbol} (h : s.Sound) (unscramble : s.phase = .unscramble)
    (range : ∀ r ∈ sym, r.toNat < 2 ^ 15) (input : s.inBuf.Holds (sym.map (mapSymbol .scr15)))
    (length : s.lat.nL = sym.length) {i : Nat} (inside : i < sym.length) (taken : s.pack.sym = sym.take i) :
    engineStep s = .next (s.converted sym[i]) ∧ (s.converted sym[i]).pack.sym = sym.take (i + 1) := by
  have scr := (h.latch (by rw [unscramble]; rfl)).keyed (.inr unscramble)
  have count : s.pack.sym.length = i := by rw [taken, List.length_take]; omega
  have short : s.pack.sym.length < s.lat.nL := by omega
  have ridx : s.read.ridx = i := ((h.unscramble unscramble).convert short).trans count
  have load : loadInput s.adapter s.inBuf s.read.ridx = .symbol sym[i] := by
    rw [State.adapter_of_scr scr, ridx]
    exact loadInput_of_mapped (post := []) range (by rwa [List.append_nil]) (List.getElem?_eq_getElem inside)
  constructor
  · rw [engineStep_of_unscramble unscramble, State.unscrambleMove_of_short short, State.convertUnit_eq, load]
    rfl
  · rw [State.converted_pack, List.take_add_one, List.getElem?_eq_getElem inside, taken]
    rfl

/-- UNSCRAMBLE's conversion: the units that are left become the symbols they map from, and then the walk begins. -/
theorem State.convert_runs (n : Nat) : ∀ {s : State} {sym : List Symbol} {i : Nat}, s.Sound → s.phase = .unscramble →
    (∀ r ∈ sym, r.toNat < 2 ^ 15) → s.inBuf.Holds (sym.map (mapSymbol .scr15)) → s.lat.nL = sym.length →
    i + (n + 1) = sym.length → s.pack.sym = sym.take i →
    ∃ t, s.Runs t ∧ t.phase = .unscramble ∧ t.pack.sym = sym ∧ t.scr.skey = s.lat.kL - 1 := by
  induction n with
  | zero =>
    intro s sym i sound unscramble range input length left taken
    obtain ⟨steps, symbols⟩ := sound.convert_step unscramble range input length (by omega) taken
    refine ⟨_, .of_step steps, (s.converted_phase _).trans unscramble, ?_, ?_⟩
    · rw [symbols, List.take_of_length_le (by omega)]
    · have last : ¬s.pack.sym.length + 1 < s.lat.nL := by
        rw [taken, List.length_take]
        omega
      rw [State.converted, if_neg last]
  | succ n ih =>
    intro s sym i sound unscramble range input length left taken
    obtain ⟨steps, symbols⟩ := sound.convert_step unscramble range input length (by omega) taken
    have runs := State.Runs.of_step steps
    obtain ⟨⟨-, inBuf, -⟩, lat⟩ := runs.keeps
    obtain ⟨t, more, phase, all, skey⟩ := ih (i := i + 1) (sound.of_engineStep steps)
      ((s.converted_phase _).trans unscramble) range (by rw [inBuf]; exact input) (by rw [lat]; exact length) (by omega)
      symbols
    exact ⟨t, runs.trans more, phase, all, by rw [skey, lat]⟩

/-! ### The scrambled round trip (R189 b) -/

/-- COMPRESS_SCRAMBLED with keys yields the mapped symbols of a stream that decodes to its input, scrambled. -/
theorem State.compressScrambled_yields {s : State} {x : Str} (keyed : 1 ≤ s.regs.nkeys) (free : s.regs.status ≠ .busy)
    (unbounded : s.Unbounded) (length : s.regs.inLen = x.length) (some : x ≠ []) (input : s.inBuf.Holds x) :
    ∃ sym : List Symbol, sym ≠ [] ∧ Decodes (sym.flatMap fun r => fieldBits r.toNat 15) x ∧
      (∀ r ∈ maskKeys s.cfg.mix ((List.range s.regs.nkeys).map s.keys.read) sym, r.toNat < 2 ^ 15) ∧
      s.Yields (commandWord .compressScrambled .raw)
        ((maskKeys s.cfg.mix ((List.range s.regs.nkeys).map s.keys.read) sym).map (mapSymbol .scr15)) := by
  have nonempty : s.regs.inLen ≠ 0 := by rwa [length, Ne, List.length_eq_zero_iff]
  have encoding := State.begun_encoding (op := .compressScrambled) (a := .raw) rfl (fun _ => rfl) unbounded some length input
  have scr : (s.begun .compressScrambled .raw).lat.scr = true :=
    scrAtStart_eq_true.2 (⟨rfl, keyed⟩ : isScrambled .compressScrambled = true ∧ 1 ≤ s.regs.nkeys)
  obtain ⟨t, runs, scramble, skey, symbols, decodes⟩ := encoding.runs _ le_rfl
  rw [scr] at scramble
  rw [State.adapter_of_scr scr] at decodes
  obtain ⟨⟨keys, -, -, -, -, cfg⟩, lat⟩ := runs.keeps
  have kL : t.lat.kL = s.regs.nkeys := by rw [lat]; rfl
  obtain ⟨n, count⟩ := Nat.exists_eq_add_of_le' keyed
  obtain ⟨t', passes, output, scrambled⟩ := State.scramble_runs n scramble (by rw [skey, kL, count]; omega)
  have all := runs.trans passes
  have scr' : t'.lat.scr = true := by rw [all.keeps.2]; exact scr
  rw [skey, cfg, keys, ← List.range_eq_range', ← count] at scrambled
  have range := ((all.sound encoding.sound).packer (by rw [output]; rfl)).sym
  rw [State.adapter_of_scr scr', scrambled] at range
  have units := State.outputUnits_of_compress (s := t') (by rw [all.keeps.2]; rfl)
  rw [State.adapter_of_scr scr', scrambled, postUnits, List.append_nil] at units
  refine ⟨t.pack.sym, symbols, decodes, range, ?_⟩
  have yields := State.yields_of_runs (fun _ => rfl) free unbounded nonempty all output
  rwa [units] at yields

/-- DECOMPRESS_SCRAMBLED with the keys the symbols of a stream that decodes to `x` were scrambled with. -/
theorem State.decompressScrambled_yields {s : State} {x : Str} {sym : List Symbol} (keyed : 1 ≤ s.regs.nkeys)
    (free : s.regs.status ≠ .busy) (unbounded : s.Unbounded) (symbols : sym ≠ [])
    (decodes : Decodes (sym.flatMap fun r => fieldBits r.toNat 15) x)
    (range : ∀ r ∈ maskKeys s.cfg.mix ((List.range s.regs.nkeys).map s.keys.read) sym, r.toNat < 2 ^ 15)
    (length : s.regs.inLen = (maskKeys s.cfg.mix ((List.range s.regs.nkeys).map s.keys.read) sym).length)
    (input : s.inBuf.Holds
      ((maskKeys s.cfg.mix ((List.range s.regs.nkeys).map s.keys.read) sym).map (mapSymbol .scr15))) :
    s.Yields (commandWord .decompressScrambled .raw) x := by
  have nonempty : s.regs.inLen ≠ 0 := by rwa [length, length_maskKeys, Ne, List.length_eq_zero_iff]
  have scr : scrAtStart .decompressScrambled s.regs.nkeys = true := scrAtStart_eq_true.2 ⟨rfl, keyed⟩
  have sound := State.begun_sound (op := .decompressScrambled) (a := .raw) nonempty (fun _ => rfl)
  have unscramble : (s.begun .decompressScrambled .raw).phase = .unscramble := congrArg (firstPhase .decompressScrambled) scr
  obtain ⟨n, count⟩ := Nat.exists_eq_add_of_le' (Nat.one_le_iff_ne_zero.2 nonempty)
  obtain ⟨t, converts, unscramble₁, converted, skey⟩ := State.convert_runs n (i := 0) sound unscramble range input length
    (by rw [← length, count]; omega) rfl
  have sound₁ := converts.sound sound
  obtain ⟨⟨keys, -, -, -, -, cfg⟩, lat⟩ := converts.keeps
  have full : t.pack.sym.length = t.lat.nL := by rw [converted, lat]; exact length.symm
  have facts := sound₁.unscramble unscramble₁
  obtain ⟨t', walks, first, read, restored⟩ := State.unscrambleKeys_runs (s.regs.nkeys - 1) unscramble₁ full.ge
    (by rw [skey]; rfl)
  have all := converts.trans walks
  have sound₂ := all.sound sound
  have scr₂ : t'.lat.scr = true := by rw [all.keeps.2]; exact scr
  rw [converted, cfg, keys, Nat.sub_add_cancel keyed] at restored
  have same : t'.pack.sym = sym := restored.trans (maskKeys_reverse ..)
  obtain ⟨rest, unread⟩ := State.unreadBits_of_loads (s := t') (sym := sym) (by rw [read]; exact facts.mask)
    (by rw [read]; exact (facts.walk full).1) (by rw [← same]; exact ((sound₂.reader (.inl first)).sym scr₂).le)
    (fun i r held => State.nextSym_of_scr scr₂ (by rw [same]; exact held))
  rw [State.adapter_of_scr scr₂] at unread
  obtain ⟨v, runs, output, res⟩ := decodes t' rest sound₂ (all.unbounded unbounded) first unread
  have units := State.outputUnits_of_decompress (s := v) (by rw [(all.trans runs).keeps.2]; rfl)
  rw [← res, ← units]
  exact State.yields_of_runs (fun _ => rfl) free unbounded nonempty (all.trans runs) output

/-- Settles O58: without keys the plain path; with them the passes in reverse order take the keystreams out. -/
theorem scrambledRoundTrip : Obligations.ScrambledRoundTrip := by
  intro s free unbounded written
  obtain ⟨x, length, input⟩ := written.exists_holds
  have trip : ∃ us, s.Yields (commandWord .compressScrambled .raw) us ∧
      ∀ u : State, (u.regs.status ≠ .busy ∧ u.cfg = s.cfg ∧ u.regs.nkeys = s.regs.nkeys ∧
        ∀ i < s.regs.nkeys, u.keys.read i = s.keys.read i) →
        u.regs.inLen = us.length → u.inBuf.Holds us → u.Yields (commandWord .decompressScrambled .raw) x := by
    have bounds : ∀ {u : State}, u.cfg = s.cfg → u.Unbounded := fun cfg => by rwa [State.Unbounded, cfg]
    by_cases empty : x = []
    · subst empty
      exact ⟨[], State.yields_of_empty (fun _ => rfl) free unbounded length.symm, fun u ⟨free, cfg, _⟩ inLen _ =>
        State.yields_of_empty (fun _ => rfl) free (bounds cfg) inLen⟩
    by_cases keyed : 1 ≤ s.regs.nkeys
    · obtain ⟨sym, symbols, decodes, range, first⟩ :=
        State.compressScrambled_yields keyed free unbounded length.symm empty input
      refine ⟨_, first, fun u ⟨free, cfg, nkeys, keys⟩ inLen holds => ?_⟩
      have same : (List.range u.regs.nkeys).map u.keys.read = (List.range s.regs.nkeys).map s.keys.read := by
        rw [nkeys]
        exact List.map_congr_left fun i below => keys i (List.mem_range.1 below)
      rw [← same, ← cfg] at range holds inLen
      rw [List.length_map] at inLen
      exact State.decompressScrambled_yields (nkeys ▸ keyed) free (bounds cfg) symbols decodes range inLen holds
    · have unkeyed : ∀ op, scrAtStart op s.regs.nkeys = false := fun op => by simp [scrAtStart, keyed]
      obtain ⟨sym, post, first, symbols, range, decodes⟩ := State.compress_yields (op := .compressScrambled) (a := .raw)
        (fun _ => rfl) rfl (unkeyed _) free unbounded length.symm empty input
      exact ⟨_, first, fun u ⟨free, cfg, nkeys, _⟩ inLen holds => State.decompress_yields (fun _ => rfl) rfl
        (by rw [nkeys]; exact unkeyed _) free (bounds cfg) inLen symbols range holds decodes⟩
  obtain ⟨us, first, second⟩ := trip
  obtain ⟨k, t, run, done, back⟩ := first.roundTrip length.symm input second
  exact ⟨k, t, run, done, fun u free cfg inLen nkeys keys => back u ⟨free, cfg, nkeys, keys⟩ inLen⟩

end Sys2Proof.Machine
end

section
namespace Sys2Proof.Machine

/-! ### States that agree on what a command's result may depend on (R22, R188) -/

/-- `s`, but with all of `r` that no command's result depends on: what the block holds outside the input and the keys,
and the registers that are written before they are read (R25). -/
def State.withRest (s r : State) : State :=
  { s with
    keys := r.keys, inBuf := r.inBuf, outBuf := r.outBuf
    codec := { s.codec with c := r.codec.c }
    dec := { s.dec with cc := r.dec.cc, entry := r.dec.entry }
    scr := { r.scr with skey := s.scr.skey }
    seen := r.seen, draws := r.draws }

/-- `r` holds the input of the command of `s`, its keys, and the result so far. -/
structure State.Shares (s r : State) : Prop where
  input  : ∀ i < s.lat.nL, r.inBuf.read i = s.inBuf.read i
  keys   : s.lat.scr = true → ∀ i < s.lat.kL, r.keys.read i = s.keys.read i
  output : ∀ i < s.regs.outLen, r.outBuf.read i = s.outBuf.read i

/-- The two states agree on what the command's result may depend on. -/
def State.Agrees (s t : State) : Prop := ∃ r, t = s.withRest r ∧ s.Shares r

/-- Two answers agree: the same kind, the same value or cause, and states that agree. -/
inductive Eff.Agrees {α : Type} : Eff State α → Eff State α → Prop
  | ok (a : α) {s t : State} (h : s.Agrees t) : Agrees (.ok a s) (.ok a t)
  | raise (c : Cause) {s t : State} (h : s.Agrees t) : Agrees (.raise c s) (.raise c t)
  | fault (f : Fault) : Agrees (.fault f) (.fault f)
  | refused (r : Refusal) : Agrees (.refused r) (.refused r)

theorem Eff.Agrees.bind {α β : Type} {x y : Eff State α} {k l : α → State → Eff State β} (h : x.Agrees y)
    (next : ∀ a s t, s.Agrees t → (k a s).Agrees (l a t)) : (x.bind k).Agrees (y.bind l) := by
  cases h with
  | ok a h => exact next a _ _ h
  | raise c h => exact .raise c h
  | fault f => exact .fault f
  | refused r => exact .refused r

/-- The same operation on a part both states have. -/
theorem Eff.Agrees.lift {α σ : Type} {put put' : σ → State} (h : ∀ p, (put p).Agrees (put' p)) (x : Eff σ α) :
    (x.lift put).Agrees (x.lift put') := by
  cases x with
  | ok a p => exact .ok a (h p)
  | raise c p => exact .raise c (h p)
  | fault f => exact .fault f
  | refused r => exact .refused r

/-- A TICK, with another C. -/
theorem Codec.tick_with_c (c : Codec) (u : CodeUnit) : ({ c with c := u } : Codec).tick = { c.tick with c := u } := by
  unfold Codec.tick
  split <;> rfl

/-! ### The encoder -/

theorem State.Agrees.packToken {s t : State} (h : s.Agrees t) (i : Instr) : (s.packToken i).Agrees (t.packToken i) := by
  obtain ⟨r, rfl, input, keys, output⟩ := h
  exact .lift (put := fun p => { s with pack := p }) (put' := fun p => { s.withRest r with pack := p })
    (fun p => ⟨r, rfl, input, keys, output⟩) _

theorem State.Agrees.clearPending {s t : State} (h : s.Agrees t) (u : CodeUnit) :
    State.Agrees { s with codec := { s.codec with pend := clearPending u s.codec.pend } }
      { t with codec := { t.codec with pend := clearPending u t.codec.pend } } := by
  obtain ⟨r, rfl, input, keys, output⟩ := h
  exact ⟨r, rfl, input, keys, output⟩

theorem State.Agrees.tick {s t : State} (h : s.Agrees t) :
    State.Agrees { s with codec := s.codec.tick } { t with codec := t.codec.tick } := by
  obtain ⟨r, rfl, input, keys, output⟩ := h
  refine ⟨r, ?_, input, keys, output⟩
  show { s.withRest r with codec := ({ s.codec with c := r.codec.c } : Codec).tick } = _
  rw [Codec.tick_with_c]
  rfl

theorem State.Agrees.emit {s t : State} (h : s.Agrees t) : s.emit.Agrees t.emit := by
  have same : t.codec.w = s.codec.w ∧ t.codec.pend = s.codec.pend ∧ t.codec.dict = s.codec.dict := by
    obtain ⟨r, rfl, -⟩ := h
    exact ⟨rfl, rfl, rfl⟩
  obtain ⟨w, pend, dict⟩ := same
  unfold State.emit
  rw [w, pend, dict]
  cases pendingUnit s.codec.w s.codec.pend with
  | some v =>
    exact (h.packToken _).bind fun _ s t h => .ok _ (h.tick.clearPending v).tick
  | none =>
    cases dictLookup s.codec.dict s.codec.w with
    | none => exact .fault _
    | some k => exact (h.packToken _).bind fun _ s t h => .ok _ h.tick

theorem State.Agrees.insertEntry {s t : State} (h : s.Agrees t) (e : Str) : (s.insertEntry e).Agrees (t.insertEntry e) := by
  obtain ⟨r, rfl, input, keys, output⟩ := h
  unfold State.insertEntry
  show Eff.Agrees (if _ then _ else _) (if exceeds (s.codec.dictSize + 1) s.cfg.dictMax then _ else _)
  split
  · exact .raise _ ⟨r, rfl, input, keys, output⟩
  · exact .ok _ ⟨r, rfl, input, keys, output⟩

theorem State.Agrees.insertUnit {s t : State} (h : s.Agrees t) (u : CodeUnit) :
    (s.insertUnit u).Agrees (t.insertUnit u) := by
  have dict : t.codec.dict = s.codec.dict := by
    obtain ⟨r, rfl, -⟩ := h
    rfl
  unfold State.insertUnit
  rw [dict]
  cases dictLookup s.codec.dict [u] with
  | some k => exact .ok _ h
  | none =>
    refine (h.insertEntry _).bind fun _ s t h => .ok _ ?_
    obtain ⟨r, rfl, input, keys, output⟩ := h
    exact ⟨r, rfl, input, keys, output⟩

theorem State.Agrees.extendOrEmit {s t : State} (h : s.Agrees t) (u : CodeUnit) :
    (s.extendOrEmit u).Agrees (t.extendOrEmit u) := by
  have same : t.codec.w = s.codec.w ∧ t.codec.dict = s.codec.dict := by
    obtain ⟨r, rfl, -⟩ := h
    exact ⟨rfl, rfl⟩
  obtain ⟨w, dict⟩ := same
  unfold State.extendOrEmit
  dsimp only
  rw [w, dict]
  cases dictLookup s.codec.dict (s.codec.w ++ [u]) with
  | some k =>
    obtain ⟨r, rfl, input, keys, output⟩ := h
    exact .ok _ ⟨r, rfl, input, keys, output⟩
  | none =>
    refine h.emit.bind fun _ s t h => (h.insertEntry _).bind fun _ s t h => .ok _ ?_
    obtain ⟨r, rfl, input, keys, output⟩ := h
    exact ⟨r, rfl, input, keys, output⟩

theorem State.Agrees.encStep {s t : State} (h : s.Agrees t) (more : s.codec.idx < s.lat.nL) :
    s.encStep.Agrees t.encStep := by
  obtain ⟨r, rfl, input, keys, output⟩ := h
  have read : (s.withRest r).inBuf.read (s.withRest r).codec.idx = s.inBuf.read s.codec.idx := input _ more
  unfold State.encStep
  rw [read]
  cases s.inBuf.read s.codec.idx with
  | none => exact .refused _
  | some u =>
    have loaded : State.Agrees { s with codec := { s.codec with c := u } }
        { s.withRest r with codec := { (s.withRest r).codec with c := u } } :=
      ⟨{ r with codec := { r.codec with c := u } }, rfl, input, keys, output⟩
    refine (loaded.insertUnit u).bind fun _ s t h => (h.extendOrEmit u).bind fun _ s t h => .ok _ ?_
    obtain ⟨r, rfl, input, keys, output⟩ := h
    exact ⟨r, rfl, input, keys, output⟩

theorem State.Agrees.encFinish {s t : State} (h : s.Agrees t) : s.encFinish.Agrees t.encFinish := by
  refine h.emit.bind fun _ s t h => (h.packToken _).bind fun _ s t h => ?_
  have flushed : (((Packer.flush (bpcOf s.adapter) s.cfg.outMax s.pack).lift fun p => { s with pack := p })).Agrees
      ((Packer.flush (bpcOf t.adapter) t.cfg.outMax t.pack).lift fun p => { t with pack := p }) := by
    obtain ⟨r, rfl, input, keys, output⟩ := h
    exact .lift (put := fun p => { s with pack := p }) (put' := fun p => { s.withRest r with pack := p })
      (fun p => ⟨r, rfl, input, keys, output⟩) _
  refine flushed.bind fun _ s t h => .ok _ ?_
  obtain ⟨r, rfl, input, keys, output⟩ := h
  exact ⟨r, rfl, input, keys, output⟩

/-! ### The scrambler -/

theorem State.Agrees.scrambleMove {s t : State} (h : s.Agrees t) (scr : s.lat.scr = true) (walk : s.scr.skey < s.lat.kL) :
    s.scrambleMove.Agrees t.scrambleMove := by
  obtain ⟨r, rfl, input, keys, output⟩ := h
  have pack : (s.withRest r).scrambleMove.pack = s.scrambleMove.pack := by
    rw [State.scrambleMove_pack, State.scrambleMove_pack]
    show { s.pack with sym := maskSymbols s.cfg.mix (r.keys.read s.scr.skey) s.pack.sym } = _
    rw [keys scr _ walk]
  refine ⟨{ r with scr := (s.withRest r).scrambleMove.scr }, ?_, input, keys, output⟩
  show { (s.withRest r).scrambleMove with pack := (s.withRest r).scrambleMove.pack } = _
  rw [pack]
  rfl

theorem State.Agrees.unscrambleKey {s t : State} (h : s.Agrees t) (scr : s.lat.scr = true) (walk : s.scr.skey < s.lat.kL) :
    s.unscrambleKey.Agrees t.unscrambleKey := by
  obtain ⟨r, rfl, input, keys, output⟩ := h
  have pack : (s.withRest r).unscrambleKey.pack = s.unscrambleKey.pack := by
    rw [State.unscrambleKey_pack, State.unscrambleKey_pack]
    show { s.pack with sym := maskSymbols s.cfg.mix (r.keys.read s.scr.skey) s.pack.sym } = _
    rw [keys scr _ walk]
  refine ⟨{ r with scr := (s.withRest r).unscrambleKey.scr }, ?_, input, keys, output⟩
  show { (s.withRest r).unscrambleKey with pack := (s.withRest r).unscrambleKey.pack } = _
  rw [pack]
  rfl

/-- An input unit inside the input loads alike. -/
theorem loadInput_congr {a : Adapter} {m n : Memory} {i : Nat} (same : n.read i = m.read i) :
    loadInput a n i = loadInput a m i := by
  unfold loadInput
  rw [same]

theorem State.Agrees.convertUnit {s t : State} (h : s.Agrees t) (inside : s.read.ridx < s.lat.nL) :
    s.convertUnit.Agrees t.convertUnit := by
  obtain ⟨r, rfl, input, keys, output⟩ := h
  have load : loadInput (s.withRest r).adapter (s.withRest r).inBuf (s.withRest r).read.ridx =
      loadInput s.adapter s.inBuf s.read.ridx := loadInput_congr (input _ inside)
  rw [State.convertUnit_eq, State.convertUnit_eq, load]
  cases loadInput s.adapter s.inBuf s.read.ridx with
  | unwritten i => exact .refused _
  | missing i => exact .fault _
  | badSymbol => exact .raise _ ⟨r, rfl, input, keys, output⟩
  | symbol x =>
    refine .ok _ ?_
    show (s.converted x).Agrees (if s.pack.sym.length + 1 < s.lat.nL then _ else _)
    unfold State.converted
    split
    · exact ⟨r, rfl, input, keys, output⟩
    · exact ⟨r, rfl, input, keys, output⟩

/-! ### The decoder -/

/-- The reader loads nothing past the input (R86). -/
theorem Reader.unpackBit_congr {bpc nL : Nat} {src src' : Nat → Load} (same : ∀ i < nL, src' i = src i) (r : Reader) :
    r.unpackBit bpc nL src' = r.unpackBit bpc nL src := by
  unfold Reader.unpackBit
  split
  · split
    · rfl
    · rename_i inside
      rw [same _ (Nat.not_le.1 inside)]
  · rfl

theorem Reader.unpack_congr {bpc nL : Nat} {src src' : Nat → Load} (same : ∀ i < nL, src' i = src i) :
    ∀ (w v : Nat) (r : Reader), r.unpack bpc nL src' w v = r.unpack bpc nL src w v
  | 0, _, _ => rfl
  | w + 1, v, r => by
    rw [Reader.unpack, Reader.unpack, Reader.unpackBit_congr same]
    exact congrArg _ (funext fun b => funext fun r => Reader.unpack_congr same w _ r)

theorem State.Agrees.unpack {s t : State} (h : s.Agrees t) (w : Nat) : (s.unpack w).Agrees (t.unpack w) := by
  obtain ⟨r, rfl, input, keys, output⟩ := h
  have source : ∀ i < s.lat.nL, (s.withRest r).nextSym i = s.nextSym i := by
    intro i inside
    unfold State.nextSym
    exact if_congr Iff.rfl rfl (loadInput_congr (input i inside))
  have reads : ((s.withRest r).read.unpack (bpcOf (s.withRest r).adapter) (s.withRest r).lat.nL (s.withRest r).nextSym w 0) =
      s.read.unpack (bpcOf s.adapter) s.lat.nL s.nextSym w 0 := Reader.unpack_congr source w 0 s.read
  unfold State.unpack
  rw [reads]
  exact .lift (put := fun p => { s with read := p }) (put' := fun p => { s.withRest r with read := p })
    (fun p => ⟨r, rfl, input, keys, output⟩) _

theorem State.Agrees.fetchFirst {s t : State} (h : s.Agrees t) : s.fetchFirst.Agrees t.fetchFirst := by
  refine (h.unpack 2).bind fun p s t h => ?_
  cases firstLiteralWidth p with
  | none => exact .raise _ h
  | some w => exact (h.unpack w).bind fun v s t h => .ok _ h

theorem State.Agrees.fetchLater {s t : State} (h : s.Agrees t) : s.fetchLater.Agrees t.fetchLater := by
  have numBits : t.codec.numBits = s.codec.numBits := by
    obtain ⟨r, rfl, -⟩ := h
    rfl
  unfold State.fetchLater
  rw [numBits]
  refine (h.unpack _).bind fun code s t h => ?_
  have coded : State.Agrees { s with dec := { s.dec with cc := code } } { t with dec := { t.dec with cc := code } } := by
    obtain ⟨r, rfl, input, keys, output⟩ := h
    exact ⟨{ r with dec := { r.dec with cc := code } }, rfl, input, keys, output⟩
  dsimp only
  cases literalWidth code with
  | none => exact .ok _ coded
  | some w => exact (coded.unpack w).bind fun v s t h => .ok _ h

theorem State.Agrees.appendEntry {s t : State} (h : s.Agrees t) (e : Str) : (s.appendEntry e).Agrees (t.appendEntry e) := by
  obtain ⟨r, rfl, input, keys, output⟩ := h
  exact ⟨r, rfl, input, keys, output⟩

theorem State.Agrees.setW {s t : State} (h : s.Agrees t) (w : Str) :
    State.Agrees { s with codec := { s.codec with w := w } } { t with codec := { t.codec with w := w } } := by
  obtain ⟨r, rfl, input, keys, output⟩ := h
  exact ⟨r, rfl, input, keys, output⟩

theorem State.Agrees.setRes {s t : State} (h : s.Agrees t) (res : Str) :
    State.Agrees { s with dec := { s.dec with res := res } } { t with dec := { t.dec with res := res } } := by
  obtain ⟨r, rfl, input, keys, output⟩ := h
  exact ⟨r, rfl, input, keys, output⟩

theorem State.Agrees.setPhase {s t : State} (h : s.Agrees t) (p : Phase) :
    State.Agrees { s with phase := p } { t with phase := p } := by
  obtain ⟨r, rfl, input, keys, output⟩ := h
  exact ⟨r, rfl, input, keys, output⟩

/-- CC and ENTRY may be any. -/
theorem State.Agrees.setToken {s t : State} (h : s.Agrees t) (cc cc' : Nat) (e : Str) :
    State.Agrees { s with dec := { s.dec with cc := cc, entry := e } }
      { t with dec := { t.dec with cc := cc', entry := e } } := by
  obtain ⟨r, rfl, input, keys, output⟩ := h
  exact ⟨{ r with dec := { r.dec with cc := cc', entry := e } }, rfl, input, keys, output⟩

/-- What a token's execution reads is the same. -/
theorem State.Agrees.decoder {s t : State} (h : s.Agrees t) : t.codec.dictSize = s.codec.dictSize ∧
    t.codec.w = s.codec.w ∧ t.dec.dlist = s.dec.dlist ∧ t.dec.res = s.dec.res ∧ t.cfg = s.cfg := by
  obtain ⟨r, rfl, -⟩ := h
  exact ⟨rfl, rfl, rfl, rfl, rfl⟩

theorem State.Agrees.firstLiteral {s t : State} (h : s.Agrees t) (u : CodeUnit) :
    (s.firstLiteral u).Agrees (t.firstLiteral u) := by
  obtain ⟨dictSize, -, -, -, cfg⟩ := h.decoder
  unfold State.firstLiteral
  rw [dictSize, cfg]
  split
  · exact .raise _ h
  · exact .ok _ ((((h.appendEntry [u]).tick.tick.setW [u]).setRes [u]).setPhase .decode)

/-- RES with ENTRY at its end (R127). -/
def State.extendRes (s : State) : State := { s with dec := { s.dec with res := s.dec.res ++ s.dec.entry } }

/-- The token's TICK, and W the entry (R127). -/
def State.closeToken (s : State) : State := { s with codec := { s.codec.tick with w := s.dec.entry } }

/-- The common tail past OUT_MAX's test, `f` the first unit of ENTRY (R127). -/
def State.registerEntry (s : State) (f : Option Str) : Eff State Unit :=
  match f with
  | none => .fault .emptyString
  | some u =>
    if exceeds (s.codec.dictSize + 1) s.cfg.dictMax then .raise .capacity s
    else .ok () (s.appendEntry (s.codec.w ++ u)).closeToken

theorem State.commonTail_eq (s : State) : s.commonTail =
    if exceeds (s.dec.res.length + s.dec.entry.length) s.cfg.outMax then .raise .capacity s
    else s.extendRes.registerEntry (firstUnit s.dec.entry) := rfl

theorem State.Agrees.closeToken {s t : State} (h : s.Agrees t) (entry : t.dec.entry = s.dec.entry) :
    s.closeToken.Agrees t.closeToken := by
  have ticked := h.tick.setW s.dec.entry
  unfold State.closeToken
  rw [entry]
  exact ticked

theorem State.Agrees.registerEntry {s t : State} (h : s.Agrees t) (entry : t.dec.entry = s.dec.entry) (f : Option Str) :
    (s.registerEntry f).Agrees (t.registerEntry f) := by
  obtain ⟨dictSize, w, -, -, cfg⟩ := h.decoder
  cases f with
  | none => exact .fault _
  | some u =>
    unfold State.registerEntry
    dsimp only
    rw [dictSize, cfg, w]
    split
    · exact .raise _ h
    · exact .ok () ((h.appendEntry _).closeToken entry)

/-- The common tail, once ENTRY is resolved alike. -/
theorem State.Agrees.commonTail {s t : State} (h : s.Agrees t) (entry : t.dec.entry = s.dec.entry) :
    s.commonTail.Agrees t.commonTail := by
  obtain ⟨-, -, -, res, cfg⟩ := h.decoder
  rw [State.commonTail_eq, State.commonTail_eq t, res, entry, cfg]
  split
  · exact .raise _ h
  · have grown : s.extendRes.Agrees t.extendRes := by
      have same := h.setRes (s.dec.res ++ s.dec.entry)
      rw [← res, ← entry] at same
      rw [State.extendRes, ← res, ← entry]
      exact same
    exact grown.registerEntry entry _

theorem State.Agrees.literal {s t : State} (h : s.Agrees t) (u : CodeUnit) : (s.literal u).Agrees (t.literal u) := by
  obtain ⟨dictSize, -, -, -, cfg⟩ := h.decoder
  unfold State.literal
  rw [dictSize, cfg]
  split
  · exact .raise _ h
  · exact ((h.appendEntry [u]).tick.setToken _ _ [u]).commonTail rfl

theorem State.Agrees.resolveRef {s t : State} (h : s.Agrees t) (k : Nat) : (s.resolveRef k).Agrees (t.resolveRef k) := by
  obtain ⟨dictSize, w, dlist, -, -⟩ := h.decoder
  unfold State.resolveRef
  rw [dictSize, w, dlist]
  split
  · cases s.dec.dlist[k]? with
    | none => exact .fault _
    | some e => exact .ok e h
  · split
    · cases firstUnit s.codec.w with
      | none => exact .fault _
      | some u => exact .ok _ h
    · exact .raise _ h

theorem State.Agrees.reference {s t : State} (h : s.Agrees t) (k : Nat) : (s.reference k).Agrees (t.reference k) :=
  (h.resolveRef k).bind fun e s t h => (h.setToken s.dec.cc t.dec.cc e).commonTail rfl

/-! ### A whole step of the engine -/

/-- Two steps agree: the same kind, the same reason, and next states that agree. -/
inductive OutcomesAgree : Host.Outcome State Fault Refusal → Host.Outcome State Fault Refusal → Prop
  | next {s t : State} (h : s.Agrees t) : OutcomesAgree (.next s) (.next t)
  | fault (f : Fault) : OutcomesAgree (.fault f) (.fault f)
  | refused (r : Refusal) : OutcomesAgree (.refused r) (.refused r)

theorem State.Agrees.raise {s t : State} (h : s.Agrees t) (c : Cause) : (s.raise c).Agrees (t.raise c) := by
  obtain ⟨r, rfl, input, keys, -⟩ := h
  exact ⟨r, rfl, input, keys, fun i none => absurd none (Nat.not_lt_zero i)⟩

theorem Eff.Agrees.outcome {α : Type} {x y : Eff State α} (h : x.Agrees y) : OutcomesAgree x.outcome y.outcome := by
  cases h with
  | ok a h => exact .next h
  | raise c h => exact .next (h.raise c)
  | fault f => exact .fault f
  | refused r => exact .refused r

theorem State.Agrees.exec {s t : State} (h : s.Agrees t) {i : Instr} (token : isToken i = true) :
    OutcomesAgree (exec i s) (exec i t) := by
  cases i with
  | compress | decompress | compressScrambled | decompressScrambled => cases token
  | firstLit8 v | firstLit16 v => exact (h.firstLiteral _).outcome
  | lit8 v | lit16 v => exact (h.literal _).outcome
  | eos => exact .next (h.setPhase .output)
  | ref k => exact (h.reference k).outcome

theorem Eff.Agrees.move {x y : Eff State Instr} (h : x.Agrees y) (token : ∀ i u, x = .ok i u → isToken i = true) :
    OutcomesAgree x.move.run y.move.run := by
  cases h with
  | ok i h => exact h.exec (token i _ rfl)
  | raise c h => exact .next (h.raise c)
  | fault f => exact .fault f
  | refused r => exact .refused r

theorem State.Agrees.outputDone {s t : State} (h : s.Agrees t) : s.outputDone.Agrees t.outputDone := by
  obtain ⟨r, rfl, input, keys, -⟩ := h
  refine ⟨{ r with outBuf := r.outBuf.writeFrom 0 s.outputUnits }, rfl, input, keys, fun i below => ?_⟩
  have inside : i < s.outputUnits.length := below
  have units : (s.withRest r).outputUnits = s.outputUnits := rfl
  show (s.withRest r).outputDone.outBuf.read i = s.outputDone.outBuf.read i
  rw [State.outputDone_read, State.outputDone_read, units, if_pos inside, if_pos inside]

theorem State.Agrees.outputMove {s t : State} (h : s.Agrees t) :
    OutcomesAgree s.outputMove.outcome t.outputMove.outcome := by
  have same : t.lat = s.lat ∧ t.outputUnits = s.outputUnits ∧ t.cfg = s.cfg := by
    obtain ⟨r, rfl, -⟩ := h
    exact ⟨rfl, rfl, rfl⟩
  obtain ⟨lat, units, cfg⟩ := same
  cases beyond : isCompress s.lat.op && exceeds s.outputUnits.length s.cfg.outMax with
  | true =>
    rw [State.outputMove_of_beyond beyond, State.outputMove_of_beyond (by rw [lat, units, cfg, beyond])]
    exact .next (h.raise _)
  | false =>
    rw [State.outputMove_of_within beyond, State.outputMove_of_within (by rw [lat, units, cfg, beyond])]
    exact .next h.outputDone

theorem State.Agrees.encode_step {s t : State} (h : s.Agrees t) (encode : s.phase = .encode) (encode' : t.phase = .encode) :
    OutcomesAgree (engineStep s) (engineStep t) := by
  have same : t.codec.idx = s.codec.idx ∧ t.lat = s.lat := by
    obtain ⟨r, rfl, -⟩ := h
    exact ⟨rfl, rfl⟩
  obtain ⟨idx, lat⟩ := same
  by_cases more : s.codec.idx < s.lat.nL
  · rw [engineStep_of_encStep encode more, engineStep_of_encStep encode' (by rw [idx, lat]; exact more)]
    exact (h.encStep more).outcome
  · have all := Nat.not_lt.1 more
    rw [engineStep_of_encFinish encode all, engineStep_of_encFinish encode' (by rw [idx, lat]; exact all)]
    exact h.encFinish.outcome

theorem State.Agrees.unscramble_step {s t : State} (h : s.Agrees t) (sound : s.Sound) (unscramble : s.phase = .unscramble)
    (unscramble' : t.phase = .unscramble) : OutcomesAgree (engineStep s) (engineStep t) := by
  have same : t.pack = s.pack ∧ t.lat = s.lat := by
    obtain ⟨r, rfl, -⟩ := h
    exact ⟨rfl, rfl⟩
  obtain ⟨pack, lat⟩ := same
  have scr := (sound.latch (by rw [unscramble]; rfl)).keyed (.inr unscramble)
  have facts := sound.unscramble unscramble
  rw [engineStep_of_unscramble unscramble, engineStep_of_unscramble unscramble']
  by_cases short : s.pack.sym.length < s.lat.nL
  · rw [State.unscrambleMove_of_short short, State.unscrambleMove_of_short (by rw [pack, lat]; exact short)]
    exact (h.convertUnit (by rw [facts.convert short]; exact short)).outcome
  · have full := Nat.not_lt.1 short
    rw [State.unscrambleMove_of_full full, State.unscrambleMove_of_full (by rw [pack, lat]; exact full)]
    exact .next (h.unscrambleKey scr (facts.walk (Nat.le_antisymm facts.short full)).2)

/-- Two agreeing states, the first of them sound, take agreeing steps. -/
theorem State.Agrees.step {s t : State} (h : s.Agrees t) (sound : s.Sound) :
    OutcomesAgree (engineStep s) (engineStep t) := by
  have same : t.phase = s.phase := by
    obtain ⟨r, rfl, -⟩ := h
    rfl
  cases phase : s.phase with
  | idle =>
    rw [engineStep_of_idle phase, engineStep_of_idle (same.trans phase)]
    exact .next h
  | finished =>
    rw [engineStep_of_finished phase, engineStep_of_finished (same.trans phase)]
    exact .next h
  | encode => exact h.encode_step phase (same.trans phase)
  | scramble =>
    have scr := (sound.latch (by rw [phase]; rfl)).keyed (.inl phase)
    rw [engineStep_of_scramble phase, engineStep_of_scramble (same.trans phase)]
    exact .next (h.scrambleMove scr (sound.scramble phase))
  | output =>
    rw [engineStep_of_output phase, engineStep_of_output (same.trans phase)]
    exact h.outputMove
  | unscramble => exact h.unscramble_step sound phase (same.trans phase)
  | decodeFirst =>
    rw [engineStep_of_decodeFirst phase, engineStep_of_decodeFirst (same.trans phase)]
    exact h.fetchFirst.move fun _ _ => State.fetchFirst_isToken
  | decode =>
    rw [engineStep_of_decode phase, engineStep_of_decode (same.trans phase)]
    exact h.fetchLater.move fun _ _ => State.fetchLater_isToken

/-! ### Two runs of a command (R188) -/

/-- What O56 says of the two ends. -/
def SameResult : Host.Outcome State Fault Refusal → Host.Outcome State Fault Refusal → Prop
  | .next u, .next v =>
    u.regs.status = v.regs.status ∧ u.regs.errCode = v.regs.errCode ∧ u.regs.errIdx = v.regs.errIdx ∧
      u.regs.outLen = v.regs.outLen ∧ ∀ i < u.regs.outLen, u.outBuf.read i = v.outBuf.read i
  | .fault e, .fault f => e = f
  | .refused q, .refused r => q = r
  | _, _ => False

theorem State.Agrees.sameResult {s t : State} (h : s.Agrees t) : SameResult (.next s) (.next t) := by
  obtain ⟨r, rfl, -, -, output⟩ := h
  exact ⟨rfl, rfl, rfl, rfl, fun i below => (output i below).symm⟩

/-- A step that does not go on is the end of the run. -/
theorem State.run_of_fault {s : State} {f : Fault} (h : Machine.step s = .fault f) (k : Nat) : s.run (k + 1) = .fault f := by
  have first : core.step s = .fault f := h
  simp only [State.run, Host.Core.run, first]
  rfl

theorem State.run_of_refused {s : State} {r : Refusal} (h : Machine.step s = .refused r) (k : Nat) :
    s.run (k + 1) = .refused r := by
  have first : core.step s = .refused r := h
  simp only [State.run, Host.Core.run, first]
  rfl

/-- Two agreeing states have the same result after every number of steps. -/
theorem State.Agrees.run (k : Nat) : ∀ {s t : State}, s.Agrees t → s.Sound → s.host = [] →
    SameResult (s.run k) (t.run k) := by
  induction k with
  | zero => exact fun h _ _ => h.sameResult
  | succ k ih =>
    intro s t h sound alone
    have alone' : t.host = [] := by
      obtain ⟨r, rfl, -⟩ := h
      exact alone
    have both := h.step sound
    rw [← step_of_host_nil alone, ← step_of_host_nil alone'] at both
    generalize first : Machine.step s = o at both
    generalize second : Machine.step t = p at both
    cases both with
    | next agrees =>
      have steps := (step_of_host_nil alone).symm.trans first
      rw [State.run_of_step first, State.run_of_step second]
      exact ih agrees (sound.of_engineStep steps) (engineStep_alone alone steps)
    | fault f =>
      rw [State.run_of_fault first, State.run_of_fault second]
      exact rfl
    | refused r =>
      rw [State.run_of_refused first, State.run_of_refused second]
      exact rfl

/-- A command that has ended stays as it is. -/
theorem State.run_of_finished {s : State} (finished : s.phase = .finished) (alone : s.host = []) :
    ∀ k, s.run k = .next s
  | 0 => rfl
  | k + 1 => (State.run_of_step ((step_of_host_nil alone).trans (engineStep_of_finished finished)) k).trans
      (State.run_of_finished finished alone k)

/-- The start step of the same command leads to the same end, or to states that agree. -/
theorem State.run_started {s t : State} {c : Byte} (cfg : s.cfg = t.cfg) (inLen : s.regs.inLen = t.regs.inLen)
    (nkeys : s.regs.nkeys = t.regs.nkeys) (input : ∀ i < s.regs.inLen, s.inBuf.read i = t.inBuf.read i)
    (keys : isScrambled (opOf (opField c)) = true → ∀ i < s.regs.nkeys, s.keys.read i = t.keys.read i)
    (alone : s.host = []) (alone' : t.host = []) {u v : State} (first : commandStep c s = .next u)
    (second : commandStep c t = .next v) (k : Nat) : SameResult (u.run k) (v.run k) := by
  have ended : u.phase = .finished → v.phase = .finished → SameResult (.next u) (.next v) →
      SameResult (u.run k) (v.run k) := by
    intro finished finished' same
    obtain ⟨-, -, -, host, -⟩ := commandStep_frame first
    obtain ⟨-, -, -, host', -⟩ := commandStep_frame second
    rwa [State.run_of_finished finished (host.trans alone), State.run_of_finished finished' (host'.trans alone')]
  have none : ∀ (m n : Memory), ∀ i < 0, m.read i = n.read i := fun _ _ i below => absurd below (Nat.not_lt_zero i)
  by_cases illegal : IllegalWord c
  · cases (commandStep_of_illegal illegal s).symm.trans first
    cases (commandStep_of_illegal illegal t).symm.trans second
    exact ended rfl rfl ⟨rfl, rfl, rfl, rfl, none _ _⟩
  cases ((commandStep_of_legal illegal s).1.symm.trans first)
  cases ((commandStep_of_legal illegal t).1.symm.trans second)
  have sameSize : t.TooBig (opOf (opField c)) ↔ s.TooBig (opOf (opField c)) := by
    simp only [State.TooBig, cfg, inLen, nkeys]
  by_cases big : s.TooBig (opOf (opField c))
  · rw [startCommand_of_tooBig big, startCommand_of_tooBig (sameSize.2 big)] at *
    exact ended rfl rfl ⟨rfl, rfl, rfl, rfl, none _ _⟩
  have big' := mt sameSize.1 big
  by_cases empty : s.regs.inLen = 0
  · rw [startCommand_of_empty big empty, startCommand_of_empty big' (inLen ▸ empty)] at *
    exact ended rfl rfl ⟨rfl, rfl, rfl, rfl, none _ _⟩
  rw [startCommand_of_input big empty, startCommand_of_input big' (inLen ▸ empty)]
  refine State.Agrees.run k ⟨t, ?_, fun i below => (input i below).symm, fun scr i below => (keys ?_ i below).symm, none _ _⟩
    (State.started_sound empty (alphabet_of_legal illegal)) alone
  · rw [← nkeys]
    simp only [State.started, State.withRest, inLen, nkeys, cfg, alone, alone']
  · exact (scrAtStart_eq_true.1 scr).1

/-- Settles O56: the two blocks agree from the start step on, and agreeing blocks take agreeing steps. -/
theorem resultsDependOnlyOnInputs : Obligations.ResultsDependOnlyOnInputs := by
  intro s t c k free free' cfg inLen nkeys input keys
  obtain ⟨u, first, -⟩ := commandStartStep { s with host := [] } c free
  obtain ⟨v, second, -⟩ := commandStartStep { t with host := [] } c free'
  rw [State.run_withCommand free first k, State.run_withCommand free' second k]
  exact State.run_started (s := { s with host := [] }) (t := { t with host := [] }) cfg inLen nkeys input keys rfl rfl
    first second k

end Sys2Proof.Machine
end
